-- ==== Sys2Proof/Word.lean ====
section
/-! DEFINITION. The two word types of the CORE (00_scope.md R7): 8-bit registers and memory bytes, 16-bit addresses. -/

namespace Sys2Proof

/-- An 8-bit value: A, X, Y, P, S, CYC, a memory byte, an opcode byte (R7). -/
abbrev Byte := BitVec 8

/-- A 16-bit value: PC and every bus address (R7, R36). -/
abbrev Word := BitVec 16

end Sys2Proof
end

