-- ==== Sys2Proof/Machine/Bits.lean ====
section
/-! DEFINITION. The bit and byte-order helpers of the spec's notation (00_scope.md R9, R10). -/

namespace Sys2Proof

/-- `lo(w)`: bits 7:0 (R9). -/
def loByte (w : Word) : Byte := w.setWidth 8

/-- `hi(w)`: bits 15:8, the page number of an address (R9). -/
def hiByte (w : Word) : Byte := (w >>> 8).setWidth 8

/-- `w16(lo, hi) = lo + 256*hi` (R9). -/
def w16 (lo hi : Byte) : Word := hi ++ lo

/-- `zext_16(b)`: the byte as an address in page zero (R10, R68). -/
def zext16 (b : Byte) : Word := b.setWidth 16

/-- `sext_16(b)`: the byte as a two's-complement displacement (R10, R69). -/
def sext16 (b : Byte) : Word := b.signExtend 16

/-- A truth value as the bit 0 or 1 (R10). -/
def bitOf (b : Bool) : Nat := if b then 1 else 0

end Sys2Proof
end

