-- ==== Sys2Proof/Machine/Flags.lean ====
section
/-! DEFINITION. The status flags (10_state.md R22), `SetZN` and the ALU (41_addressing_alu.md R103 to R108), the compare
rule (44_compare_incdec.md R118), the shifts (43_shift_rotate.md) and the bit test (49_misc.md R156), each as a function
on the status byte. -/

namespace Sys2Proof.Machine

/-! ## Flags as bits of P (R22) -/

/-- The flags and the unused bit of P. -/
inductive Flag where
  | C | Z | I | D | B | U | V | N
  deriving DecidableEq, Repr

/-- The bit position of a flag (R22). -/
def flagBit : Flag → Nat
  | .C => 0
  | .Z => 1
  | .I => 2
  | .D => 3
  | .B => 4
  | .U => 5
  | .V => 6
  | .N => 7

/-- The byte with only a flag's bit set. -/
def flagMask (f : Flag) : Byte := 1#8 <<< flagBit f

/-- `test(flags, flag)` (R22). -/
def testFlag (p : Byte) (f : Flag) : Bool := p.getLsbD (flagBit f)

/-- `set(flag)` and `clear(flag)` (R22): P with the flag written. -/
def writeFlag (p : Byte) (f : Flag) (v : Bool) : Byte := if v then p ||| flagMask f else p &&& ~~~flagMask f

/-- `SetZN(v)` (R103). -/
def setZN (p v : Byte) : Byte := writeFlag (writeFlag p .Z (v == 0)) .N (v.getLsbD 7)

/-- P with bits 4 and 5 set, the copy that PHP and BRK push (R27, R147, R157). -/
def pushedStatus (p : Byte) : Byte := p ||| 0x30

/-- P with bit 4 clear and bit 5 set, the copy that the optional interrupt entry pushes (R183). -/
def pushedStatusInterrupt (p : Byte) : Byte := (p &&& ~~~0x10#8) ||| 0x20

/-- P as RTI restores it from the pulled byte, bit 5 forced to 1 (R158). -/
def restoredStatus (pulled : Byte) : Byte := pulled ||| 0x20

/-! ## The ALU -/

/-- The operation kinds (R104). -/
inductive AluKind where
  | add | subtract | and | eor | or
  deriving DecidableEq, Repr

/-- `Alu(Add, a, m)`: the result and the new P (R105). D is not read. -/
def aluAdd (p a m : Byte) : Byte × Byte :=
  let sum := a.toNat + m.toNat + bitOf (testFlag p .C)
  let r := BitVec.ofNat 8 sum
  let p := writeFlag p .C (decide (sum > 255))
  let p := writeFlag p .V (((a ^^^ r) &&& (m ^^^ r) &&& 0x80) != 0)
  (r, setZN p r)

/-- `Alu(Subtract, a, m)`: the result and the new P (R106). D is not read. -/
def aluSubtract (p a m : Byte) : Byte × Byte :=
  let diff : Int := (a.toNat : Int) - (m.toNat : Int) - (1 - (bitOf (testFlag p .C) : Int))
  let r := BitVec.ofInt 8 diff
  let p := writeFlag p .C (decide (diff ≥ 0))
  let p := writeFlag p .V (((a ^^^ m) &&& (a ^^^ r) &&& 0x80) != 0)
  (r, setZN p r)

/-- `Alu(kind, a, m)`: the result and the new P (R104 to R107). -/
def alu (kind : AluKind) (p a m : Byte) : Byte × Byte :=
  match kind with
  | .add => aluAdd p a m
  | .subtract => aluSubtract p a m
  | .and => (a &&& m, setZN p (a &&& m))
  | .eor => (a ^^^ m, setZN p (a ^^^ m))
  | .or => (a ||| m, setZN p (a ||| m))

/-- `AluNoFlags(kind, a, m, cin)`: the result alone, with an explicit carry-in (R108). No instruction uses it. -/
def aluNoFlags (kind : AluKind) (a m : Byte) (cin : Bool) : Byte :=
  match kind with
  | .add => BitVec.ofNat 8 (a.toNat + m.toNat + bitOf cin)
  | .subtract => BitVec.ofInt 8 ((a.toNat : Int) - (m.toNat : Int) - (1 - (bitOf cin : Int)))
  | .and => a &&& m
  | .eor => a ^^^ m
  | .or => a ||| m

/-! ## Compare, bit test, shifts, increments -/

/-- `Compare(r, m)`: the new P (R118). V is not written and the carry-in is not used. -/
def compareFlags (p r m : Byte) : Byte :=
  let t := r - m
  let p := writeFlag p .C (decide (r.toNat ≥ m.toNat))
  let p := writeFlag p .Z (r == m)
  writeFlag p .N (t.getLsbD 7)

/-- The flags of BIT: Z from A & M, N and V from bits 7 and 6 of M (R156). -/
def bitTestFlags (p a m : Byte) : Byte :=
  let p := writeFlag p .Z ((a &&& m) == 0)
  let p := writeFlag p .N (m.getLsbD 7)
  writeFlag p .V (m.getLsbD 6)

/-- ASL: the shifted byte and the new P (R114). -/
def shiftLeft (p v : Byte) : Byte × Byte :=
  let r := v <<< 1
  (r, setZN (writeFlag p .C (v.getLsbD 7)) r)

/-- LSR: the shifted byte and the new P (R115). -/
def shiftRight (p v : Byte) : Byte × Byte :=
  let r := v >>> 1
  (r, setZN (writeFlag p .C (v.getLsbD 0)) r)

/-- ROL: the rotated byte and the new P; the old carry enters bit 0 (R116). -/
def rotateLeft (p v : Byte) : Byte × Byte :=
  let r := (v <<< 1) ||| BitVec.ofNat 8 (bitOf (testFlag p .C))
  (r, setZN (writeFlag p .C (v.getLsbD 7)) r)

/-- ROR: the rotated byte and the new P; the old carry enters bit 7 (R117). -/
def rotateRight (p v : Byte) : Byte × Byte :=
  let r := (v >>> 1) ||| (BitVec.ofNat 8 (bitOf (testFlag p .C)) <<< 7)
  (r, setZN (writeFlag p .C (v.getLsbD 0)) r)

/-- INC: the byte plus 1 and the new P; C and V are never touched (R121). -/
def incrementByte (p v : Byte) : Byte × Byte := (v + 1, setZN p (v + 1))

/-- DEC: the byte minus 1 and the new P; C and V are never touched (R122). -/
def decrementByte (p v : Byte) : Byte × Byte := (v - 1, setZN p (v - 1))

end Sys2Proof.Machine
end

