-- ==== Sys2Proof/Config.lean ====
section
/-! DEFINITION. The parameters of 00_scope.md R8 that need nothing but words: the PPU read draws and the default of the
interrupt-line switch. `MEMORY_MAP`, `UNOFFICIAL_NOPS`, `CYCLES` and `HAS_INTERRUPT_LINES` are the fields of
`Machine.Params` (Machine/Params.lean), an argument of every definition of the machine that depends on one of them;
`PRG_LO`, `PRG_HI` and `RESET_DRAWS` are the fields of `Machine.Launch` (Machine/State.lean). -/

namespace Sys2Proof

/-- `PPU_READ` (R8, R43, V3 of 93_implementation_defined.md): the byte the n-th read of a PPU register returns. A free
value: it has no body, so nothing can be proved of the byte, and each read takes a fresh index (log 5). -/
opaque Config.ppuRead : Nat → Byte

/-- The default of `HAS_INTERRUPT_LINES` (R8, R179): the optional IRQ and NMI inputs do not exist (D19). -/
def Config.hasInterruptLines : Bool := false

end Sys2Proof
end

