-- ==== Sys2Proof/Syntax.lean ====
section
/-! DEFINITION. The instructions: one constructor per mnemonic of spec/opcode_table.json (two for JMP, which has two
rules), with its operand form and operand bytes. A row of the table is a constructor together with one operand form
(log 11). -/

namespace Sys2Proof

/-- The 13 addressing modes (30_encoding.md R65). -/
inductive Mode where
  | imp | acc | imm | zp | zpx | zpy | abs | absx | absy | indx | indy | ind | rel
  deriving DecidableEq, Repr

/-- An operand form with the operand bytes it takes (R65 to R69). A 16-bit operand is `w16(b1, b2)` (R67). -/
inductive Operand where
  /-- implied, no operand byte (R88) -/
  | imp
  /-- the accumulator (R89) -/
  | acc
  /-- immediate `#v` (R90) -/
  | imm (v : Byte)
  /-- zero page `$nn` (R91) -/
  | zp (b : Byte)
  /-- zero page indexed `$nn,X` (R92) -/
  | zpx (b : Byte)
  /-- zero page indexed `$nn,Y` (R93) -/
  | zpy (b : Byte)
  /-- absolute `$nnnn` (R94) -/
  | abs (w : Word)
  /-- absolute indexed `$nnnn,X` (R95) -/
  | absx (w : Word)
  /-- absolute indexed `$nnnn,Y` (R96) -/
  | absy (w : Word)
  /-- indexed indirect `($nn,X)` (R97) -/
  | indx (b : Byte)
  /-- indirect indexed `($nn),Y` (R98) -/
  | indy (b : Byte)
  /-- absolute indirect `($nnnn)`, JMP only (R99) -/
  | ind (w : Word)
  /-- relative, branches only (R100) -/
  | rel (d : Byte)
  deriving DecidableEq, Repr

/-- The addressing mode of an operand form (R65). -/
def Operand.mode : Operand → Mode
  | .imp => .imp
  | .acc => .acc
  | .imm _ => .imm
  | .zp _ => .zp
  | .zpx _ => .zpx
  | .zpy _ => .zpy
  | .abs _ => .abs
  | .absx _ => .absx
  | .absy _ => .absy
  | .indx _ => .indx
  | .indy _ => .indy
  | .ind _ => .ind
  | .rel _ => .rel

/-- An instruction with its operands (30_encoding.md R71 to R73). -/
inductive Instr where
  -- 42_arith_logic.md
  | adc (o : Operand)
  | sbc (o : Operand)
  | and (o : Operand)
  | ora (o : Operand)
  | eor (o : Operand)
  -- 43_shift_rotate.md
  | asl (o : Operand)
  | lsr (o : Operand)
  | rol (o : Operand)
  | ror (o : Operand)
  -- 44_compare_incdec.md
  | cmp (o : Operand)
  | cpx (o : Operand)
  | cpy (o : Operand)
  | inc (o : Operand)
  | dec (o : Operand)
  | inx
  | iny
  | dex
  | dey
  -- 45_branch.md, with the displacement byte b1
  | bcc (d : Byte)
  | bcs (d : Byte)
  | beq (d : Byte)
  | bne (d : Byte)
  | bmi (d : Byte)
  | bpl (d : Byte)
  | bvc (d : Byte)
  | bvs (d : Byte)
  -- 46_jump_subroutine.md
  | jmpAbs (target : Word)
  | jmpInd (ptr : Word)
  | jsr (target : Word)
  | rts
  -- 47_load_store.md
  | lda (o : Operand)
  | ldx (o : Operand)
  | ldy (o : Operand)
  | sta (o : Operand)
  | stx (o : Operand)
  | sty (o : Operand)
  -- 48_stack_transfer.md
  | pha
  | php
  | pla
  | plp
  | tax
  | tay
  | txa
  | tya
  | tsx
  | txs
  -- 49_misc.md
  | bit (o : Operand)
  | brk
  | rti
  | clc
  | sec
  | cli
  | sei
  | cld
  | sed
  | clv
  | nop
  /-- an unofficial NOP: its opcode byte and its ignored operand (R167) -/
  | nopStar (op : Byte) (o : Operand)
  /-- an unimplemented opcode byte (R168) -/
  | unimp (op : Byte)
  deriving DecidableEq, Repr

/-- The operand form of an instruction (R65, R71). -/
def Instr.form : Instr → Operand
  | .adc o | .sbc o | .and o | .ora o | .eor o => o
  | .asl o | .lsr o | .rol o | .ror o => o
  | .cmp o | .cpx o | .cpy o | .inc o | .dec o => o
  | .inx | .iny | .dex | .dey => .imp
  | .bcc d | .bcs d | .beq d | .bne d | .bmi d | .bpl d | .bvc d | .bvs d => .rel d
  | .jmpAbs t | .jsr t => .abs t
  | .jmpInd p => .ind p
  | .rts => .imp
  | .lda o | .ldx o | .ldy o | .sta o | .stx o | .sty o => o
  | .pha | .php | .pla | .plp | .tax | .tay | .txa | .tya | .tsx | .txs => .imp
  | .bit o => o
  | .brk | .rti | .clc | .sec | .cli | .sei | .cld | .sed | .clv | .nop => .imp
  | .nopStar _ o => o
  | .unimp _ => .imp

end Sys2Proof
end

