-- ==== Sys2Proof/Machine/OpcodeMap.lean ====
section
/-! DEFINITION. The opcode map of 30_encoding.md, by table as R64 asks: the 151 official opcodes (R70), which no parameter
changes, and the default of the parameter `UNOFFICIAL_NOPS` (R72, 00_scope.md R8). -/

namespace Sys2Proof

/-- The parameter `UNOFFICIAL_NOPS` (R8): the opcode bytes of the unofficial NOPs, each with the mode that gives its
length (R72). A byte listed here that is official stays official (R14). -/
abbrev UnofficialNops := List (Byte × Mode)

/-- The 27 unofficial NOPs of R72, the default of `UNOFFICIAL_NOPS`. -/
def defaultUnofficialNops : UnofficialNops :=
  [(0x1A, .imp), (0x3A, .imp), (0x5A, .imp), (0x7A, .imp), (0xDA, .imp), (0xFA, .imp)] ++
  [(0x80, .imm), (0x82, .imm), (0x89, .imm), (0xC2, .imm), (0xE2, .imm)] ++
  [(0x04, .zp), (0x44, .zp), (0x64, .zp)] ++
  [(0x14, .zpx), (0x34, .zpx), (0x54, .zpx), (0x74, .zpx), (0xD4, .zpx), (0xF4, .zpx)] ++
  [(0x0C, .abs)] ++
  [(0x1C, .absx), (0x3C, .absx), (0x5C, .absx), (0x7C, .absx), (0xDC, .absx), (0xFC, .absx)]

/-- The operand form of a mode with operand bytes 0. -/
def blankOperand : Mode → Operand
  | .imp => .imp
  | .acc => .acc
  | .imm => .imm 0
  | .zp => .zp 0
  | .zpx => .zpx 0
  | .zpy => .zpy 0
  | .abs => .abs 0
  | .absx => .absx 0
  | .absy => .absy 0
  | .indx => .indx 0
  | .indy => .indy 0
  | .ind => .ind 0
  | .rel => .rel 0

/-! ## The official opcodes (R70, R71). Operand bytes stand as 0; `none` stands where R70 has `NOP*` or `--`. -/

/-- Row 0x of the opcode map, official opcodes only (R70). -/
def officialRow0 : List (Option Instr) :=
  [some .brk, some (.ora (.indx 0)), none, none,
   none, some (.ora (.zp 0)), some (.asl (.zp 0)), none,
   some .php, some (.ora (.imm 0)), some (.asl .acc), none,
   none, some (.ora (.abs 0)), some (.asl (.abs 0)), none]

/-- Row 1x of the opcode map, official opcodes only (R70). -/
def officialRow1 : List (Option Instr) :=
  [some (.bpl 0), some (.ora (.indy 0)), none, none,
   none, some (.ora (.zpx 0)), some (.asl (.zpx 0)), none,
   some .clc, some (.ora (.absy 0)), none, none,
   none, some (.ora (.absx 0)), some (.asl (.absx 0)), none]

/-- Row 2x of the opcode map, official opcodes only (R70). -/
def officialRow2 : List (Option Instr) :=
  [some (.jsr 0), some (.and (.indx 0)), none, none,
   some (.bit (.zp 0)), some (.and (.zp 0)), some (.rol (.zp 0)), none,
   some .plp, some (.and (.imm 0)), some (.rol .acc), none,
   some (.bit (.abs 0)), some (.and (.abs 0)), some (.rol (.abs 0)), none]

/-- Row 3x of the opcode map, official opcodes only (R70). -/
def officialRow3 : List (Option Instr) :=
  [some (.bmi 0), some (.and (.indy 0)), none, none,
   none, some (.and (.zpx 0)), some (.rol (.zpx 0)), none,
   some .sec, some (.and (.absy 0)), none, none,
   none, some (.and (.absx 0)), some (.rol (.absx 0)), none]

/-- Row 4x of the opcode map, official opcodes only (R70). -/
def officialRow4 : List (Option Instr) :=
  [some .rti, some (.eor (.indx 0)), none, none,
   none, some (.eor (.zp 0)), some (.lsr (.zp 0)), none,
   some .pha, some (.eor (.imm 0)), some (.lsr .acc), none,
   some (.jmpAbs 0), some (.eor (.abs 0)), some (.lsr (.abs 0)), none]

/-- Row 5x of the opcode map, official opcodes only (R70). -/
def officialRow5 : List (Option Instr) :=
  [some (.bvc 0), some (.eor (.indy 0)), none, none,
   none, some (.eor (.zpx 0)), some (.lsr (.zpx 0)), none,
   some .cli, some (.eor (.absy 0)), none, none,
   none, some (.eor (.absx 0)), some (.lsr (.absx 0)), none]

/-- Row 6x of the opcode map, official opcodes only (R70). -/
def officialRow6 : List (Option Instr) :=
  [some .rts, some (.adc (.indx 0)), none, none,
   none, some (.adc (.zp 0)), some (.ror (.zp 0)), none,
   some .pla, some (.adc (.imm 0)), some (.ror .acc), none,
   some (.jmpInd 0), some (.adc (.abs 0)), some (.ror (.abs 0)), none]

/-- Row 7x of the opcode map, official opcodes only (R70). -/
def officialRow7 : List (Option Instr) :=
  [some (.bvs 0), some (.adc (.indy 0)), none, none,
   none, some (.adc (.zpx 0)), some (.ror (.zpx 0)), none,
   some .sei, some (.adc (.absy 0)), none, none,
   none, some (.adc (.absx 0)), some (.ror (.absx 0)), none]

/-- Row 8x of the opcode map, official opcodes only (R70). -/
def officialRow8 : List (Option Instr) :=
  [none, some (.sta (.indx 0)), none, none,
   some (.sty (.zp 0)), some (.sta (.zp 0)), some (.stx (.zp 0)), none,
   some .dey, none, some .txa, none,
   some (.sty (.abs 0)), some (.sta (.abs 0)), some (.stx (.abs 0)), none]

/-- Row 9x of the opcode map, official opcodes only (R70). -/
def officialRow9 : List (Option Instr) :=
  [some (.bcc 0), some (.sta (.indy 0)), none, none,
   some (.sty (.zpx 0)), some (.sta (.zpx 0)), some (.stx (.zpy 0)), none,
   some .tya, some (.sta (.absy 0)), some .txs, none,
   none, some (.sta (.absx 0)), none, none]

/-- Row Ax of the opcode map, official opcodes only (R70). -/
def officialRowA : List (Option Instr) :=
  [some (.ldy (.imm 0)), some (.lda (.indx 0)), some (.ldx (.imm 0)), none,
   some (.ldy (.zp 0)), some (.lda (.zp 0)), some (.ldx (.zp 0)), none,
   some .tay, some (.lda (.imm 0)), some .tax, none,
   some (.ldy (.abs 0)), some (.lda (.abs 0)), some (.ldx (.abs 0)), none]

/-- Row Bx of the opcode map, official opcodes only (R70). -/
def officialRowB : List (Option Instr) :=
  [some (.bcs 0), some (.lda (.indy 0)), none, none,
   some (.ldy (.zpx 0)), some (.lda (.zpx 0)), some (.ldx (.zpy 0)), none,
   some .clv, some (.lda (.absy 0)), some .tsx, none,
   some (.ldy (.absx 0)), some (.lda (.absx 0)), some (.ldx (.absy 0)), none]

/-- Row Cx of the opcode map, official opcodes only (R70). -/
def officialRowC : List (Option Instr) :=
  [some (.cpy (.imm 0)), some (.cmp (.indx 0)), none, none,
   some (.cpy (.zp 0)), some (.cmp (.zp 0)), some (.dec (.zp 0)), none,
   some .iny, some (.cmp (.imm 0)), some .dex, none,
   some (.cpy (.abs 0)), some (.cmp (.abs 0)), some (.dec (.abs 0)), none]

/-- Row Dx of the opcode map, official opcodes only (R70). -/
def officialRowD : List (Option Instr) :=
  [some (.bne 0), some (.cmp (.indy 0)), none, none,
   none, some (.cmp (.zpx 0)), some (.dec (.zpx 0)), none,
   some .cld, some (.cmp (.absy 0)), none, none,
   none, some (.cmp (.absx 0)), some (.dec (.absx 0)), none]

/-- Row Ex of the opcode map, official opcodes only (R70). -/
def officialRowE : List (Option Instr) :=
  [some (.cpx (.imm 0)), some (.sbc (.indx 0)), none, none,
   some (.cpx (.zp 0)), some (.sbc (.zp 0)), some (.inc (.zp 0)), none,
   some .inx, some (.sbc (.imm 0)), some .nop, none,
   some (.cpx (.abs 0)), some (.sbc (.abs 0)), some (.inc (.abs 0)), none]

/-- Row Fx of the opcode map, official opcodes only (R70). -/
def officialRowF : List (Option Instr) :=
  [some (.beq 0), some (.sbc (.indy 0)), none, none,
   none, some (.sbc (.zpx 0)), some (.inc (.zpx 0)), none,
   some .sed, some (.sbc (.absy 0)), none, none,
   none, some (.sbc (.absx 0)), some (.inc (.absx 0)), none]

/-- The 16 rows of the opcode map, row = high nibble (R70). -/
def officialRows : List (List (Option Instr)) :=
  [officialRow0, officialRow1, officialRow2, officialRow3, officialRow4, officialRow5, officialRow6, officialRow7] ++
  [officialRow8, officialRow9, officialRowA, officialRowB, officialRowC, officialRowD, officialRowE, officialRowF]

/-- The official instruction an opcode byte selects, with operand bytes 0; none for an unofficial byte (R14, R70). -/
def officialOpcode (op : Byte) : Option Instr := (officialRows.getD (op.toNat / 16) []).getD (op.toNat % 16) none

/-- The byte is one of the unofficial NOPs, with this mode (R72). -/
def isUnofficialNop (op : Byte) (m : Mode) (nops : UnofficialNops) : Bool :=
  (officialOpcode op).isNone && nops.lookup op == some m

/-- The byte is unimplemented: neither official nor an unofficial NOP (R73, R74). -/
def isUnimplemented (op : Byte) (nops : UnofficialNops) : Bool :=
  (officialOpcode op).isNone && (nops.lookup op).isNone

end Sys2Proof
end

