-- ==== Sys2Proof/WellFormed.lean ====
section
/-! DEFINITION. Well-formed instructions: the operand form is one the mnemonic has an opcode for (30_encoding.md R71,
R72), and an unimplemented byte is neither official nor an unofficial NOP (R73). -/

namespace Sys2Proof

/-- The forms of ADC, SBC, AND, ORA, EOR, CMP and LDA (R71). -/
def aluForms : List Mode := [.imm, .zp, .zpx, .abs, .absx, .absy, .indx, .indy]

/-- The forms of ASL, LSR, ROL and ROR (R71). -/
def shiftForms : List Mode := [.zp, .zpx, .abs, .absx, .acc]

/-- The forms of CPX and CPY (R71). -/
def compareIndexForms : List Mode := [.imm, .zp, .abs]

/-- The forms of INC and DEC (R71). -/
def incDecForms : List Mode := [.zp, .zpx, .abs, .absx]

/-- The forms of LDX (R71). -/
def ldxForms : List Mode := [.imm, .zp, .zpy, .abs, .absy]

/-- The forms of LDY (R71). -/
def ldyForms : List Mode := [.imm, .zp, .zpx, .abs, .absx]

/-- The forms of STA (R71, R143: no immediate form). -/
def staForms : List Mode := [.zp, .zpx, .abs, .absx, .absy, .indx, .indy]

/-- The forms of STX (R71). -/
def stxForms : List Mode := [.zp, .zpy, .abs]

/-- The forms of STY (R71). -/
def styForms : List Mode := [.zp, .zpx, .abs]

/-- The forms of BIT (R71). -/
def bitForms : List Mode := [.zp, .abs]

/-- An instruction the opcode map has an encoding for (R70 to R74), for the parameter `UNOFFICIAL_NOPS`, its default where
none is given. -/
def Instr.wellFormed (i : Instr) (nops : UnofficialNops := defaultUnofficialNops) : Bool :=
  match i with
  | .adc o | .sbc o | .and o | .ora o | .eor o => aluForms.contains o.mode
  | .asl o | .lsr o | .rol o | .ror o => shiftForms.contains o.mode
  | .cmp o => aluForms.contains o.mode
  | .cpx o | .cpy o => compareIndexForms.contains o.mode
  | .inc o | .dec o => incDecForms.contains o.mode
  | .inx | .iny | .dex | .dey => true
  | .bcc _ | .bcs _ | .beq _ | .bne _ | .bmi _ | .bpl _ | .bvc _ | .bvs _ => true
  | .jmpAbs _ | .jmpInd _ | .jsr _ | .rts => true
  | .lda o => aluForms.contains o.mode
  | .ldx o => ldxForms.contains o.mode
  | .ldy o => ldyForms.contains o.mode
  | .sta o => staForms.contains o.mode
  | .stx o => stxForms.contains o.mode
  | .sty o => styForms.contains o.mode
  | .pha | .php | .pla | .plp | .tax | .tay | .txa | .tya | .tsx | .txs => true
  | .bit o => bitForms.contains o.mode
  | .brk | .rti | .clc | .sec | .cli | .sei | .cld | .sed | .clv | .nop => true
  | .nopStar op o => isUnofficialNop op o.mode nops
  | .unimp op => isUnimplemented op nops

end Sys2Proof
end

