-- ==== Sys2Proof/Decode.lean ====
section
/-! DEFINITION. Decoding and encoding, for the parameter `UNOFFICIAL_NOPS` (00_scope.md R8), its default where none is
given. The decoder reads the opcode map by opcode byte (Machine/OpcodeMap.lean, R70);
the encoder is written from the other table of the spec, the mnemonic-by-mode table R71. -/

namespace Sys2Proof

/-! ## Lengths (R63, R65) -/

/-- The length in bytes of an instruction of each mode (R65). -/
def modeLength : Mode → Nat
  | .imp | .acc => 1
  | .imm | .zp | .zpx | .zpy | .indx | .indy | .rel => 2
  | .abs | .absx | .absy | .ind => 3

/-- The length of an instruction (R63). BRK and an unimplemented byte are one byte long (R65, R168). -/
def instrLength (i : Instr) : Nat := modeLength i.form.mode

/-! ## Decoding (R79) -/

/-- `DECODE(op)` (R79, R84): the instruction an opcode byte selects, with its operand bytes still 0, for the parameter
`UNOFFICIAL_NOPS`. Total over the 256 bytes (R74); it reads nothing but the byte. An unimplemented byte gives `unimp`,
whose meaning raises the fault (R168). -/
def decodeOpcode (op : Byte) (nops : UnofficialNops := defaultUnofficialNops) : Instr :=
  match officialOpcode op with
  | some i => i
  | none =>
    match nops.lookup op with
    | some m => .nopStar op (blankOperand m)
    | none => .unimp op

/-- Put the operand bytes b1, b2 into a form (R66 to R69): an immediate, zero-page or relative operand is b1, a 16-bit
operand is `w16(b1, b2)`. -/
def fillOperand (b1 b2 : Byte) : Operand → Operand
  | .imp => .imp
  | .acc => .acc
  | .imm _ => .imm b1
  | .zp _ => .zp b1
  | .zpx _ => .zpx b1
  | .zpy _ => .zpy b1
  | .abs _ => .abs (w16 b1 b2)
  | .absx _ => .absx (w16 b1 b2)
  | .absy _ => .absy (w16 b1 b2)
  | .indx _ => .indx b1
  | .indy _ => .indy b1
  | .ind _ => .ind (w16 b1 b2)
  | .rel _ => .rel b1

/-- Put the operand bytes into an instruction of the opcode map (R80, R81). -/
def fillInstr (b1 b2 : Byte) : Instr → Instr
  | .adc o => .adc (fillOperand b1 b2 o)
  | .sbc o => .sbc (fillOperand b1 b2 o)
  | .and o => .and (fillOperand b1 b2 o)
  | .ora o => .ora (fillOperand b1 b2 o)
  | .eor o => .eor (fillOperand b1 b2 o)
  | .asl o => .asl (fillOperand b1 b2 o)
  | .lsr o => .lsr (fillOperand b1 b2 o)
  | .rol o => .rol (fillOperand b1 b2 o)
  | .ror o => .ror (fillOperand b1 b2 o)
  | .cmp o => .cmp (fillOperand b1 b2 o)
  | .cpx o => .cpx (fillOperand b1 b2 o)
  | .cpy o => .cpy (fillOperand b1 b2 o)
  | .inc o => .inc (fillOperand b1 b2 o)
  | .dec o => .dec (fillOperand b1 b2 o)
  | .inx => .inx
  | .iny => .iny
  | .dex => .dex
  | .dey => .dey
  | .bcc _ => .bcc b1
  | .bcs _ => .bcs b1
  | .beq _ => .beq b1
  | .bne _ => .bne b1
  | .bmi _ => .bmi b1
  | .bpl _ => .bpl b1
  | .bvc _ => .bvc b1
  | .bvs _ => .bvs b1
  | .jmpAbs _ => .jmpAbs (w16 b1 b2)
  | .jmpInd _ => .jmpInd (w16 b1 b2)
  | .jsr _ => .jsr (w16 b1 b2)
  | .rts => .rts
  | .lda o => .lda (fillOperand b1 b2 o)
  | .ldx o => .ldx (fillOperand b1 b2 o)
  | .ldy o => .ldy (fillOperand b1 b2 o)
  | .sta o => .sta (fillOperand b1 b2 o)
  | .stx o => .stx (fillOperand b1 b2 o)
  | .sty o => .sty (fillOperand b1 b2 o)
  | .pha => .pha
  | .php => .php
  | .pla => .pla
  | .plp => .plp
  | .tax => .tax
  | .tay => .tay
  | .txa => .txa
  | .tya => .tya
  | .tsx => .tsx
  | .txs => .txs
  | .bit o => .bit (fillOperand b1 b2 o)
  | .brk => .brk
  | .rti => .rti
  | .clc => .clc
  | .sec => .sec
  | .cli => .cli
  | .sei => .sei
  | .cld => .cld
  | .sed => .sed
  | .clv => .clv
  | .nop => .nop
  | .nopStar op o => .nopStar op (fillOperand b1 b2 o)
  | .unimp op => .unimp op

/-- The instruction that the bytes op, b1, b2 at an address encode; bytes past its length are ignored (R63, R67). -/
def decode (op b1 b2 : Byte) (nops : UnofficialNops := defaultUnofficialNops) : Instr :=
  fillInstr b1 b2 (decodeOpcode op nops)

/-- Why a sequence of bytes is not the encoding of an instruction followed by other bytes. -/
inductive DecodeError where
  /-- no byte at all -/
  | noOpcode
  /-- the opcode byte needs more operand bytes than follow it (R63) -/
  | missingOperand (op : Byte)
  deriving DecidableEq, Repr

/-- Decode the first instruction of a list of bytes and give the rest of the list; total, rejecting by name. -/
def decodeBytes (bytes : List Byte) (nops : UnofficialNops := defaultUnofficialNops) :
    Except DecodeError (Instr × List Byte) :=
  match bytes with
  | [] => .error .noOpcode
  | op :: rest =>
    if rest.length + 1 < instrLength (decodeOpcode op nops) then .error (.missingOperand op)
    else
      .ok (decode op (rest.getD 0 0) (rest.getD 1 0) nops, rest.drop (instrLength (decodeOpcode op nops) - 1))

/-! ## The encoder (R71, R72) -/

/-- The opcode byte that a mnemonic's row of R71 gives for the mode of an operand form. -/
def opcodeFor (o : Operand) (row : List (Mode × Byte)) : Option Byte := row.lookup o.mode

/-- The opcode byte of an instruction, by mnemonic and mode (R71; R72 for the unofficial NOPs, R73 for the unimplemented
bytes); `none` where the mnemonic has no such form. -/
def opcodeOf (i : Instr) (nops : UnofficialNops := defaultUnofficialNops) : Option Byte :=
  match i with
  | .adc o => opcodeFor o [(.imm, 0x69), (.zp, 0x65), (.zpx, 0x75), (.abs, 0x6D),
      (.absx, 0x7D), (.absy, 0x79), (.indx, 0x61), (.indy, 0x71)]
  | .sbc o => opcodeFor o [(.imm, 0xE9), (.zp, 0xE5), (.zpx, 0xF5), (.abs, 0xED),
      (.absx, 0xFD), (.absy, 0xF9), (.indx, 0xE1), (.indy, 0xF1)]
  | .and o => opcodeFor o [(.imm, 0x29), (.zp, 0x25), (.zpx, 0x35), (.abs, 0x2D),
      (.absx, 0x3D), (.absy, 0x39), (.indx, 0x21), (.indy, 0x31)]
  | .ora o => opcodeFor o [(.imm, 0x09), (.zp, 0x05), (.zpx, 0x15), (.abs, 0x0D),
      (.absx, 0x1D), (.absy, 0x19), (.indx, 0x01), (.indy, 0x11)]
  | .eor o => opcodeFor o [(.imm, 0x49), (.zp, 0x45), (.zpx, 0x55), (.abs, 0x4D),
      (.absx, 0x5D), (.absy, 0x59), (.indx, 0x41), (.indy, 0x51)]
  | .asl o => opcodeFor o [(.zp, 0x06), (.zpx, 0x16), (.abs, 0x0E), (.absx, 0x1E), (.acc, 0x0A)]
  | .lsr o => opcodeFor o [(.zp, 0x46), (.zpx, 0x56), (.abs, 0x4E), (.absx, 0x5E), (.acc, 0x4A)]
  | .rol o => opcodeFor o [(.zp, 0x26), (.zpx, 0x36), (.abs, 0x2E), (.absx, 0x3E), (.acc, 0x2A)]
  | .ror o => opcodeFor o [(.zp, 0x66), (.zpx, 0x76), (.abs, 0x6E), (.absx, 0x7E), (.acc, 0x6A)]
  | .cmp o => opcodeFor o [(.imm, 0xC9), (.zp, 0xC5), (.zpx, 0xD5), (.abs, 0xCD),
      (.absx, 0xDD), (.absy, 0xD9), (.indx, 0xC1), (.indy, 0xD1)]
  | .cpx o => opcodeFor o [(.imm, 0xE0), (.zp, 0xE4), (.abs, 0xEC)]
  | .cpy o => opcodeFor o [(.imm, 0xC0), (.zp, 0xC4), (.abs, 0xCC)]
  | .inc o => opcodeFor o [(.zp, 0xE6), (.zpx, 0xF6), (.abs, 0xEE), (.absx, 0xFE)]
  | .dec o => opcodeFor o [(.zp, 0xC6), (.zpx, 0xD6), (.abs, 0xCE), (.absx, 0xDE)]
  | .inx => some 0xE8
  | .iny => some 0xC8
  | .dex => some 0xCA
  | .dey => some 0x88
  | .bcc _ => some 0x90
  | .bcs _ => some 0xB0
  | .beq _ => some 0xF0
  | .bne _ => some 0xD0
  | .bmi _ => some 0x30
  | .bpl _ => some 0x10
  | .bvc _ => some 0x50
  | .bvs _ => some 0x70
  | .jmpAbs _ => some 0x4C
  | .jmpInd _ => some 0x6C
  | .jsr _ => some 0x20
  | .rts => some 0x60
  | .lda o => opcodeFor o [(.imm, 0xA9), (.zp, 0xA5), (.zpx, 0xB5), (.abs, 0xAD),
      (.absx, 0xBD), (.absy, 0xB9), (.indx, 0xA1), (.indy, 0xB1)]
  | .ldx o => opcodeFor o [(.imm, 0xA2), (.zp, 0xA6), (.zpy, 0xB6), (.abs, 0xAE), (.absy, 0xBE)]
  | .ldy o => opcodeFor o [(.imm, 0xA0), (.zp, 0xA4), (.zpx, 0xB4), (.abs, 0xAC), (.absx, 0xBC)]
  | .sta o => opcodeFor o [(.zp, 0x85), (.zpx, 0x95), (.abs, 0x8D),
      (.absx, 0x9D), (.absy, 0x99), (.indx, 0x81), (.indy, 0x91)]
  | .stx o => opcodeFor o [(.zp, 0x86), (.zpy, 0x96), (.abs, 0x8E)]
  | .sty o => opcodeFor o [(.zp, 0x84), (.zpx, 0x94), (.abs, 0x8C)]
  | .pha => some 0x48
  | .php => some 0x08
  | .pla => some 0x68
  | .plp => some 0x28
  | .tax => some 0xAA
  | .tay => some 0xA8
  | .txa => some 0x8A
  | .tya => some 0x98
  | .tsx => some 0xBA
  | .txs => some 0x9A
  | .bit o => opcodeFor o [(.zp, 0x24), (.abs, 0x2C)]
  | .brk => some 0x00
  | .rti => some 0x40
  | .clc => some 0x18
  | .sec => some 0x38
  | .cli => some 0x58
  | .sei => some 0x78
  | .cld => some 0xD8
  | .sed => some 0xF8
  | .clv => some 0xB8
  | .nop => some 0xEA
  | .nopStar op o => if isUnofficialNop op o.mode nops then some op else none
  | .unimp op => if isUnimplemented op nops then some op else none

/-- The operand bytes of a form, the low byte of a 16-bit operand first (R66 to R69). -/
def operandBytes : Operand → List Byte
  | .imp | .acc => []
  | .imm b | .zp b | .zpx b | .zpy b | .indx b | .indy b | .rel b => [b]
  | .abs w | .absx w | .absy w | .ind w => [loByte w, hiByte w]

/-- The bytes of a well-formed instruction, byte 0 at its address (R63); no bytes for one that is not well formed. -/
def encode (i : Instr) (nops : UnofficialNops := defaultUnofficialNops) : List Byte :=
  match opcodeOf i nops with
  | some op => op :: operandBytes i.form
  | none => []

/-! ## The host's view of a table word -/

/-- Byte k of an nbits-bit number, byte 0 the lowest (the order in which the bytes are stored). -/
def tableByte (nbits w k : Nat) : Byte := BitVec.ofNat 8 ((w % 2 ^ nbits) / 2 ^ (8 * k))

/-- The instruction the decoder reads from the nbits-bit word w of the opcode table; every byte above nbits is 0. -/
def decodeTableWord (nbits w : Nat) : Option Instr :=
  match decodeBytes [tableByte nbits w 0, tableByte nbits w 1, tableByte nbits w 2] with
  | .ok (i, _) => some i
  | .error _ => none

end Sys2Proof
end

