-- ==== Sys2Proof/Machine/Cycles.lean ====
section
/-! DEFINITION. The default of the parameter `CYCLES(op, crossed, taken)`, the cost an instruction writes to CYC
(40_engine.md R85, 00_scope.md R8), from the costs of 70_reset_and_hazards.md R197 and R198. No register, flag or memory value depends on it (R86, R196). -/

namespace Sys2Proof.Machine

/-- Base costs of the reading instructions by mode (R197). The modes without a row belong to no reading instruction. -/
def readCycles : Mode → Nat
  | .imm => 2
  | .zp => 3
  | .zpx | .zpy => 4
  | .abs | .absx | .absy => 4
  | .indx => 6
  | .indy => 5
  | .imp | .acc | .ind | .rel => 0

/-- Base costs of STA, STX and STY by mode (R197). The modes without a row belong to no store. -/
def storeCycles : Mode → Nat
  | .zp => 3
  | .zpx | .zpy => 4
  | .abs => 4
  | .absx | .absy => 5
  | .indx | .indy => 6
  | .imp | .acc | .imm | .ind | .rel => 0

/-- Base costs of the read-modify-write instructions by mode (R197). The modes without a row belong to none of them. -/
def modifyCycles : Mode → Nat
  | .acc => 2
  | .zp => 5
  | .zpx => 6
  | .abs => 6
  | .absx => 7
  | .imp | .imm | .zpy | .absy | .indx | .indy | .ind | .rel => 0

/-- Costs of the unofficial NOPs by mode (R198). The modes without a row belong to none of them. -/
def nopStarCycles : Mode → Nat
  | .imp | .imm => 2
  | .zp => 3
  | .zpx => 4
  | .abs | .absx => 4
  | .acc | .zpy | .absy | .indx | .indy | .ind | .rel => 0

/-- `base(op)` (R85, R197, R198). An unimplemented byte has no cost (R198): its meaning never writes CYC. -/
def baseCycles : Instr → Nat
  | .adc o | .sbc o | .and o | .ora o | .eor o => readCycles o.mode
  | .asl o | .lsr o | .rol o | .ror o => modifyCycles o.mode
  | .cmp o | .cpx o | .cpy o => readCycles o.mode
  | .inc o | .dec o => modifyCycles o.mode
  | .inx | .iny | .dex | .dey => 2
  | .bcc _ | .bcs _ | .beq _ | .bne _ | .bmi _ | .bpl _ | .bvc _ | .bvs _ => 2
  | .jmpAbs _ => 3
  | .jmpInd _ => 5
  | .jsr _ => 6
  | .rts => 6
  | .lda o | .ldx o | .ldy o => readCycles o.mode
  | .sta o | .stx o | .sty o => storeCycles o.mode
  | .pha | .php => 3
  | .pla | .plp => 4
  | .tax | .tay | .txa | .tya | .tsx | .txs => 2
  | .bit o => readCycles o.mode
  | .brk => 7
  | .rti => 6
  | .clc | .sec | .cli | .sei | .cld | .sed | .clv | .nop => 2
  | .nopStar _ o => nopStarCycles o.mode
  | .unimp _ => 0

/-- The indexed modes whose sum with a 16-bit base may cross a page (R101). -/
def crossingMode : Mode → Bool
  | .absx | .absy | .indy => true
  | .imp | .acc | .imm | .zp | .zpx | .zpy | .abs | .indx | .ind | .rel => false

/-- `penalty(op)`: the reads and unofficial NOPs whose cost grows by 1 on a page cross; stores and read-modify-writes
have none (R85, R101, R197, R198). -/
def pageCrossPenalty : Instr → Bool
  | .adc o | .sbc o | .and o | .ora o | .eor o => crossingMode o.mode
  | .cmp o | .cpx o | .cpy o | .lda o | .ldx o | .ldy o | .bit o | .nopStar _ o => crossingMode o.mode
  | .asl _ | .lsr _ | .rol _ | .ror _ | .inc _ | .dec _ | .sta _ | .stx _ | .sty _ => false
  | .inx | .iny | .dex | .dey => false
  | .bcc _ | .bcs _ | .beq _ | .bne _ | .bmi _ | .bpl _ | .bvc _ | .bvs _ => false
  | .jmpAbs _ | .jmpInd _ | .jsr _ | .rts => false
  | .pha | .php | .pla | .plp | .tax | .tay | .txa | .tya | .tsx | .txs => false
  | .brk | .rti | .clc | .sec | .cli | .sei | .cld | .sed | .clv | .nop | .unimp _ => false

/-- The eight branches (R127). -/
def isBranch : Instr → Bool
  | .bcc _ | .bcs _ | .beq _ | .bne _ | .bmi _ | .bpl _ | .bvc _ | .bvs _ => true
  | .adc _ | .sbc _ | .and _ | .ora _ | .eor _ | .asl _ | .lsr _ | .rol _ | .ror _ => false
  | .cmp _ | .cpx _ | .cpy _ | .inc _ | .dec _ | .inx | .iny | .dex | .dey => false
  | .jmpAbs _ | .jmpInd _ | .jsr _ | .rts => false
  | .lda _ | .ldx _ | .ldy _ | .sta _ | .stx _ | .sty _ => false
  | .pha | .php | .pla | .plp | .tax | .tay | .txa | .tya | .tsx | .txs => false
  | .bit _ | .brk | .rti | .clc | .sec | .cli | .sei | .cld | .sed | .clv | .nop => false
  | .nopStar _ _ | .unimp _ => false

/-- The default of the parameter `CYCLES(op, crossed, taken)`, with `branch_crossed` as its last argument (R8, R85). -/
def defaultCycles (op : Byte) (crossed taken branchCrossed : Bool) : Byte :=
  BitVec.ofNat 8 (baseCycles (decodeOpcode op) + bitOf (pageCrossPenalty (decodeOpcode op) && crossed) +
    bitOf (isBranch (decodeOpcode op) && taken) + bitOf (isBranch (decodeOpcode op) && taken && branchCrossed))

/-- The cost of the optional interrupt entry (R183). -/
def interruptCycles : Nat := 7

end Sys2Proof.Machine
end

