-- ==== Sys2Proof/Machine/Memory.lean ====
section
/-! DEFINITION. The cells of memory and the memory map (20_memory.md R40 to R42). Memory is one list of (cell, byte)
pairs in canonical form: cells strictly rising, every cell a RAM or ROM cell, and no byte equal to what an unlisted cell
reads as. A cell is the number of the backing byte: 0 to $07FF for internal RAM, $8000 + i for `PRG_LO[i]`, $C000 + i
for `PRG_HI[i]` (log 15). -/

namespace Sys2Proof.Machine

/-! ## The memory map -/

/-- What `MEMORY_MAP` classifies an address into (R8, R40). The ranges are those of the default map. -/
inductive Region where
  /-- internal RAM (primary), $0000-$07FF -/
  | ram
  /-- the three RAM mirrors, $0800-$1FFF -/
  | ramMirror
  /-- the PPU register block, $2000-$2007 -/
  | ppu
  /-- $2008-$7FFF -/
  | unmapped
  /-- ROM bank one, $8000-$BFFF -/
  | romOne
  /-- ROM bank two, $C000-$FFFF -/
  | romTwo
  deriving DecidableEq, Repr

/-- The default of the parameter `MEMORY_MAP` (R8, R40): the region of each address. -/
def defaultMemoryMap (a : Word) : Region :=
  if a.toNat < 0x0800 then .ram
  else if a.toNat < 0x2000 then .ramMirror
  else if a.toNat < 0x2008 then .ppu
  else if a.toNat < 0x8000 then .unmapped
  else if a.toNat < 0xC000 then .romOne
  else .romTwo

/-- The RAM cell behind an address of RAM or one of its mirrors: `a & $07FF` (R41). -/
def ramCell (a : Word) : Nat := (a &&& 0x07FF).toNat

/-- The cell of ROM bank one behind an address: `PRG_LO[a & $3FFF]`, which is `PRG_LO[a - $8000]` in the default map
(R40). For another map the offset is the model's choice (log 18). -/
def romOneCell (a : Word) : Nat := 0x8000 + (a &&& 0x3FFF).toNat

/-- The cell of ROM bank two behind an address: `PRG_HI[a & $3FFF]`, which is `PRG_HI[a - $C000]` in the default map
(R40). For another map the offset is the model's choice (log 18). -/
def romTwoCell (a : Word) : Nat := 0xC000 + (a &&& 0x3FFF).toNat

/-- The backing cell of an address in a region, where the region has cells (R40). -/
def regionCell : Region → Word → Option Nat
  | .ram, a | .ramMirror, a => some (ramCell a)
  | .romOne, a => some (romOneCell a)
  | .romTwo, a => some (romTwoCell a)
  | .ppu, _ | .unmapped, _ => none

/-- The numbers that are cells: the 2048 RAM bytes and the two ROM banks (R40 to R42). -/
def isCell (k : Nat) : Bool := k < 0x0800 || (0x8000 ≤ k && k < 0x10000)

/-! ## The list of cells -/

/-- The bytes of RAM and ROM that differ from `blankByte`. -/
abbrev Memory := List Host.Cell

/-- What an unlisted cell reads as. DESIGN CHOICE: RAM at reset is a draw (R33), and ROM holds what the loader supplies
(R42); the model reads $00 (log 3, log 4). -/
def blankByte : Byte := 0x00

/-- The byte in a cell. -/
def readCell : Memory → Nat → Byte
  | [], _ => blankByte
  | (k', v) :: rest, k => if k' = k then v else readCell rest k

/-- Put a byte into a cell, keeping the canonical form. -/
def writeCell : Memory → Nat → Byte → Memory
  | [], k, v => if v = blankByte then [] else [(k, v)]
  | (k', v') :: rest, k, v =>
    if k < k' then (if v = blankByte then (k', v') :: rest else (k, v) :: (k', v') :: rest)
    else if k = k' then (if v = blankByte then rest else (k, v) :: rest)
    else (k', v') :: writeCell rest k v

/-- The canonical form of memory. -/
abbrev Memory.wf (m : Memory) : Prop :=
  m.Pairwise (fun c d => c.1 < d.1) ∧ ∀ c ∈ m, isCell c.1 = true ∧ c.2 ≠ blankByte

/-- Put a list of bytes into successive cells from `base` on. -/
def loadCells : Memory → Nat → List Byte → Memory
  | m, _, [] => m
  | m, base, v :: vs => loadCells (writeCell m base v) (base + 1) vs

end Sys2Proof.Machine
end

