-- ==== Sys2Proof/Machine/Params.lean ====
section
/-! DEFINITION. The parameters of 00_scope.md R8 that fix a hardware instance, and what the CORE reads from them. Every
definition of the machine that depends on a parameter takes `P : Params`; where none is given it is the default
instance, which is the one `exec` and `step` run (log 16). -/

namespace Sys2Proof.Machine

/-- A hardware instance (R8). They are no part of the state: a run never changes them (R192). -/
structure Params where
  /-- `MEMORY_MAP`: the classification of each address (R40) -/
  memoryMap         : Word → Region
  /-- `UNOFFICIAL_NOPS`: the unofficial NOP opcodes with their modes, which give their lengths (R72) -/
  unofficialNops    : UnofficialNops
  /-- `CYCLES(op, crossed, taken)`, with `branch_crossed` last; a byte, since it is written to CYC (R31, R85) -/
  cycles            : Byte → Bool → Bool → Bool → Byte
  /-- `HAS_INTERRUPT_LINES`: whether the optional inputs exist (R179, R182) -/
  hasInterruptLines : Bool

/-- The defaults of R8. -/
def Params.default : Params where
  memoryMap := defaultMemoryMap
  unofficialNops := defaultUnofficialNops
  cycles := defaultCycles
  hasInterruptLines := Config.hasInterruptLines

/-- Classify an address (R40). -/
def classify (a : Word) (P : Params := .default) : Region := P.memoryMap a

/-- The backing cell of an address, where the map gives it one (R40). -/
def cellOf (a : Word) (P : Params := .default) : Option Nat := regionCell (classify a P) a

/-- The opcode byte of an instruction, the argument of `CYCLES`; 0 for a term that is not well formed, which never gets
as far as its cost (log 10). -/
def opcodeByte (i : Instr) (P : Params := .default) : Byte := (opcodeOf i P.unofficialNops).getD 0

/-- `CYCLES` for an instruction that is no branch: `taken` and `branch_crossed` are false (R85). -/
def cycles (i : Instr) (crossed : Bool) (P : Params := .default) : Nat :=
  (P.cycles (opcodeByte i P) crossed false false).toNat

/-- `CYCLES` for a branch: `crossed` is false (R85). -/
def branchCycles (i : Instr) (taken branchCrossed : Bool) (P : Params := .default) : Nat :=
  (P.cycles (opcodeByte i P) false taken branchCrossed).toNat

end Sys2Proof.Machine
end

