-- ==== Sys2Proof/Machine/State.lean ====
section
/-! DEFINITION. The state of the CORE (10_state.md), its reset (70_reset_and_hazards.md R188, R189), and the reasons a
run call can end without a next state (60_exceptions.md R170). -/

namespace Sys2Proof.Machine

/-- The direction of a bus access (R47, R170). -/
inductive Direction where
  | read
  | write
  deriving DecidableEq, Repr

/-- One entry of the bus log: `(read|write, address, byte)` (R47). -/
structure BusAccess where
  dir  : Direction
  addr : Word
  byte : Byte
  deriving DecidableEq, Repr

/-- The five fault kinds with the information each carries (R170). -/
inductive FaultKind where
  | unmappedAccess (addr : Word) (dir : Direction)
  | romWrite (addr : Word) (v : Byte)
  | stackOverflow (s : Byte)
  | stackUnderflow (s : Byte)
  | unimplementedOpcode (op : Byte)
  deriving DecidableEq, Repr

/-- A fault record: the kind and `pc`, the opcode address of the instruction that faulted (R170). -/
structure FaultRecord where
  kind : FaultKind
  pc   : Word
  deriving DecidableEq, Repr

/-- The state of the CORE (R15 to R34). `irq` and `nmiEdge` are the optional inputs of R182; `ppuDraws` is the model's own
counter of PPU register reads (log 5). -/
structure State where
  /-- the accumulator A (R16) -/
  a        : Byte
  /-- the index register X (R17) -/
  x        : Byte
  /-- the index register Y (R18) -/
  y        : Byte
  /-- the status register P, bits N V U B D I Z C (R22) -/
  p        : Byte
  /-- the stack pointer S, an offset into $0100-$01FF (R20) -/
  sp       : Byte
  /-- the program counter PC (R21) -/
  pc       : Word
  /-- the cycle countdown CYC (R31) -/
  cyc      : Byte
  /-- FAULT (R32) -/
  fault    : Option FaultRecord
  /-- the bus log, oldest access first (R47) -/
  busLog   : List BusAccess
  /-- internal RAM and the two ROM banks (R41, R42) -/
  mem      : Memory
  /-- the optional IRQ level input (R182) -/
  irq      : Bool
  /-- the optional latched NMI edge (R182) -/
  nmiEdge  : Bool
  /-- the number of PPU register reads so far (the model's own, log 5) -/
  ppuDraws : Nat
  deriving DecidableEq, Repr

/-- The terminal faults (R169, R170). Each holds the state the fault leaves: FAULT set, the effects before the faulting
access kept (R177). Safe with respect to the spec, which stops the CORE there for good (log 7). -/
inductive Fault where
  /-- raised by `memRead` and `memWrite` at an unmapped address: fetches, pointer reads, data accesses (R171). Safe. -/
  | unmappedAccess (after : State)
  /-- raised by `memWrite` at a ROM address: stores and read-modify-writes (R172). Safe. -/
  | romWrite (after : State)
  /-- raised by `push` with S = $00: PHA, PHP, JSR, BRK and the optional interrupt entry (R173). Safe. -/
  | stackOverflow (after : State)
  /-- raised by `pull` with S = $FF: PLA, PLP, RTS, RTI (R174). Safe. -/
  | stackUnderflow (after : State)
  /-- raised by the meaning of an unimplemented opcode byte (R175). Safe. -/
  | unimplementedOpcode (after : State)
  deriving DecidableEq, Repr

/-- The refusals. -/
inductive Refusal where
  /-- an instruction without a meaning, by the table's mnemonic; raised by no arm of this model. Safe. -/
  | notModelled (mnemonic : String)
  /-- raised by `exec` for a term that is not well formed, which no bytes decode to, so no run call meets it
  (log 10). Safe. -/
  | illFormed
  deriving DecidableEq, Repr

/-- The outcome of an operation that answers a value of type α. -/
abbrev Result (α : Type) := Host.Outcome α Fault Refusal

/-! ## Reset -/

/-- What a launch supplies: `PRG_LO`, `PRG_HI` and the reset draws (R8, R189). A ROM bank is given as the list of its
bytes from its first address on, RAM as the list of its cells from $0000 on; bytes the lists do not give read $00, and
bytes past the end of the bank or of RAM are dropped (log 14). -/
structure Launch where
  prgLo : List Byte
  prgHi : List Byte
  ram   : List Byte
  a     : Byte
  x     : Byte
  y     : Byte
  p     : Byte
  deriving DecidableEq, Repr

/-- The memory of a launch: RAM draws and the two ROM banks (R189). -/
def Launch.memory (l : Launch) : Memory :=
  loadCells (loadCells (loadCells [] 0 (l.ram.take 2048)) 0x8000 (l.prgLo.take 16384)) 0xC000 (l.prgHi.take 16384)

/-- `Reset(PRG_LO, PRG_HI, draws)` (R189): C, Z, D, V, N are drawn, I, B and U are 1, and PC is the reset vector read
from ROM bank two without a bus access. -/
def Launch.reset (l : Launch) : State where
  a := l.a
  x := l.x
  y := l.y
  p := (l.p &&& 0xCB) ||| 0x34
  sp := 0xFD
  pc := w16 (readCell l.memory 0xFFFC) (readCell l.memory 0xFFFD)
  cyc := 0
  fault := none
  busLog := []
  mem := l.memory
  irq := false
  nmiEdge := false
  ppuDraws := 0

/-- The launch with nothing loaded and every draw 0 (DESIGN CHOICE, log 1 to log 4). -/
def Launch.blank : Launch where
  prgLo := []
  prgHi := []
  ram := []
  a := 0
  x := 0
  y := 0
  p := 0

/-- The machine right after reset with nothing loaded: S = $FD, P = $34, and PC = $0000, the vector in blank ROM (R33,
log 4). -/
def State.reset : State := Launch.blank.reset

end Sys2Proof.Machine
end

