-- ==== Sys2Proof/Machine/Ops.lean ====
section
/-! DEFINITION. The named operations every meaning is built from: the field updates, raising a fault, the bus
(20_memory.md R44, R45), the stack primitives (R50 to R53), entering an exception and returning from one
(49_misc.md R157, R158; 60_exceptions.md R183), and the writes of PC and CYC that end an instruction (R81, R85). What a
parameter of R8 can change takes the hardware instance `P` as its last argument, the default instance where none is
given. -/

namespace Sys2Proof.Machine

/-! ## Field updates -/

def State.setA (s : State) (v : Byte) : State := { s with a := v }
def State.setX (s : State) (v : Byte) : State := { s with x := v }
def State.setY (s : State) (v : Byte) : State := { s with y := v }
def State.setP (s : State) (v : Byte) : State := { s with p := v }
def State.setSp (s : State) (v : Byte) : State := { s with sp := v }
def State.setPc (s : State) (v : Word) : State := { s with pc := v }
def State.setCyc (s : State) (v : Byte) : State := { s with cyc := v }
def State.setFault (s : State) (f : FaultRecord) : State := { s with fault := some f }
def State.setMem (s : State) (m : Memory) : State := { s with mem := m }
def State.setNmiEdge (s : State) (b : Bool) : State := { s with nmiEdge := b }

/-- Append an access to the bus log (R44, R45, R47). -/
def State.logAccess (s : State) (d : Direction) (a : Word) (v : Byte) : State :=
  { s with busLog := s.busLog ++ [⟨d, a, v⟩] }

/-- Take the next `PPU_READ` draw (R43, R195). -/
def State.nextDraw (s : State) : State := { s with ppuDraws := s.ppuDraws + 1 }

/-! ## Sequencing and faults -/

/-- Run one operation and then another on what it answers; a fault or a refusal ends both (R82). -/
def andThen {α β : Type} (r : Result α) (k : α → Result β) : Result β :=
  match r with
  | .next v => k v
  | .fault f => .fault f
  | .refused q => .refused q

/-- The code of a fault kind (R170, D23). -/
def faultCode : FaultKind → Nat
  | .unmappedAccess _ _ => 1
  | .romWrite _ _ => 2
  | .stackOverflow _ => 3
  | .stackUnderflow _ => 4
  | .unimplementedOpcode _ => 5

/-- The outcome of each fault kind (R170). -/
def faultOf : FaultKind → State → Fault
  | .unmappedAccess _ _ => .unmappedAccess
  | .romWrite _ _ => .romWrite
  | .stackOverflow _ => .stackOverflow
  | .stackUnderflow _ => .stackUnderflow
  | .unimplementedOpcode _ => .unimplementedOpcode

/-- The state a fault leaves (R177). -/
def faultState : Fault → State
  | .unmappedAccess s => s
  | .romWrite s => s
  | .stackOverflow s => s
  | .stackUnderflow s => s
  | .unimplementedOpcode s => s

/-- `raise <Fault>(info)` (R12, R169): FAULT is set to the record with the address of the current instruction, which PC
holds until the instruction ends (R21); everything done before is kept (R177). -/
def raise {α : Type} (kind : FaultKind) (s : State) : Result α := .fault (faultOf kind (s.setFault ⟨kind, s.pc⟩))

/-! ## The bus -/

/-- `MemRead(a, 1)` (R44): RAM and ROM give their byte (R41, R42), a PPU register the next draw (R43), an unmapped address
the fault; the access is logged unless it faults (R171). -/
def memRead (a : Word) (s : State) (P : Params := .default) : Result (Byte × State) :=
  match classify a P with
  | .ram | .ramMirror => .next (readCell s.mem (ramCell a), s.logAccess .read a (readCell s.mem (ramCell a)))
  | .romOne => .next (readCell s.mem (romOneCell a), s.logAccess .read a (readCell s.mem (romOneCell a)))
  | .romTwo => .next (readCell s.mem (romTwoCell a), s.logAccess .read a (readCell s.mem (romTwoCell a)))
  | .ppu => .next (Config.ppuRead s.ppuDraws, (s.logAccess .read a (Config.ppuRead s.ppuDraws)).nextDraw)
  | .unmapped => raise (.unmappedAccess a .read) s

/-- `MemWrite(a, 1, v)` (R45): RAM stores the byte (R41), a PPU register takes it and changes nothing but the log (R43), a
ROM address and an unmapped one fault (R42, R172, R171). -/
def memWrite (a : Word) (v : Byte) (s : State) (P : Params := .default) : Result State :=
  match classify a P with
  | .ram | .ramMirror => .next ((s.logAccess .write a v).setMem (writeCell s.mem (ramCell a) v))
  | .ppu => .next (s.logAccess .write a v)
  | .romOne | .romTwo => raise (.romWrite a v) s
  | .unmapped => raise (.unmappedAccess a .write) s

/-- `MemRead(a, 2)` (R12, R38): little-endian, low byte first, the high byte at `(a + 1) mod 65536` (R39). -/
def memRead16 (a : Word) (s : State) (P : Params := .default) : Result (Word × State) :=
  andThen (memRead a s P) fun (lo, s) =>
  andThen (memRead (a + 1) s P) fun (hi, s) =>
  .next (w16 lo hi, s)

/-- `MemWrite(a, 2, w)`, the source's `write_address` (R38): low byte at a, high byte at a + 1. No instruction uses it. -/
def memWrite16 (a : Word) (w : Word) (s : State) (P : Params := .default) : Result State :=
  andThen (memWrite a (loByte w) s P) fun s =>
  memWrite (a + 1) (hiByte w) s P

/-! ## The stack (R49 to R53) -/

/-- The stack byte that S names: `$0100 + S` (R20, R49). -/
def stackAddress (sp : Byte) : Word := 0x0100 + zext16 sp

/-- `Push(v)` (R50). -/
def push (v : Byte) (s : State) (P : Params := .default) : Result State :=
  if s.sp = 0x00 then raise (.stackOverflow s.sp) s
  else andThen (memWrite (stackAddress s.sp) v s P) fun s => .next (s.setSp (s.sp - 1))

/-- `Pull()` (R51). -/
def pull (s : State) (P : Params := .default) : Result (Byte × State) :=
  if s.sp = 0xFF then raise (.stackUnderflow s.sp) s
  else memRead (stackAddress (s.sp + 1)) (s.setSp (s.sp + 1)) P

/-- `Push16(w)` (R52): high byte first. -/
def push16 (w : Word) (s : State) (P : Params := .default) : Result State :=
  andThen (push (hiByte w) s P) fun s =>
  push (loByte w) s P

/-- `Pull16()` (R53): low byte first. -/
def pull16 (s : State) (P : Params := .default) : Result (Word × State) :=
  andThen (pull s P) fun (lo, s) =>
  andThen (pull s P) fun (hi, s) =>
  .next (w16 lo hi, s)

/-! ## Exceptions -/

/-- The vectors (R56). -/
def nmiVector : Word := 0xFFFA
def resetVector : Word := 0xFFFC
def breakVector : Word := 0xFFFE

/-- Entering an exception, shared by BRK (R157) and the optional interrupts (R183): push the return address and a copy of
the status, set I, and continue at the address read from the vector. -/
def enterException (ret : Word) (status : Byte) (vector : Word) (s : State) (P : Params := .default) :
    Result State :=
  andThen (push16 ret s P) fun s =>
  andThen (push status s P) fun s =>
  andThen (memRead16 vector (s.setP (writeFlag s.p .I true)) P) fun (target, s) =>
  .next (s.setPc target)

/-- Returning from an exception (R158): P from the stack with bit 5 forced to 1, then PC, with no increment. -/
def returnFromException (s : State) (P : Params := .default) : Result State :=
  andThen (pull s P) fun (pulled, s) =>
  andThen (pull16 (s.setP (restoredStatus pulled)) P) fun (target, s) =>
  .next (s.setPc target)

/-! ## The end of an instruction -/

/-- Write CYC with a cost (R85). -/
def State.charge (s : State) (cost : Nat) : State := s.setCyc (BitVec.ofNat 8 cost)

/-- `PC <- (PC + len) mod 65536` and the countdown (R81, R85). -/
def State.advance (s : State) (i : Instr) (crossed : Bool) (P : Params := .default) : State :=
  (s.setPc (s.pc + BitVec.ofNat 16 (instrLength i))).charge (cycles i crossed P)

/-- `PC <- target` and the countdown, for a jump, call or return (R81, R85). -/
def State.jump (s : State) (i : Instr) (target : Word) (P : Params := .default) : State :=
  (s.setPc target).charge (cycles i false P)

/-- Run the meaning of an instruction term only where it is well formed (R71 to R73); no bytes decode to another (log 10). -/
def ifWellFormed {α : Type} (i : Instr) (r : Result α) (P : Params := .default) : Result α :=
  if i.wellFormed P.unofficialNops then r else .refused .illFormed

end Sys2Proof.Machine
end

