-- ==== Sys2Proof/Machine/Operands.lean ====
section
/-! DEFINITION. The addressing-mode resolver and the operand helpers (41_addressing_alu.md R87 to R102), and the four
shapes of instruction that use them. -/

namespace Sys2Proof.Machine

/-! ## Address arithmetic -/

/-- A zero-page address plus an index, wrapping within page zero (R92, R93). -/
def zeroPageIndexed (b i : Byte) : Word := zext16 (b + i)

/-- A 16-bit base plus an index, modulo 65536 (R95, R96, R98). -/
def indexedAddress (base : Word) (i : Byte) : Word := base + zext16 i

/-- Whether two addresses lie in different pages (R95, R100, R101). -/
def pagesDiffer (a b : Word) : Bool := hiByte a != hiByte b

/-- Where the high byte of an indirect jump's target is read: the next byte of the SAME page (R99). -/
def indirectHighAddress (ptr : Word) : Word := w16 (loByte ptr + 1) (hiByte ptr)

/-- `(PC + 2 + sext_16(b1)) mod 65536` (R100, R127). -/
def branchTarget (pc : Word) (d : Byte) : Word := pc + 2 + sext16 d

/-- `branch_crossed`: the target's page is not the page of `PC + 2` (R100, R127). -/
def branchCrosses (pc : Word) (d : Byte) : Bool := pagesDiffer (pc + 2) (branchTarget pc d)

/-! ## Pointer reads -/

/-- Read a pointer at z in page zero; its high byte wraps within page zero (R97, R98, D9). -/
def zeroPagePointer (z : Byte) (s : State) (P : Params := .default) : Result (Word × State) :=
  andThen (memRead (zext16 z) s P) fun (lo, s) =>
  andThen (memRead (zext16 (z + 1)) s P) fun (hi, s) =>
  .next (w16 lo hi, s)

/-- Read the target of an indirect jump (R99). -/
def indirectTarget (ptr : Word) (s : State) (P : Params := .default) : Result (Word × State) :=
  andThen (memRead ptr s P) fun (lo, s) =>
  andThen (memRead (indirectHighAddress ptr) s P) fun (hi, s) =>
  .next (w16 lo hi, s)

/-! ## The resolver -/

/-- What a mode resolves to (R87). -/
inductive Resolved where
  | nothing
  | accumulator
  | immediate (v : Byte)
  | address (ea : Word) (crossed : Bool)
  | jumpTarget (target : Word)
  | branchTarget (target : Word) (crossed : Bool)
  deriving DecidableEq, Repr

/-- `crossed`, false unless R95, R96 or R98 sets it (R87, R101). -/
def crossedOf : Resolved → Bool
  | .address _ crossed => crossed
  | .nothing | .accumulator | .immediate _ | .jumpTarget _ | .branchTarget _ _ => false

/-- `Resolve(mode, b1, b2)` (R87 to R100). Only INDX, INDY and IND read the bus; no mode writes a register. -/
def resolve (o : Operand) (s : State) (P : Params := .default) : Result (Resolved × State) :=
  match o with
  | .imp => .next (.nothing, s)
  | .acc => .next (.accumulator, s)
  | .imm v => .next (.immediate v, s)
  | .zp b => .next (.address (zext16 b) false, s)
  | .zpx b => .next (.address (zeroPageIndexed b s.x) false, s)
  | .zpy b => .next (.address (zeroPageIndexed b s.y) false, s)
  | .abs w => .next (.address w false, s)
  | .absx w => .next (.address (indexedAddress w s.x) (pagesDiffer w (indexedAddress w s.x)), s)
  | .absy w => .next (.address (indexedAddress w s.y) (pagesDiffer w (indexedAddress w s.y)), s)
  | .indx b =>
    andThen (zeroPagePointer (b + s.x) s P) fun (ea, s) =>
    .next (.address ea false, s)
  | .indy b =>
    andThen (zeroPagePointer b s P) fun (base, s) =>
    .next (.address (indexedAddress base s.y) (pagesDiffer base (indexedAddress base s.y)), s)
  | .ind w =>
    andThen (indirectTarget w s P) fun (target, s) =>
    .next (.jumpTarget target, s)
  | .rel d => .next (.branchTarget (branchTarget s.pc d) (branchCrosses s.pc d), s)

/-- `Operand()` (R102). The forms without an operand value belong to no reading instruction. -/
def readOperand (r : Resolved) (s : State) (P : Params := .default) : Result (Byte × State) :=
  match r with
  | .immediate v => .next (v, s)
  | .accumulator => .next (s.a, s)
  | .address ea _ => memRead ea s P
  | .nothing | .jumpTarget _ | .branchTarget _ _ => .refused .illFormed

/-- `StoreBack(v)` (R102); on an address form it is also a store's `MemWrite(EA, 1, v)`. The other forms belong to no
storing instruction. -/
def storeBack (r : Resolved) (v : Byte) (s : State) (P : Params := .default) : Result State :=
  match r with
  | .accumulator => .next (s.setA v)
  | .address ea _ => memWrite ea v s P
  | .nothing | .immediate _ | .jumpTarget _ | .branchTarget _ _ => .refused .illFormed

/-! ## Instruction shapes -/

/-- A reading instruction: one `Operand()`, a register and flag update from its value, then PC and CYC (R102). -/
def readInstr (i : Instr) (o : Operand) (update : Byte → State → State) (s : State) (P : Params := .default) : Result State :=
  ifWellFormed i (P := P) <|
  andThen (resolve o s P) fun (r, s) =>
  andThen (readOperand r s P) fun (m, s) =>
  .next ((update m s).advance i (crossedOf r) P)

/-- A read-modify-write instruction: one `Operand()`, the flags, one `StoreBack`, then PC and CYC (R102); the flags are
written before the store (R114 to R117, R121, R122), so a fault of the store keeps them (R177). -/
def modifyInstr (i : Instr) (o : Operand) (f : Byte → Byte → Byte × Byte) (s : State) (P : Params := .default) : Result State :=
  ifWellFormed i (P := P) <|
  andThen (resolve o s P) fun (r, s) =>
  andThen (readOperand r s P) fun (v, s) =>
  andThen (storeBack r (f s.p v).1 (s.setP (f s.p v).2) P) fun s =>
  .next (s.advance i (crossedOf r) P)

/-- A storing instruction: one `MemWrite(EA, 1, v)` without reading EA, then PC and CYC (R102). -/
def storeInstr (i : Instr) (o : Operand) (v : Byte) (s : State) (P : Params := .default) : Result State :=
  ifWellFormed i (P := P) <|
  andThen (resolve o s P) fun (r, s) =>
  andThen (storeBack r v s P) fun s =>
  .next (s.advance i (crossedOf r) P)

/-- A branch: PC and CYC alone (R127). DESIGN CHOICE (log 20): a branch that is not taken gives `CYCLES` the
`branch_crossed` false. R127 assigns it in the taken arm alone, while R100 computes it for every branch; the default
`CYCLES` does not read it there. -/
def branchInstr (i : Instr) (d : Byte) (cond : Bool) (s : State) (P : Params := .default) : Result State :=
  if cond then .next ((s.setPc (branchTarget s.pc d)).charge (branchCycles i true (branchCrosses s.pc d) P))
  else .next ((s.setPc (s.pc + 2)).charge (branchCycles i false false P))

end Sys2Proof.Machine
end

