-- ==== Sys2Proof/Machine/Fetch.lean ====
section
/-! DEFINITION. The instruction fetch (40_engine.md R78 to R80) and the sampling of the optional interrupt inputs
(60_exceptions.md R182 to R184), in a hardware instance (R8), the default one where none is given. -/

namespace Sys2Proof.Machine

/-- Fetch the operand bytes of the instruction whose opcode selected `d`: b1 at PC + 1 when the length is 2 or 3, then b2
at PC + 2 when it is 3 (R80). -/
def fetchOperands (d : Instr) (s : State) (P : Params := .default) : Result (Instr × State) :=
  if 2 ≤ instrLength d then
    andThen (memRead (s.pc + 1) s P) fun (b1, s) =>
    if instrLength d = 3 then
      andThen (memRead (s.pc + 2) s P) fun (b2, s) =>
      .next (fillInstr b1 b2 d, s)
    else .next (fillInstr b1 0 d, s)
  else .next (d, s)

/-- Fetch and decode the instruction at PC: the opcode byte (R78), its decoding (R79), its operand bytes (R80). PC is not
changed. -/
def fetch (s : State) (P : Params := .default) : Result (Instr × State) :=
  andThen (memRead s.pc s P) fun (op, s) =>
  fetchOperands (decodeOpcode op P.unofficialNops) s P

/-- The vector of the interrupt to take now, if any: NMI before IRQ, IRQ only while I is 0 (R182, R184). -/
def pendingVector (s : State) : Option Word :=
  if s.nmiEdge then some nmiVector
  else if s.irq && !testFlag s.p .I then some breakVector
  else none

/-- The state in which an interrupt is entered: a taken NMI edge is cleared, `irq` is the device's (R182, log 9). -/
def acknowledge (s : State) : State := if s.nmiEdge then s.setNmiEdge false else s

/-- The optional interrupt entry (R183): PC is the address of the instruction not yet executed, and the pushed copy of P
has B = 0. DESIGN CHOICE (log 19): where a push of the entry overflows, or in another instance its vector is not mapped,
the fault record carries PC, the address of that instruction. R170 asks for the opcode address of the instruction that
faulted, and here none was fetched. -/
def enterInterrupt (vector : Word) (s : State) (P : Params := .default) : Result State :=
  andThen (enterException s.pc (pushedStatusInterrupt s.p) vector (acknowledge s) P) fun s =>
  .next (s.charge interruptCycles)

end Sys2Proof.Machine
end

