-- ==== Sys2Proof/Machine/Harness.lean ====
section
/-! DEFINITION. What the outside does between run calls: the harness accessors of memory (20_memory.md R57), the host's
consumption of the bus log (R47), the optional interrupt inputs (60_exceptions.md R182), and the placing of an
instruction's bytes. No instruction uses them. Registers are read and written as the fields of State. -/

namespace Sys2Proof.Machine

/-- The byte behind an address, read without a bus access; none where the map has no cell (R57, R40). -/
def State.peek (s : State) (a : Word) (P : Params := .default) : Option Byte := (cellOf a P).map (readCell s.mem)

/-- Write the cell behind an address without a bus access (R57); an address without a cell changes nothing. -/
def State.poke (s : State) (a : Word) (v : Byte) (P : Params := .default) : State :=
  match cellOf a P with
  | some k => s.setMem (writeCell s.mem k v)
  | none => s

/-- One write of the harness accessors (R57): to a register or to a RAM cell. -/
inductive HarnessWrite where
  | a (v : Byte)
  | x (v : Byte)
  | y (v : Byte)
  | p (v : Byte)
  | sp (v : Byte)
  | pc (v : Word)
  | cyc (v : Byte)
  /-- the RAM cell behind an address; an address that is not RAM changes nothing -/
  | ram (addr : Word) (v : Byte)
  deriving DecidableEq, Repr

/-- Make one harness write (R57). -/
def State.harnessWrite (s : State) (w : HarnessWrite) (P : Params := .default) : State :=
  match w with
  | .a v => s.setA v
  | .x v => s.setX v
  | .y v => s.setY v
  | .p v => s.setP v
  | .sp v => s.setSp v
  | .pc v => s.setPc v
  | .cyc v => s.setCyc v
  | .ram addr v => if classify addr P = .ram ∨ classify addr P = .ramMirror then s.poke addr v P else s

/-- Make harness writes in order (R57). -/
def State.harnessWrites (s : State) (ws : List HarnessWrite) (P : Params := .default) : State :=
  ws.foldl (fun s w => s.harnessWrite w P) s

/-- The host takes the bus log after a run call (R47): what it took, and the state with an empty log. -/
def State.consumeBusLog (s : State) : List BusAccess × State := (s.busLog, { s with busLog := [] })

/-- The accesses of a log that the host hands to the PPU, those to $2000-$2007 (R43, R47). -/
def ppuAccesses (log : List BusAccess) (P : Params := .default) : List BusAccess :=
  log.filter fun e => classify e.addr P == .ppu

/-- The environment sets the optional IRQ level (R182). -/
def State.driveIrq (s : State) (level : Bool) : State := { s with irq := level }

/-- The environment latches a falling edge of NMI (R182). -/
def State.latchNmi (s : State) : State := s.setNmiEdge true

/-- Whether the three bytes from PC on have cells, so that an instruction can be placed there. -/
def storableAt (pc : Word) : Bool := (cellOf pc).isSome && (cellOf (pc + 1)).isSome && (cellOf (pc + 2)).isSome

/-- A state whose next run call fetches: FAULT none, CYC 0, no interrupt input asserted, and PC where bytes can be placed,
which is $0000 if they cannot be placed at PC (log 13). -/
def readyToFetch (s : State) : State :=
  { s with
    fault := none, cyc := 0, irq := false, nmiEdge := false, pc := if storableAt s.pc then s.pc else 0x0000 }

/-- Place three bytes at PC, PC + 1 and PC + 2. -/
def placeAtPc (s : State) (b0 b1 b2 : Byte) : State := ((s.poke s.pc b0).poke (s.pc + 1) b1).poke (s.pc + 2) b2

end Sys2Proof.Machine
end

