-- ==== Sys2Proof/Machine/ArithLogic.lean ====
section
/-! DEFINITION. Arithmetic and logical instructions (42_arith_logic.md). -/

namespace Sys2Proof.Machine

/-- A register update through the ALU: A and P get the result and the flags (R104). -/
def accumulate (kind : AluKind) (m : Byte) (s : State) : State :=
  (s.setA (alu kind s.p s.a m).1).setP (alu kind s.p s.a m).2

/-- ADC, add with carry; N, V, Z, C (R109). -/
def execAdc (o : Operand) (s : State) (P : Params := .default) : Result State :=
  readInstr (.adc o) o (accumulate .add) s P

/-- SBC, subtract with borrow; N, V, Z, C (R110). -/
def execSbc (o : Operand) (s : State) (P : Params := .default) : Result State :=
  readInstr (.sbc o) o (accumulate .subtract) s P

/-- AND, and; Z, N (R111). -/
def execAnd (o : Operand) (s : State) (P : Params := .default) : Result State :=
  readInstr (.and o) o (accumulate .and) s P

/-- ORA, or; Z, N (R112). -/
def execOra (o : Operand) (s : State) (P : Params := .default) : Result State :=
  readInstr (.ora o) o (accumulate .or) s P

/-- EOR, exclusive or; Z, N (R113). -/
def execEor (o : Operand) (s : State) (P : Params := .default) : Result State :=
  readInstr (.eor o) o (accumulate .eor) s P

end Sys2Proof.Machine
end

