-- ==== Sys2Proof/Machine/Branch.lean ====
section
/-! DEFINITION. Conditional branches (45_branch.md): `Branch(cond)` of R127 is `branchInstr`. -/

namespace Sys2Proof.Machine

/-- BCC, branch if C is 0 (R128). -/
def execBcc (d : Byte) (s : State) (P : Params := .default) : Result State :=
  branchInstr (.bcc d) d (!testFlag s.p .C) s P

/-- BCS, branch if C is 1 (R129). -/
def execBcs (d : Byte) (s : State) (P : Params := .default) : Result State :=
  branchInstr (.bcs d) d (testFlag s.p .C) s P

/-- BEQ, branch if Z is 1 (R130). -/
def execBeq (d : Byte) (s : State) (P : Params := .default) : Result State :=
  branchInstr (.beq d) d (testFlag s.p .Z) s P

/-- BNE, branch if Z is 0 (R131). -/
def execBne (d : Byte) (s : State) (P : Params := .default) : Result State :=
  branchInstr (.bne d) d (!testFlag s.p .Z) s P

/-- BMI, branch if N is 1 (R132). -/
def execBmi (d : Byte) (s : State) (P : Params := .default) : Result State :=
  branchInstr (.bmi d) d (testFlag s.p .N) s P

/-- BPL, branch if N is 0 (R133). -/
def execBpl (d : Byte) (s : State) (P : Params := .default) : Result State :=
  branchInstr (.bpl d) d (!testFlag s.p .N) s P

/-- BVC, branch if V is 0 (R134). -/
def execBvc (d : Byte) (s : State) (P : Params := .default) : Result State :=
  branchInstr (.bvc d) d (!testFlag s.p .V) s P

/-- BVS, branch if V is 1 (R135). -/
def execBvs (d : Byte) (s : State) (P : Params := .default) : Result State :=
  branchInstr (.bvs d) d (testFlag s.p .V) s P

end Sys2Proof.Machine
end

