-- ==== Sys2Proof/Machine/CompareIncDec.lean ====
section
/-! DEFINITION. Compare, increment and decrement instructions (44_compare_incdec.md). -/

namespace Sys2Proof.Machine

/-- Only the flags of comparing a register's value with the operand (R118); no register is written. -/
def compareWith (reg m : Byte) (s : State) : State := s.setP (compareFlags s.p reg m)

/-- CMP, compare with A; N, Z, C (R118). -/
def execCmp (o : Operand) (s : State) (P : Params := .default) : Result State :=
  readInstr (.cmp o) o (compareWith s.a) s P

/-- CPX, compare with X; N, Z, C (R119). -/
def execCpx (o : Operand) (s : State) (P : Params := .default) : Result State :=
  readInstr (.cpx o) o (compareWith s.x) s P

/-- CPY, compare with Y; N, Z, C (R120). -/
def execCpy (o : Operand) (s : State) (P : Params := .default) : Result State :=
  readInstr (.cpy o) o (compareWith s.y) s P

/-- INC, increment memory; Z, N (R121). -/
def execInc (o : Operand) (s : State) (P : Params := .default) : Result State :=
  modifyInstr (.inc o) o incrementByte s P

/-- DEC, decrement memory; Z, N (R122). -/
def execDec (o : Operand) (s : State) (P : Params := .default) : Result State :=
  modifyInstr (.dec o) o decrementByte s P

/-- INX, increment X; Z, N (R123). -/
def execInx (s : State) (P : Params := .default) : Result State :=
  .next (((s.setX (incrementByte s.p s.x).1).setP (incrementByte s.p s.x).2).advance .inx false P)

/-- INY, increment Y; Z, N (R124). -/
def execIny (s : State) (P : Params := .default) : Result State :=
  .next (((s.setY (incrementByte s.p s.y).1).setP (incrementByte s.p s.y).2).advance .iny false P)

/-- DEX, decrement X; Z, N (R125). -/
def execDex (s : State) (P : Params := .default) : Result State :=
  .next (((s.setX (decrementByte s.p s.x).1).setP (decrementByte s.p s.x).2).advance .dex false P)

/-- DEY, decrement Y; Z, N (R126). -/
def execDey (s : State) (P : Params := .default) : Result State :=
  .next (((s.setY (decrementByte s.p s.y).1).setP (decrementByte s.p s.y).2).advance .dey false P)

end Sys2Proof.Machine
end

