-- ==== Sys2Proof/Machine/Jump.lean ====
section
/-! DEFINITION. Jumps and subroutine calls (46_jump_subroutine.md). No flag is written. -/

namespace Sys2Proof.Machine

/-- JMP absolute (R136). -/
def execJmpAbs (target : Word) (s : State) (P : Params := .default) : Result State :=
  .next (s.jump (.jmpAbs target) target P)

/-- JMP indirect, with the pointer that wraps within its page (R137, R99). -/
def execJmpInd (ptr : Word) (s : State) (P : Params := .default) : Result State :=
  andThen (indirectTarget ptr s P) fun (target, s) =>
  .next (s.jump (.jmpInd ptr) target P)

/-- JSR: push the address of its last byte and jump (R138). -/
def execJsr (target : Word) (s : State) (P : Params := .default) : Result State :=
  andThen (push16 (s.pc + 2) s P) fun s =>
  .next (s.jump (.jsr target) target P)

/-- RTS: pull the return address and continue after it (R139). -/
def execRts (s : State) (P : Params := .default) : Result State :=
  andThen (pull16 s P) fun (ret, s) =>
  .next (s.jump .rts (ret + 1) P)

end Sys2Proof.Machine
end

