-- ==== Sys2Proof/Machine/LoadStore.lean ====
section
/-! DEFINITION. Loads and stores (47_load_store.md). -/

namespace Sys2Proof.Machine

/-- A load's update: A and SetZN (R140). -/
def loadA (m : Byte) (s : State) : State := (s.setA m).setP (setZN s.p m)

/-- LDA, load A; Z, N (R140). -/
def execLda (o : Operand) (s : State) (P : Params := .default) : Result State := readInstr (.lda o) o loadA s P

/-- A load's update: X and SetZN (R141). -/
def loadX (m : Byte) (s : State) : State := (s.setX m).setP (setZN s.p m)

/-- LDX, load X; Z, N (R141). -/
def execLdx (o : Operand) (s : State) (P : Params := .default) : Result State := readInstr (.ldx o) o loadX s P

/-- A load's update: Y and SetZN (R142). -/
def loadY (m : Byte) (s : State) : State := (s.setY m).setP (setZN s.p m)

/-- LDY, load Y; Z, N (R142). -/
def execLdy (o : Operand) (s : State) (P : Params := .default) : Result State := readInstr (.ldy o) o loadY s P

/-- STA, store A; no flag, and EA is not read (R143). -/
def execSta (o : Operand) (s : State) (P : Params := .default) : Result State := storeInstr (.sta o) o s.a s P

/-- STX, store X; no flag, and EA is not read (R144). -/
def execStx (o : Operand) (s : State) (P : Params := .default) : Result State := storeInstr (.stx o) o s.x s P

/-- STY, store Y; no flag, and EA is not read (R145). -/
def execSty (o : Operand) (s : State) (P : Params := .default) : Result State := storeInstr (.sty o) o s.y s P

end Sys2Proof.Machine
end

