-- ==== Sys2Proof/Machine/Misc.lean ====
section
/-! DEFINITION. Bit test, break, return from interrupt, flag instructions, NOPs and unimplemented bytes (49_misc.md). -/

namespace Sys2Proof.Machine

/-- BIT; Z from A & M, N and V from M (R156). -/
def execBit (o : Operand) (s : State) (P : Params := .default) : Result State :=
  readInstr (.bit o) o (fun m s => s.setP (bitTestFlags s.p s.a m)) s P

/-- BRK: enter the exception at the vector $FFFE with return address PC + 2 and the pushed copy of P (R157, R178). -/
def execBrk (s : State) (P : Params := .default) : Result State :=
  andThen (enterException (s.pc + 2) (pushedStatus s.p) breakVector s P) fun s =>
  .next (s.charge (cycles .brk false P))

/-- RTI: return from the exception (R158). -/
def execRti (s : State) (P : Params := .default) : Result State :=
  andThen (returnFromException s P) fun s =>
  .next (s.charge (cycles .rti false P))

/-- CLC: C is 0 (R159). -/
def execClc (s : State) (P : Params := .default) : Result State :=
  .next ((s.setP (writeFlag s.p .C false)).advance .clc false P)

/-- SEC: C is 1 (R160). -/
def execSec (s : State) (P : Params := .default) : Result State :=
  .next ((s.setP (writeFlag s.p .C true)).advance .sec false P)

/-- CLI: I is 0 (R161). -/
def execCli (s : State) (P : Params := .default) : Result State :=
  .next ((s.setP (writeFlag s.p .I false)).advance .cli false P)

/-- SEI: I is 1 (R162). -/
def execSei (s : State) (P : Params := .default) : Result State :=
  .next ((s.setP (writeFlag s.p .I true)).advance .sei false P)

/-- CLD: D is 0 (R163). -/
def execCld (s : State) (P : Params := .default) : Result State :=
  .next ((s.setP (writeFlag s.p .D false)).advance .cld false P)

/-- SED: D is 1 (R164). -/
def execSed (s : State) (P : Params := .default) : Result State :=
  .next ((s.setP (writeFlag s.p .D true)).advance .sed false P)

/-- CLV: V is 0 (R165). -/
def execClv (s : State) (P : Params := .default) : Result State :=
  .next ((s.setP (writeFlag s.p .V false)).advance .clv false P)

/-- NOP (R166). -/
def execNop (s : State) (P : Params := .default) : Result State := .next (s.advance .nop false P)

/-- Whether the ignored operand of an unofficial NOP would cross a page, for its cost alone (R167: `crossed` computed as
for R95, R101). No access is made. The default set has no ABSY form; another instance may (R96), and one with an INDY form,
whose pointer is not read, counts no cross (log 18). -/
def nopStarCrosses (o : Operand) (s : State) : Bool :=
  match o with
  | .absx w => pagesDiffer w (indexedAddress w s.x)
  | .absy w => pagesDiffer w (indexedAddress w s.y)
  | .imp | .acc | .imm _ | .zp _ | .zpx _ | .zpy _ | .abs _ | .indx _ | .indy _ | .ind _ | .rel _ => false

/-- An unofficial NOP: its bytes are fetched and ignored (R167). -/
def execNopStar (op : Byte) (o : Operand) (s : State) (P : Params := .default) : Result State :=
  ifWellFormed (.nopStar op o) (P := P) (.next (s.advance (.nopStar op o) (nopStarCrosses o s) P))

/-- An unimplemented opcode byte: the terminal fault, with nothing but the opcode fetch done (R168, R175). -/
def execUnimp (op : Byte) (s : State) (P : Params := .default) : Result State :=
  ifWellFormed (.unimp op) (P := P) (raise (.unimplementedOpcode op) s)

end Sys2Proof.Machine
end

