-- ==== Sys2Proof/Machine/ShiftRotate.lean ====
section
/-! DEFINITION. Shift and rotate instructions, accumulator and memory forms (43_shift_rotate.md). -/

namespace Sys2Proof.Machine

/-- ASL, shift left; C, Z, N (R114). -/
def execAsl (o : Operand) (s : State) (P : Params := .default) : Result State := modifyInstr (.asl o) o shiftLeft s P

/-- LSR, logical shift right; C, Z, N (R115). -/
def execLsr (o : Operand) (s : State) (P : Params := .default) : Result State := modifyInstr (.lsr o) o shiftRight s P

/-- ROL, rotate left through carry; C, Z, N (R116). -/
def execRol (o : Operand) (s : State) (P : Params := .default) : Result State := modifyInstr (.rol o) o rotateLeft s P

/-- ROR, rotate right through carry; C, Z, N (R117). -/
def execRor (o : Operand) (s : State) (P : Params := .default) : Result State := modifyInstr (.ror o) o rotateRight s P

end Sys2Proof.Machine
end

