-- ==== Sys2Proof/Machine/StackTransfer.lean ====
section
/-! DEFINITION. Stack push and pull, and register transfers (48_stack_transfer.md). -/

namespace Sys2Proof.Machine

/-- PHA, push A (R146). -/
def execPha (s : State) (P : Params := .default) : Result State :=
  andThen (push s.a s P) fun s =>
  .next (s.advance .pha false P)

/-- PHP, push P with bits 4 and 5 set in the copy (R147). -/
def execPhp (s : State) (P : Params := .default) : Result State :=
  andThen (push (pushedStatus s.p) s P) fun s =>
  .next (s.advance .php false P)

/-- PLA, pull A; Z, N (R148). -/
def execPla (s : State) (P : Params := .default) : Result State :=
  andThen (pull s P) fun (v, s) =>
  .next (((s.setA v).setP (setZN s.p v)).advance .pla false P)

/-- PLP, pull all eight bits of P (R149). -/
def execPlp (s : State) (P : Params := .default) : Result State :=
  andThen (pull s P) fun (v, s) =>
  .next ((s.setP v).advance .plp false P)

/-- TAX, transfer A to X; Z, N (R150). -/
def execTax (s : State) (P : Params := .default) : Result State :=
  .next (((s.setX s.a).setP (setZN s.p s.a)).advance .tax false P)

/-- TAY, transfer A to Y; Z, N (R151). -/
def execTay (s : State) (P : Params := .default) : Result State :=
  .next (((s.setY s.a).setP (setZN s.p s.a)).advance .tay false P)

/-- TXA, transfer X to A; Z, N (R152). -/
def execTxa (s : State) (P : Params := .default) : Result State :=
  .next (((s.setA s.x).setP (setZN s.p s.x)).advance .txa false P)

/-- TYA, transfer Y to A; Z, N (R153). -/
def execTya (s : State) (P : Params := .default) : Result State :=
  .next (((s.setA s.y).setP (setZN s.p s.y)).advance .tya false P)

/-- TSX, transfer S to X; Z, N (R154). -/
def execTsx (s : State) (P : Params := .default) : Result State :=
  .next (((s.setX s.sp).setP (setZN s.p s.sp)).advance .tsx false P)

/-- TXS, transfer X to S; no flag, any value (R155). -/
def execTxs (s : State) (P : Params := .default) : Result State := .next ((s.setSp s.x).advance .txs false P)

end Sys2Proof.Machine
end

