-- ==== Sys2Proof/Machine/Instance.lean ====
section
/-! DEFINITION. The dispatch of an instruction to its meaning in any hardware instance (00_scope.md R8): the same
meanings as `exec`, with the instance `P` as their argument. `exec` is its default instance (`execWith_default`). -/

namespace Sys2Proof.Machine

/-- Execute an instruction in the hardware instance P (R8, R81). -/
def execWith (i : Instr) (s : State) (P : Params) : Host.Outcome State Fault Refusal :=
  match i with
  | .adc o => Sys2Proof.Machine.execAdc o s P
  | .sbc o => Sys2Proof.Machine.execSbc o s P
  | .and o => Sys2Proof.Machine.execAnd o s P
  | .ora o => Sys2Proof.Machine.execOra o s P
  | .eor o => Sys2Proof.Machine.execEor o s P
  | .asl o => Sys2Proof.Machine.execAsl o s P
  | .lsr o => Sys2Proof.Machine.execLsr o s P
  | .rol o => Sys2Proof.Machine.execRol o s P
  | .ror o => Sys2Proof.Machine.execRor o s P
  | .cmp o => Sys2Proof.Machine.execCmp o s P
  | .cpx o => Sys2Proof.Machine.execCpx o s P
  | .cpy o => Sys2Proof.Machine.execCpy o s P
  | .inc o => Sys2Proof.Machine.execInc o s P
  | .dec o => Sys2Proof.Machine.execDec o s P
  | .inx => Sys2Proof.Machine.execInx s P
  | .iny => Sys2Proof.Machine.execIny s P
  | .dex => Sys2Proof.Machine.execDex s P
  | .dey => Sys2Proof.Machine.execDey s P
  | .bcc d => Sys2Proof.Machine.execBcc d s P
  | .bcs d => Sys2Proof.Machine.execBcs d s P
  | .beq d => Sys2Proof.Machine.execBeq d s P
  | .bne d => Sys2Proof.Machine.execBne d s P
  | .bmi d => Sys2Proof.Machine.execBmi d s P
  | .bpl d => Sys2Proof.Machine.execBpl d s P
  | .bvc d => Sys2Proof.Machine.execBvc d s P
  | .bvs d => Sys2Proof.Machine.execBvs d s P
  | .jmpAbs target => Sys2Proof.Machine.execJmpAbs target s P
  | .jmpInd ptr => Sys2Proof.Machine.execJmpInd ptr s P
  | .jsr target => Sys2Proof.Machine.execJsr target s P
  | .rts => Sys2Proof.Machine.execRts s P
  | .lda o => Sys2Proof.Machine.execLda o s P
  | .ldx o => Sys2Proof.Machine.execLdx o s P
  | .ldy o => Sys2Proof.Machine.execLdy o s P
  | .sta o => Sys2Proof.Machine.execSta o s P
  | .stx o => Sys2Proof.Machine.execStx o s P
  | .sty o => Sys2Proof.Machine.execSty o s P
  | .pha => Sys2Proof.Machine.execPha s P
  | .php => Sys2Proof.Machine.execPhp s P
  | .pla => Sys2Proof.Machine.execPla s P
  | .plp => Sys2Proof.Machine.execPlp s P
  | .tax => Sys2Proof.Machine.execTax s P
  | .tay => Sys2Proof.Machine.execTay s P
  | .txa => Sys2Proof.Machine.execTxa s P
  | .tya => Sys2Proof.Machine.execTya s P
  | .tsx => Sys2Proof.Machine.execTsx s P
  | .txs => Sys2Proof.Machine.execTxs s P
  | .bit o => Sys2Proof.Machine.execBit o s P
  | .brk => Sys2Proof.Machine.execBrk s P
  | .rti => Sys2Proof.Machine.execRti s P
  | .clc => Sys2Proof.Machine.execClc s P
  | .sec => Sys2Proof.Machine.execSec s P
  | .cli => Sys2Proof.Machine.execCli s P
  | .sei => Sys2Proof.Machine.execSei s P
  | .cld => Sys2Proof.Machine.execCld s P
  | .sed => Sys2Proof.Machine.execSed s P
  | .clv => Sys2Proof.Machine.execClv s P
  | .nop => Sys2Proof.Machine.execNop s P
  | .nopStar op o => Sys2Proof.Machine.execNopStar op o s P
  | .unimp op => Sys2Proof.Machine.execUnimp op s P

/-- `exec` is the default instance. -/
theorem execWith_default (i : Instr) (s : State) : execWith i s .default = exec i s := by cases i <;> rfl

end Sys2Proof.Machine
end

