-- ==== Sys2Proof/Machine/Step.lean ====
section
/-! DEFINITION. The run call (40_engine.md R77), in any hardware instance and in the default one. -/

namespace Sys2Proof.Machine

/-- Fetch the instruction at PC and execute it by `run` (R77 to R81). -/
def runInstruction (run : Instr → State → Host.Outcome State Fault Refusal) (s : State) (P : Params := .default) :
    Host.Outcome State Fault Refusal :=
  andThen (fetch s P) fun (i, s) => run i s

/-- One run call (R77). A faulted CORE does nothing (R169), a positive countdown is decremented and nothing else (R77,
R85), and otherwise the CORE takes a pending interrupt where the instance has interrupt inputs (R179, R182), or else
fetches the instruction at PC and executes it by `run`. -/
def runCall (run : Instr → State → Host.Outcome State Fault Refusal) (s : State) (P : Params := .default) :
    Host.Outcome State Fault Refusal :=
  if s.fault.isSome then .next s
  else if s.cyc ≠ 0 then .next (s.setCyc (s.cyc - 1))
  else
    match (if P.hasInterruptLines then pendingVector s else none) with
    | some vector => enterInterrupt vector s P
    | none => runInstruction run s P

/-- The run call of the hardware instance P (R8, R77). -/
def stepWith (P : Params) (s : State) : Host.Outcome State Fault Refusal := runCall (fun i s => execWith i s P) s P

/-- The run call of the default CORE (R8, R77, R83, R179), the default instance of `stepWith` (`stepWith_default`). -/
def step (s : State) : Host.Outcome State Fault Refusal := runCall exec s

/-- `step` is the default instance. -/
theorem stepWith_default (s : State) : stepWith .default s = step s := by
  simp only [stepWith, step, execWith_default]

/-- s with an instruction of the opcode table stored where the next run call fetches, every byte above nbits 0. -/
def State.withFetchWord (s : State) (nbits w : Nat) : State :=
  placeAtPc (readyToFetch s) (tableByte nbits w 0) (tableByte nbits w 1) (tableByte nbits w 2)

end Sys2Proof.Machine
end

