-- ==== Sys2Proof/Machine/Run.lean ====
section
/-! DEFINITION. Successive run calls (40_engine.md R77, R83) in any hardware instance (00_scope.md R8). -/

namespace Sys2Proof.Machine

/-- k run calls of the instance P with nothing done between them, stopping at the first fault (R77, R169). -/
def runCalls (P : Params) : Nat → State → Host.Outcome State Fault Refusal
  | 0, s => .next s
  | k + 1, s => andThen (stepWith P s) (runCalls P k)

/-- In the default instance they are the host's run of the CORE. -/
theorem runCalls_default (k : Nat) (s : State) : runCalls .default k s = Host.Core.run core k s := by
  induction k generalizing s with
  | zero => rfl
  | succ k ih =>
    rw [runCalls, stepWith_default]
    simp only [Host.Core.run, core]
    cases step s with
    | next t => exact ih t
    | fault f => rfl
    | refused q => rfl

end Sys2Proof.Machine
end

