-- ==== Sys2Proof/Safety.lean ====
section
/-! DEFINITION. The terms claims are stated in: what a bus access gives and leaves, when an operand can be read or
written, the invariant of the machine, the end of a run (70_reset_and_hazards.md R199) and the clean launch (R192). What
is said of one bus access takes the hardware instance `P` (R8) as its last argument, the default one where none is
given; the rest is said of the default instance. -/

namespace Sys2Proof.Machine

/-! ## Bus accesses as functions of the state -/

/-- The address is in a region of the map (R40): a read of it does not fault (R44). -/
abbrev Mapped (a : Word) (P : Params := .default) : Prop := classify a P ≠ .unmapped

/-- The address is in RAM, a RAM mirror or the PPU block (R40): a write to it does not fault (R45). -/
abbrev Writable (a : Word) (P : Params := .default) : Prop :=
  classify a P = .ram ∨ classify a P = .ramMirror ∨ classify a P = .ppu

/-- The address is in a ROM bank (R40). -/
abbrev InRom (a : Word) (P : Params := .default) : Prop := classify a P = .romOne ∨ classify a P = .romTwo

/-- The byte a read of a mapped address gives: its cell's byte, or the next `PPU_READ` draw where it has no cell
(R41 to R43). -/
def byteAt (s : State) (a : Word) (P : Params := .default) : Byte :=
  match s.peek a P with
  | some v => v
  | none => Config.ppuRead s.ppuDraws

/-- The state after a read of a mapped address: the access is logged, and a PPU register takes a draw (R43, R44). -/
def afterRead (s : State) (a : Word) (P : Params := .default) : State :=
  match classify a P with
  | .ppu => (s.logAccess .read a (byteAt s a P)).nextDraw
  | .ram | .ramMirror | .romOne | .romTwo | .unmapped => s.logAccess .read a (byteAt s a P)

/-- The state after a write of v to a writable address: the access is logged, and RAM holds the byte (R45). -/
def afterWrite (s : State) (a : Word) (v : Byte) (P : Params := .default) : State := (s.logAccess .write a v).poke a v P

/-! ## The stack as functions of the state -/

/-- The stack byte that a stack pointer value names (R20). -/
def stackByte (sp : Byte) : Word := 0x0100 + zext16 sp

/-- The state after a push that does not fault: the byte at `$0100 + S`, then S decremented (R50). -/
def pushed (v : Byte) (s : State) : State := { afterWrite s (stackByte s.sp) v with sp := s.sp - 1 }

/-- The state after a pull that does not fault: S incremented, then the byte at `$0100 + S` read (R51). -/
def pulled (s : State) : State := afterRead { s with sp := s.sp + 1 } (stackByte (s.sp + 1))

/-- The byte such a pull gives (R51). -/
def pulledByte (s : State) : Byte := byteAt s (stackByte (s.sp + 1))

/-! ## Operands as functions of the state -/

/-- The pointer in page zero at z, its high byte at `(z + 1) mod 256` (R97, R98). -/
def pointerAt (s : State) (z : Byte) : Word :=
  w16 (readCell s.mem (ramCell (zext16 z))) (readCell s.mem (ramCell (zext16 (z + 1))))

/-- The effective address of an address form (R91 to R98); 0 for the forms that have none. -/
def effectiveAddress (o : Operand) (s : State) : Word :=
  match o with
  | .zp b => zext16 b
  | .zpx b => zext16 (b + s.x)
  | .zpy b => zext16 (b + s.y)
  | .abs w => w
  | .absx w => w + zext16 s.x
  | .absy w => w + zext16 s.y
  | .indx b => pointerAt s (b + s.x)
  | .indy b => pointerAt s b + zext16 s.y
  | .imp | .acc | .imm _ | .ind _ | .rel _ => 0

/-- Whether the form adds an index to a 16-bit base and lands in another page (R95, R96, R98, R101). -/
def addressCrosses (o : Operand) (s : State) : Bool :=
  match o with
  | .absx w => hiByte w != hiByte (w + zext16 s.x)
  | .absy w => hiByte w != hiByte (w + zext16 s.y)
  | .indy b => hiByte (pointerAt s b) != hiByte (pointerAt s b + zext16 s.y)
  | .imp | .acc | .imm _ | .zp _ | .zpx _ | .zpy _ | .abs _ | .indx _ | .ind _ | .rel _ => false

/-- The form resolves to an effective address (R87). -/
def isAddressForm : Operand → Bool
  | .zp _ | .zpx _ | .zpy _ | .abs _ | .absx _ | .absy _ | .indx _ | .indy _ => true
  | .imp | .acc | .imm _ | .ind _ | .rel _ => false

/-- The state after the pointer reads of the form: INDX and INDY read two bytes in page zero (R87, R97, R98). -/
def afterPointer (o : Operand) (s : State) : State :=
  match o with
  | .indx b => afterRead (afterRead s (zext16 (b + s.x))) (zext16 (b + s.x + 1))
  | .indy b => afterRead (afterRead s (zext16 b)) (zext16 (b + 1))
  | .imp | .acc | .imm _ | .zp _ | .zpx _ | .zpy _ | .abs _ | .absx _ | .absy _ | .ind _ | .rel _ => s

/-- The operand can be read: an address form has a mapped effective address (R44); IMM and ACC always can. -/
def Readable (o : Operand) (s : State) : Prop := isAddressForm o = true → Mapped (effectiveAddress o s)

/-- The value of a readable operand (R102). -/
def operandValue (o : Operand) (s : State) : Byte :=
  match o with
  | .imm v => v
  | .acc => s.a
  | .zp _ | .zpx _ | .zpy _ | .abs _ | .absx _ | .absy _ | .indx _ | .indy _ =>
    byteAt (afterPointer o s) (effectiveAddress o s)
  | .imp | .ind _ | .rel _ => 0

/-- The state after a readable operand is read: the pointer reads, then one read at the effective address (R102). -/
def afterOperand (o : Operand) (s : State) : State :=
  if isAddressForm o then afterRead (afterPointer o s) (effectiveAddress o s) else s

/-- PC and CYC as an instruction that falls through leaves them (R81, R85). -/
def fallsThrough (i : Instr) (crossed : Bool) (s : State) : State :=
  { s with pc := s.pc + BitVec.ofNat 16 (instrLength i), cyc := BitVec.ofNat 8 (cycles i crossed) }

/-! ## The invariant -/

/-- A bus log as the CORE can write it: reads at mapped addresses, writes at writable ones (R44, R45). -/
def LogLegal (log : List BusAccess) : Prop :=
  ∀ e ∈ log, (e.dir = .read → Mapped e.addr) ∧ (e.dir = .write → Writable e.addr)

/-- What every run call keeps: memory in its canonical form, CYC at most 7 (R85), a legal bus log, and a fault record that
names the instruction PC still points at, with CYC 0 (R170, R177). -/
structure Inv (s : State) : Prop where
  memory : Memory.wf s.mem
  countdown : s.cyc.toNat ≤ 7
  log : LogLegal s.busLog
  faulted : ∀ r, s.fault = some r → r.pc = s.pc ∧ s.cyc = 0

/-! ## Runs -/

/-- A run call that ends in no fault (R169). -/
def SafeStep (s : State) : Prop := ∀ f, step s ≠ .fault f

/-- A launch state (R192): the result of Reset, or of harness writes made from it (R57). Its launch and writes name every
value a claim can depend on (log 21). -/
def Launched (s : State) (P : Params := .default) : Prop :=
  ∃ (l : Launch) (ws : List HarnessWrite), s = l.reset.harnessWrites ws P

/-- The clean-launch premise (R192): a launch state with FAULT none, CYC 0, no interrupt pending, and the vectors at
$FFFA-$FFFF in ROM. `MEMORY_MAP` is a field of the one instance P that a run has, and no run call changes the ROM banks
(R42). -/
structure CleanLaunch (s : State) (P : Params := .default) : Prop where
  launched : Launched s P
  noFault : s.fault = none
  ready : s.cyc = 0
  noIrq : s.irq = false
  noNmi : s.nmiEdge = false
  vectors : ∀ a : Word, 0xFFFA ≤ a.toNat → InRom a P

/-- The end marker of R199: FAULT none, CYC 0 and the three bytes at PC a `JMP` to itself. The end of a run is the FIRST
state of the run that has it (`EndsAt`). -/
abbrev AtEnd (s : State) (P : Params := .default) : Prop :=
  s.fault = none ∧ s.cyc = 0 ∧ s.peek s.pc P = some 0x4C ∧ s.peek (s.pc + 1) P = some (loByte s.pc) ∧
    s.peek (s.pc + 2) P = some (hiByte s.pc)

/-- None of the states that fewer than k run calls lead to from s has the end marker. -/
def NoEndBefore (s : State) (k : Nat) (P : Params := .default) : Prop :=
  ∀ (j : Nat) (u : State), j < k → runCalls P j s = .next u → ¬ AtEnd u P

/-- The run from s ends in t, after k run calls (R199): s is a clean launch and t the first state with the end marker. -/
structure EndsAt (s : State) (k : Nat) (t : State) (P : Params := .default) : Prop where
  launch : CleanLaunch s P
  reached : runCalls P k s = .next t
  marked : AtEnd t P
  first : NoEndBefore s k P

/-- t is the end of the run from s (R199). -/
def EndOfRun (s t : State) (P : Params := .default) : Prop := ∃ k : Nat, EndsAt s k t P

/-- The run from s fails (R199, R169): from a clean launch it faults before it reaches the end marker. -/
def RunFails (s : State) (P : Params := .default) : Prop :=
  CleanLaunch s P ∧ ∃ (k : Nat) (f : Fault), runCalls P k s = .fault f ∧ NoEndBefore s k P

end Sys2Proof.Machine
end

