-- ==== Sys2Proof/Certificates/Slice0/Obligations.lean ====
section
/-! DEFINITION. The statements for the provers, from the numbered rules of spec/. The terms they share (Mapped, Readable,
effectiveAddress, afterRead, ...) stand in Safety.lean; the shapes several statements share stand in the namespace
Sys2Proof.Claims below. `exec` and `step` are the default hardware instance (00_scope.md R8); a statement over every
instance says so. -/

namespace Sys2Proof.Claims

open Sys2Proof.Machine

/-! ## Shared shapes -/

/-- The state a fault leaves: everything done before it, and FAULT set to the record of the instruction at PC (R170,
R177). -/
def faulted (s : State) (kind : FaultKind) : State := { s with fault := some ⟨kind, s.pc⟩ }

/-- P with the listed flags written and every other bit kept (R30). -/
def flagsSet (p : Byte) (flags : List (Flag × Bool)) : Byte := flags.foldl (fun q f => writeFlag q f.1 f.2) p

/-- The flags Z and N of a result (R103). -/
def zn (r : Byte) : List (Flag × Bool) := [(.Z, decide (r = 0)), (.N, r.getLsbD 7)]

/-- PC and CYC as a jump leaves them. -/
def goesTo (target : Word) (cost : Nat) (s : State) : State := { s with pc := target, cyc := BitVec.ofNat 8 cost }

/-- The operand that the bytes b1, b2 give in each mode (R66 to R68). -/
def imm (b1 _b2 : Byte) : Operand := .imm b1
def zp (b1 _b2 : Byte) : Operand := .zp b1
def zpx (b1 _b2 : Byte) : Operand := .zpx b1
def zpy (b1 _b2 : Byte) : Operand := .zpy b1
def abs (b1 b2 : Byte) : Operand := .abs (w16 b1 b2)
def absx (b1 b2 : Byte) : Operand := .absx (w16 b1 b2)
def absy (b1 b2 : Byte) : Operand := .absy (w16 b1 b2)
def indx (b1 _b2 : Byte) : Operand := .indx b1
def indy (b1 _b2 : Byte) : Operand := .indy b1
def acc (_b1 _b2 : Byte) : Operand := .acc
def imp (_b1 _b2 : Byte) : Operand := .imp

/-- The opcode bytes of a mnemonic, each with its mode: the decoder gives the mnemonic with that mode's operand. -/
def Encodes (mk : Operand → Instr) (rows : List (Byte × (Byte → Byte → Operand))) : Prop :=
  ∀ row ∈ rows, ∀ b1 b2 : Byte, decode row.1 b1 b2 = mk (row.2 b1 b2)

/-- A reading instruction (R102): on a readable operand it completes with the update of the operand value, PC and CYC,
and nothing else changes but the bus log and the draws of the reads; on an unmapped effective address it faults there.
-/
def Reads (mk : Operand → Instr) (update : Byte → State → State) : Prop :=
  ∀ (o : Operand) (s : State), (mk o).wellFormed = true →
    (Readable o s →
      exec (mk o) s =
        .next (fallsThrough (mk o) (addressCrosses o s) (update (operandValue o s) (afterOperand o s)))) ∧
    (¬ Readable o s →
      exec (mk o) s =
        .fault (.unmappedAccess (faulted (afterPointer o s) (.unmappedAccess (effectiveAddress o s) .read))))

/-- A storing instruction (R102): one write of the register's value at the effective address, without reading it; a ROM
address and an unmapped one fault (R45). -/
def Stores (mk : Operand → Instr) (value : State → Byte) : Prop :=
  ∀ (o : Operand) (s : State), (mk o).wellFormed = true →
    (Writable (effectiveAddress o s) →
      exec (mk o) s =
        .next (fallsThrough (mk o) (addressCrosses o s)
          (afterWrite (afterPointer o s) (effectiveAddress o s) (value s)))) ∧
    (InRom (effectiveAddress o s) →
      exec (mk o) s =
        .fault (.romWrite (faulted (afterPointer o s) (.romWrite (effectiveAddress o s) (value s))))) ∧
    (classify (effectiveAddress o s) = .unmapped →
      exec (mk o) s =
        .fault (.unmappedAccess (faulted (afterPointer o s) (.unmappedAccess (effectiveAddress o s) .write))))

/-- The accumulator form of a read-modify-write instruction (R89, R102), with the new byte and the flags it writes, each a
function of P and the old byte: A and P change, and it completes from every state. -/
def ModifiesA (mk : Operand → Instr) (value : Byte → Byte → Byte) (flags : Byte → Byte → List (Flag × Bool)) : Prop :=
  ∀ s : State,
    exec (mk .acc) s =
      .next (fallsThrough (mk .acc) false { s with a := value s.p s.a, p := flagsSet s.p (flags s.p s.a) })

/-- The memory forms of a read-modify-write instruction (R102): on a writable address one read, P, one write; on a ROM
address it faults at the write with P already written (R177); on an unmapped one it faults at the read. -/
def ModifiesMemory (mk : Operand → Instr) (value : Byte → Byte → Byte) (flags : Byte → Byte → List (Flag × Bool)) :
    Prop :=
  ∀ (o : Operand) (s : State), (mk o).wellFormed = true → isAddressForm o = true →
    (Writable (effectiveAddress o s) →
      exec (mk o) s =
        .next (fallsThrough (mk o) false
          (afterWrite { afterOperand o s with p := flagsSet s.p (flags s.p (operandValue o s)) }
            (effectiveAddress o s) (value s.p (operandValue o s))))) ∧
    (InRom (effectiveAddress o s) →
      exec (mk o) s =
        .fault (.romWrite (faulted { afterOperand o s with p := flagsSet s.p (flags s.p (operandValue o s)) }
          (.romWrite (effectiveAddress o s) (value s.p (operandValue o s)))))) ∧
    (classify (effectiveAddress o s) = .unmapped →
      exec (mk o) s =
        .fault (.unmappedAccess (faulted (afterPointer o s) (.unmappedAccess (effectiveAddress o s) .read))))

/-- Both kinds of form of a shift or rotate (R114 to R117). -/
def Modifies (mk : Operand → Instr) (value : Byte → Byte → Byte) (flags : Byte → Byte → List (Flag × Bool)) : Prop :=
  ModifiesA mk value flags ∧ ModifiesMemory mk value flags

/-- A one-byte instruction that accesses nothing and completes from every state: its opcode byte, and the state it
leaves before PC and CYC are written. -/
def Implied (op : Byte) (i : Instr) (update : State → State) : Prop :=
  (∀ b1 b2 : Byte, decode op b1 b2 = i) ∧ ∀ s : State, exec i s = .next (fallsThrough i false (update s))

/-- A branch (R127): its opcode byte, and PC and CYC in both cases, from every state. -/
def Branches (op : Byte) (mk : Byte → Instr) (cond : State → Bool) : Prop :=
  (∀ b1 b2 : Byte, decode op b1 b2 = mk b1) ∧
  ∀ (d : Byte) (s : State) (target : Word), target = BitVec.ofInt 16 ((s.pc.toNat : Int) + 2 + d.toInt) →
    exec (mk d) s =
      .next (if cond s then goesTo target (if hiByte (s.pc + 2) = hiByte target then 3 else 4) s
        else goesTo (s.pc + 2) 2 s)

/-! ## The bytes of R72 and R73, and the figures of R197 and R198 -/

/-- The 27 unofficial NOPs, each with its mode (R72). -/
def unofficialNops : List (Byte × (Byte → Byte → Operand)) :=
  [(0x1A, imp), (0x3A, imp), (0x5A, imp), (0x7A, imp), (0xDA, imp), (0xFA, imp),
   (0x80, imm), (0x82, imm), (0x89, imm), (0xC2, imm), (0xE2, imm),
   (0x04, zp), (0x44, zp), (0x64, zp),
   (0x14, zpx), (0x34, zpx), (0x54, zpx), (0x74, zpx), (0xD4, zpx), (0xF4, zpx),
   (0x0C, abs),
   (0x1C, absx), (0x3C, absx), (0x5C, absx), (0x7C, absx), (0xDC, absx), (0xFC, absx)]

/-- The 78 unimplemented bytes (R73). -/
def unimplementedBytes : List Byte :=
  [0x02, 0x03, 0x07, 0x0B, 0x0F, 0x12, 0x13, 0x17, 0x1B, 0x1F, 0x22, 0x23, 0x27, 0x2B, 0x2F, 0x32, 0x33, 0x37, 0x3B,
   0x3F, 0x42, 0x43, 0x47, 0x4B, 0x4F, 0x52, 0x53, 0x57, 0x5B, 0x5F, 0x62, 0x63, 0x67, 0x6B, 0x6F, 0x72, 0x73, 0x77,
   0x7B, 0x7F] ++
  [0x83, 0x87, 0x8B, 0x8F, 0x92, 0x93, 0x97, 0x9B, 0x9C, 0x9E, 0x9F, 0xA3, 0xA7, 0xAB, 0xAF, 0xB2, 0xB3, 0xB7, 0xBB,
   0xBF, 0xC3, 0xC7, 0xCB, 0xCF, 0xD2, 0xD3, 0xD7, 0xDB, 0xDF, 0xE3, 0xE7, 0xEB, 0xEF, 0xF2, 0xF3, 0xF7, 0xFB, 0xFF]

/-- The branches: BPL, BMI, BVC, BVS, BCC, BCS, BNE, BEQ (R70, the rows marked "+b" in R197). -/
def branchBytes : List Byte := [0x10, 0x30, 0x50, 0x70, 0x90, 0xB0, 0xD0, 0xF0]

/-- The base costs of R197 and R198 by opcode byte, row = high nibble; 0 where an unimplemented byte has none. -/
def baseCosts : List (List Nat) :=
  [[7, 6, 0, 0, 3, 3, 5, 0, 3, 2, 2, 0, 4, 4, 6, 0],
   [2, 5, 0, 0, 4, 4, 6, 0, 2, 4, 2, 0, 4, 4, 7, 0],
   [6, 6, 0, 0, 3, 3, 5, 0, 4, 2, 2, 0, 4, 4, 6, 0],
   [2, 5, 0, 0, 4, 4, 6, 0, 2, 4, 2, 0, 4, 4, 7, 0],
   [6, 6, 0, 0, 3, 3, 5, 0, 3, 2, 2, 0, 3, 4, 6, 0],
   [2, 5, 0, 0, 4, 4, 6, 0, 2, 4, 2, 0, 4, 4, 7, 0],
   [6, 6, 0, 0, 3, 3, 5, 0, 4, 2, 2, 0, 5, 4, 6, 0],
   [2, 5, 0, 0, 4, 4, 6, 0, 2, 4, 2, 0, 4, 4, 7, 0]] ++
  [[2, 6, 2, 0, 3, 3, 3, 0, 2, 2, 2, 0, 4, 4, 4, 0],
   [2, 6, 0, 0, 4, 4, 4, 0, 2, 5, 2, 0, 0, 5, 0, 0],
   [2, 6, 2, 0, 3, 3, 3, 0, 2, 2, 2, 0, 4, 4, 4, 0],
   [2, 5, 0, 0, 4, 4, 4, 0, 2, 4, 2, 0, 4, 4, 4, 0],
   [2, 6, 2, 0, 3, 3, 5, 0, 2, 2, 2, 0, 4, 4, 6, 0],
   [2, 5, 0, 0, 4, 4, 6, 0, 2, 4, 2, 0, 4, 4, 7, 0],
   [2, 6, 2, 0, 3, 3, 5, 0, 2, 2, 2, 0, 4, 4, 6, 0],
   [2, 5, 0, 0, 4, 4, 6, 0, 2, 4, 2, 0, 4, 4, 7, 0]]

/-- The base cost of an opcode byte (R197, R198). -/
def baseCost (op : Byte) : Nat := (baseCosts.getD (op.toNat / 16) []).getD (op.toNat % 16) 0

/-- The bytes whose cost grows by 1 on a page cross, the entries "+p" of R197 and R198. -/
def penaltyBytes : List Byte :=
  [0x11, 0x19, 0x1C, 0x1D, 0x31, 0x39, 0x3C, 0x3D, 0x51, 0x59, 0x5C, 0x5D, 0x71, 0x79, 0x7C, 0x7D, 0xB1, 0xB9, 0xBC,
   0xBD, 0xBE, 0xD1, 0xD9, 0xDC, 0xDD, 0xF1, 0xF9, 0xFC, 0xFD]

/-! ## The tables of R19 and R35 -/

/-- The instructions that write A (R19). -/
def writesA : Instr → Bool
  | .adc _ | .sbc _ | .and _ | .ora _ | .eor _ | .lda _ | .txa | .tya | .pla => true
  | .asl o | .lsr o | .rol o | .ror o => o == .acc
  | _ => false

/-- The instructions that write X (R19). -/
def writesX : Instr → Bool
  | .inx | .dex | .ldx _ | .tax | .tsx => true
  | _ => false

/-- The instructions that write Y (R19). -/
def writesY : Instr → Bool
  | .iny | .dey | .ldy _ | .tay => true
  | _ => false

/-- The instructions that write S (R19). -/
def writesS : Instr → Bool
  | .txs | .pha | .pla | .php | .plp | .jsr _ | .rts | .rti | .brk => true
  | _ => false

/-- The flags an instruction writes (R35). -/
def flagsWritten : Instr → List Flag
  | .adc _ | .sbc _ => [.N, .V, .Z, .C]
  | .and _ | .ora _ | .eor _ => [.N, .Z]
  | .asl _ | .lsr _ | .rol _ | .ror _ => [.N, .Z, .C]
  | .cmp _ | .cpx _ | .cpy _ => [.N, .Z, .C]
  | .inc _ | .dec _ | .inx | .iny | .dex | .dey => [.N, .Z]
  | .lda _ | .ldx _ | .ldy _ => [.N, .Z]
  | .tax | .tay | .txa | .tya | .tsx | .pla => [.N, .Z]
  | .bit _ => [.N, .V, .Z]
  | .plp | .rti => [.N, .V, .U, .B, .D, .I, .Z, .C]
  | .brk => [.I]
  | .clc | .sec => [.C]
  | .cli | .sei => [.I]
  | .cld | .sed => [.D]
  | .clv => [.V]
  | _ => []

/-- The instructions that store to memory on some form: stores, the memory forms of the read-modify-writes, and the
pushes (R48, R170). -/
def storesMemory : Instr → Bool
  | .sta _ | .stx _ | .sty _ | .inc _ | .dec _ => true
  | .asl o | .lsr o | .rol o | .ror o => isAddressForm o
  | .pha | .php | .jsr _ | .brk => true
  | _ => false

/-- The stack bytes an instruction pushes, in the state it starts from (R50, R52, R146, R147, R138, R157). -/
def pushAddresses : Instr → State → List Word
  | .pha, s | .php, s => [stackByte s.sp]
  | .jsr _, s => [stackByte s.sp, stackByte (s.sp - 1)]
  | .brk, s => [stackByte s.sp, stackByte (s.sp - 1), stackByte (s.sp - 2)]
  | _, _ => []

/-- Apply a function to the state of an outcome: the next state, or the state a fault leaves. -/
def onState (f : State → State) : Host.Outcome State Fault Refusal → Host.Outcome State Fault Refusal
  | .next s => .next (f s)
  | .fault (.unmappedAccess s) => .fault (.unmappedAccess (f s))
  | .fault (.romWrite s) => .fault (.romWrite (f s))
  | .fault (.stackOverflow s) => .fault (.stackOverflow (f s))
  | .fault (.stackUnderflow s) => .fault (.stackUnderflow (f s))
  | .fault (.unimplementedOpcode s) => .fault (.unimplementedOpcode (f s))
  | .refused q => .refused q

/-- The state with the live bits B and U of P set, whatever they were (R27). -/
def hideBreakBits (s : State) : State := { s with p := s.p ||| 0x30 }

/-- The state of an outcome that has one. -/
def resultState : Host.Outcome State Fault Refusal → Option State
  | .next s => some s
  | .fault f => some (faultState f)
  | .refused _ => none

/-- Run ROL on the accumulator n times, on A and C alone (R116). -/
def rolTimes : Nat → Byte × Bool → Byte × Bool
  | 0, ac => ac
  | n + 1, (a, c) => rolTimes n ((a <<< 1) ||| (if c then 1 else 0), a.getLsbD 7)

end Sys2Proof.Claims

open Sys2Proof Sys2Proof.Machine Sys2Proof.Claims

/-! ## Reset and the map -/

/-- R189: the launch state, for every ROM and every draw. -/
def Obligations.ResetBuildsLaunchState : Prop :=
  ∀ l : Launch,
    l.reset.a = l.a ∧ l.reset.x = l.x ∧ l.reset.y = l.y ∧ l.reset.sp = 0xFD ∧ l.reset.cyc = 0 ∧ l.reset.fault = none ∧
    l.reset.busLog = [] ∧
    (∀ f : Flag, testFlag l.reset.p f =
      if f = .I ∨ f = .B ∨ f = .U then true else testFlag l.p f) ∧
    (∀ (i : Nat) (v : Byte), i < 2048 → l.ram[i]? = some v → l.reset.peek (BitVec.ofNat 16 i) = some v) ∧
    (∀ (i : Nat) (v : Byte), i < 16384 → l.prgLo[i]? = some v → l.reset.peek (BitVec.ofNat 16 (0x8000 + i)) = some v) ∧
    (∀ (i : Nat) (v : Byte), i < 16384 → l.prgHi[i]? = some v → l.reset.peek (BitVec.ofNat 16 (0xC000 + i)) = some v) ∧
    (∀ lo hi : Byte, l.reset.peek 0xFFFC = some lo → l.reset.peek 0xFFFD = some hi → l.reset.pc = w16 lo hi)

/-- The state of every launch, and every clean launch (R192: that state after harness writes), meets the invariant that
every run call keeps (`StepKeepsInvariant`). -/
def Obligations.LaunchMeetsInvariant : Prop := (∀ l : Launch, Inv l.reset) ∧ ∀ s : State, CleanLaunch s → Inv s

/-- R40: the backing cell of every address of the default map. -/
def Obligations.MemoryMapGivesCells : Prop :=
  ∀ a : Word,
    (a.toNat < 0x2000 → cellOf a = some (a.toNat % 2048) ∧ Mapped a ∧ Writable a) ∧
    (0x2000 ≤ a.toNat → a.toNat < 0x2008 → cellOf a = none ∧ Mapped a ∧ Writable a) ∧
    (0x2008 ≤ a.toNat → a.toNat < 0x8000 → cellOf a = none ∧ ¬ Mapped a ∧ ¬ Writable a) ∧
    (0x8000 ≤ a.toNat → cellOf a = some a.toNat ∧ Mapped a ∧ ¬ Writable a ∧ InRom a)

/-- R44: a bus read at every address, in every instance. The form of a PPU register's draw, `Config.ppuRead` at the
model's own counter, which the read advances, is the model's choice (log 5); R43 and R44 say only that it is a draw. -/
def Obligations.BusReadRule : Prop :=
  ∀ (a : Word) (s : State) (P : Params),
    (¬ Mapped a P → memRead a s P = .fault (.unmappedAccess (faulted s (.unmappedAccess a .read)))) ∧
    (∀ v : Byte, s.peek a P = some v →
      memRead a s P = .next (v, { s with busLog := s.busLog ++ [⟨.read, a, v⟩] })) ∧
    (classify a P = .ppu →
      memRead a s P =
        .next (Config.ppuRead s.ppuDraws,
          { s with
            busLog := s.busLog ++ [⟨.read, a, Config.ppuRead s.ppuDraws⟩], ppuDraws := s.ppuDraws + 1 }))

/-- R45: a bus write at every address, in every instance, with its frame on the bytes of memory; in the default map the
bytes a RAM write changes are those of one cell, `a mod 2048` (R41). -/
def Obligations.BusWriteRule : Prop :=
  ∀ (a : Word) (v : Byte) (s : State) (P : Params), Memory.wf s.mem →
    (¬ Mapped a P → memWrite a v s P = .fault (.unmappedAccess (faulted s (.unmappedAccess a .write)))) ∧
    (InRom a P → memWrite a v s P = .fault (.romWrite (faulted s (.romWrite a v)))) ∧
    (classify a P = .ppu → memWrite a v s P = .next { s with busLog := s.busLog ++ [⟨.write, a, v⟩] }) ∧
    (classify a P = .ram ∨ classify a P = .ramMirror →
      ∃ t : State, memWrite a v s P = .next t ∧
        t = { s with busLog := s.busLog ++ [⟨.write, a, v⟩], mem := t.mem } ∧ t.peek a P = some v ∧
        (∀ b : Word, cellOf b P ≠ cellOf a P → t.peek b P = s.peek b P) ∧
        (P = .default →
          ∀ b : Word, t.peek b = if b.toNat < 0x2000 ∧ b.toNat % 2048 = a.toNat % 2048 then some v else s.peek b))

/-- R38: a 16-bit value written little-endian is read back, for two successive RAM addresses. -/
def Obligations.WordRoundTripLittleEndian : Prop :=
  ∀ (a w : Word) (s : State), Memory.wf s.mem → a.toNat + 1 < 0x2000 →
    ∃ t u : State, memWrite16 a w s = .next t ∧ t.peek a = some (loByte w) ∧ t.peek (a + 1) = some (hiByte w) ∧
      memRead16 a t = .next (w, u)

/-! ## The stack -/

/-- R50 and R51: push and pull for every S, with their checks before any access. -/
def Obligations.PushPullRules : Prop :=
  ∀ (v : Byte) (s : State),
    (s.sp = 0x00 → push v s = .fault (.stackOverflow (faulted s (.stackOverflow 0x00)))) ∧
    (s.sp ≠ 0x00 → push v s = .next (pushed v s)) ∧
    (s.sp = 0xFF → pull s = .fault (.stackUnderflow (faulted s (.stackUnderflow 0xFF)))) ∧
    (s.sp ≠ 0xFF → pull s = .next (pulledByte s, pulled s))

/-- R52 and R54 (R54 is marked as derived): the high byte is pushed first, and a pull gives back what the push stored.
-/
def Obligations.StackRoundTrip : Prop :=
  ∀ (w : Word) (v : Byte) (s : State), Memory.wf s.mem →
    (2 ≤ s.sp.toNat →
      push16 w s = .next (pushed (loByte w) (pushed (hiByte w) s)) ∧
      ∃ u : State, pull16 (pushed (loByte w) (pushed (hiByte w) s)) = .next (w, u) ∧ u.sp = s.sp) ∧
    (1 ≤ s.sp.toNat → ∃ u : State, pull (pushed v s) = .next (v, u) ∧ u.sp = s.sp)

/-! ## The ALU -/

/-- R105: addition with carry, with every flag. -/
def Obligations.AluAddRule : Prop :=
  ∀ p a m : Byte, ∀ sum : Nat, sum = a.toNat + m.toNat + (if testFlag p .C then 1 else 0) →
    (alu .add p a m).1.toNat = sum % 256 ∧
    (testFlag (alu .add p a m).2 .C = true ↔ 255 < sum) ∧
    (testFlag (alu .add p a m).2 .V = true ↔
      a.getLsbD 7 = m.getLsbD 7 ∧ (alu .add p a m).1.getLsbD 7 ≠ a.getLsbD 7) ∧
    (testFlag (alu .add p a m).2 .Z = true ↔ sum % 256 = 0) ∧
    testFlag (alu .add p a m).2 .N = (alu .add p a m).1.getLsbD 7 ∧
    ∀ f : Flag, f = .I ∨ f = .D ∨ f = .B ∨ f = .U → testFlag (alu .add p a m).2 f = testFlag p f

/-- R106: subtraction with borrow, with every flag. -/
def Obligations.AluSubtractRule : Prop :=
  ∀ p a m : Byte, ∀ diff : Int, diff = (a.toNat : Int) - m.toNat - (1 - (if testFlag p .C then 1 else 0)) →
    ((alu .subtract p a m).1.toNat : Int) = diff % 256 ∧
    (testFlag (alu .subtract p a m).2 .C = true ↔ 0 ≤ diff) ∧
    (testFlag (alu .subtract p a m).2 .V = true ↔
      a.getLsbD 7 ≠ m.getLsbD 7 ∧ (alu .subtract p a m).1.getLsbD 7 ≠ a.getLsbD 7) ∧
    (testFlag (alu .subtract p a m).2 .Z = true ↔ diff % 256 = 0) ∧
    testFlag (alu .subtract p a m).2 .N = (alu .subtract p a m).1.getLsbD 7 ∧
    ∀ f : Flag, f = .I ∨ f = .D ∨ f = .B ∨ f = .U → testFlag (alu .subtract p a m).2 f = testFlag p f

/-- Consequences of R105 and R106 (R106 marks its 'Equivalently' sentence as derived): subtraction is addition of the
complement, and V is set exactly when the signed sum or difference leaves -128..127. -/
def Obligations.AluIdentities : Prop :=
  ∀ p a m : Byte,
    alu .subtract p a m = alu .add p a (~~~m) ∧
    (testFlag (alu .add p a m).2 .V = true ↔
      (a.toInt + m.toInt + (if testFlag p .C then 1 else 0) < -128 ∨
        127 < a.toInt + m.toInt + (if testFlag p .C then 1 else 0))) ∧
    (testFlag (alu .subtract p a m).2 .V = true ↔
      (a.toInt - m.toInt - (if testFlag p .C then 0 else 1) < -128 ∨
        127 < a.toInt - m.toInt - (if testFlag p .C then 0 else 1)))

/-- R116, its derived corner case: nine ROLs restore A and C, and one ROL of the model is the 9-bit rotation that
`rolTimes` iterates. -/
def Obligations.NineRotationsRestore : Prop :=
  (∀ (a : Byte) (c : Bool), rolTimes 9 (a, c) = (a, c)) ∧
  ∀ s : State, ∃ t : State, exec (.rol .acc) s = .next t ∧
    (t.a, testFlag t.p .C) = rolTimes 1 (s.a, testFlag s.p .C)

/-! ## Arithmetic and logic -/

/-- R109: ADC in every form. -/
def Obligations.AdcRule : Prop :=
  Encodes .adc [(0x69, imm), (0x65, zp), (0x75, zpx), (0x6D, abs), (0x7D, absx), (0x79, absy), (0x61, indx),
    (0x71, indy)] ∧
  Reads .adc fun m s =>
    let sum := s.a.toNat + m.toNat + (if testFlag s.p .C then 1 else 0)
    let r := BitVec.ofNat 8 sum
    { s with
      a := r
      p := flagsSet s.p ([(.C, decide (255 < sum)), (.V, ((s.a ^^^ r) &&& (m ^^^ r)).getLsbD 7)] ++ zn r) }

/-- R110: SBC in every form. -/
def Obligations.SbcRule : Prop :=
  Encodes .sbc [(0xE9, imm), (0xE5, zp), (0xF5, zpx), (0xED, abs), (0xFD, absx), (0xF9, absy), (0xE1, indx),
    (0xF1, indy)] ∧
  Reads .sbc fun m s =>
    let diff : Int := (s.a.toNat : Int) - m.toNat - (if testFlag s.p .C then 0 else 1)
    let r := BitVec.ofInt 8 diff
    { s with
      a := r
      p := flagsSet s.p ([(.C, decide (0 ≤ diff)), (.V, ((s.a ^^^ m) &&& (s.a ^^^ r)).getLsbD 7)] ++ zn r) }

/-- R111 to R113: AND, ORA and EOR in every form. -/
def Obligations.LogicRules : Prop :=
  Encodes .and [(0x29, imm), (0x25, zp), (0x35, zpx), (0x2D, abs), (0x3D, absx), (0x39, absy), (0x21, indx),
    (0x31, indy)] ∧
  Encodes .ora [(0x09, imm), (0x05, zp), (0x15, zpx), (0x0D, abs), (0x1D, absx), (0x19, absy), (0x01, indx),
    (0x11, indy)] ∧
  Encodes .eor [(0x49, imm), (0x45, zp), (0x55, zpx), (0x4D, abs), (0x5D, absx), (0x59, absy), (0x41, indx),
    (0x51, indy)] ∧
  Reads .and (fun m s => { s with a := s.a &&& m, p := flagsSet s.p (zn (s.a &&& m)) }) ∧
  Reads .ora (fun m s => { s with a := s.a ||| m, p := flagsSet s.p (zn (s.a ||| m)) }) ∧
  Reads .eor (fun m s => { s with a := s.a ^^^ m, p := flagsSet s.p (zn (s.a ^^^ m)) })

/-! ## Shifts and rotates -/

/-- R114 and R115: ASL and LSR in every form. -/
def Obligations.ShiftRules : Prop :=
  Encodes .asl [(0x0A, acc), (0x06, zp), (0x16, zpx), (0x0E, abs), (0x1E, absx)] ∧
  Encodes .lsr [(0x4A, acc), (0x46, zp), (0x56, zpx), (0x4E, abs), (0x5E, absx)] ∧
  Modifies .asl (fun _ v => BitVec.ofNat 8 (2 * v.toNat)) (fun _ v => (.C, v.getLsbD 7) :: zn (v <<< 1)) ∧
  Modifies .lsr (fun _ v => BitVec.ofNat 8 (v.toNat / 2)) (fun _ v => [(.C, v.getLsbD 0), (.Z, decide (v >>> 1 = 0)),
    (.N, false)])

/-- R116 and R117: ROL and ROR in every form. -/
def Obligations.RotateRules : Prop :=
  Encodes .rol [(0x2A, acc), (0x26, zp), (0x36, zpx), (0x2E, abs), (0x3E, absx)] ∧
  Encodes .ror [(0x6A, acc), (0x66, zp), (0x76, zpx), (0x6E, abs), (0x7E, absx)] ∧
  Modifies .rol (fun p v => (v <<< 1) ||| (if testFlag p .C then 0x01 else 0x00))
    (fun p v => (.C, v.getLsbD 7) :: zn ((v <<< 1) ||| (if testFlag p .C then 0x01 else 0x00))) ∧
  Modifies .ror (fun p v => (v >>> 1) ||| (if testFlag p .C then 0x80 else 0x00))
    (fun p v => [(.C, v.getLsbD 0), (.Z, decide ((v >>> 1) ||| (if testFlag p .C then 0x80 else 0x00) = 0x00)),
      (.N, testFlag p .C)])

/-! ## Compares, increments, decrements -/

/-- R118 to R120: CMP, CPX and CPY in every form. No register changes and V is kept. -/
def Obligations.CompareRules : Prop :=
  Encodes .cmp [(0xC9, imm), (0xC5, zp), (0xD5, zpx), (0xCD, abs), (0xDD, absx), (0xD9, absy), (0xC1, indx),
    (0xD1, indy)] ∧
  Encodes .cpx [(0xE0, imm), (0xE4, zp), (0xEC, abs)] ∧
  Encodes .cpy [(0xC0, imm), (0xC4, zp), (0xCC, abs)] ∧
  Reads .cmp (fun m s => { s with
    p := flagsSet s.p [(.C, decide (m.toNat ≤ s.a.toNat)), (.Z, decide (s.a = m)), (.N, (s.a - m).getLsbD 7)] }) ∧
  Reads .cpx (fun m s => { s with
    p := flagsSet s.p [(.C, decide (m.toNat ≤ s.x.toNat)), (.Z, decide (s.x = m)), (.N, (s.x - m).getLsbD 7)] }) ∧
  Reads .cpy (fun m s => { s with
    p := flagsSet s.p [(.C, decide (m.toNat ≤ s.y.toNat)), (.Z, decide (s.y = m)), (.N, (s.y - m).getLsbD 7)] })

/-- R121 and R122: INC and DEC in every form. -/
def Obligations.IncDecMemoryRules : Prop :=
  Encodes .inc [(0xE6, zp), (0xF6, zpx), (0xEE, abs), (0xFE, absx)] ∧
  Encodes .dec [(0xC6, zp), (0xD6, zpx), (0xCE, abs), (0xDE, absx)] ∧
  ModifiesMemory .inc (fun _ v => v + 1) (fun _ v => zn (v + 1)) ∧
  ModifiesMemory .dec (fun _ v => v - 1) (fun _ v => zn (v - 1))

/-- R123 to R126: INX, INY, DEX and DEY complete from every state. -/
def Obligations.IncDecIndexRules : Prop :=
  Implied 0xE8 .inx (fun s => { s with x := s.x + 1, p := flagsSet s.p (zn (s.x + 1)) }) ∧
  Implied 0xC8 .iny (fun s => { s with y := s.y + 1, p := flagsSet s.p (zn (s.y + 1)) }) ∧
  Implied 0xCA .dex (fun s => { s with x := s.x - 1, p := flagsSet s.p (zn (s.x - 1)) }) ∧
  Implied 0x88 .dey (fun s => { s with y := s.y - 1, p := flagsSet s.p (zn (s.y - 1)) })

/-! ## Branches and jumps -/

/-- R127 to R135: the eight branches complete from every state, taken or not. -/
def Obligations.BranchRules : Prop :=
  Branches 0x90 .bcc (fun s => !testFlag s.p .C) ∧ Branches 0xB0 .bcs (fun s => testFlag s.p .C) ∧
  Branches 0xF0 .beq (fun s => testFlag s.p .Z) ∧ Branches 0xD0 .bne (fun s => !testFlag s.p .Z) ∧
  Branches 0x30 .bmi (fun s => testFlag s.p .N) ∧ Branches 0x10 .bpl (fun s => !testFlag s.p .N) ∧
  Branches 0x50 .bvc (fun s => !testFlag s.p .V) ∧ Branches 0x70 .bvs (fun s => testFlag s.p .V)

/-- R136 and R137: JMP absolute and indirect. The indirect target's high byte comes from the pointer's own page. -/
def Obligations.JumpRules : Prop :=
  (∀ b1 b2 : Byte, decode 0x4C b1 b2 = .jmpAbs (w16 b1 b2)) ∧
  (∀ b1 b2 : Byte, decode 0x6C b1 b2 = .jmpInd (w16 b1 b2)) ∧
  (∀ (target : Word) (s : State), exec (.jmpAbs target) s = .next (goesTo target 3 s)) ∧
  ∀ (pl ph : Byte) (s : State),
    (Mapped (w16 pl ph) → Mapped (w16 (pl + 1) ph) →
      exec (.jmpInd (w16 pl ph)) s =
        .next (goesTo (w16 (byteAt s (w16 pl ph)) (byteAt (afterRead s (w16 pl ph)) (w16 (pl + 1) ph))) 5
          (afterRead (afterRead s (w16 pl ph)) (w16 (pl + 1) ph)))) ∧
    (¬ Mapped (w16 pl ph) →
      exec (.jmpInd (w16 pl ph)) s = .fault (.unmappedAccess (faulted s (.unmappedAccess (w16 pl ph) .read)))) ∧
    (Mapped (w16 pl ph) → ¬ Mapped (w16 (pl + 1) ph) →
      exec (.jmpInd (w16 pl ph)) s =
        .fault (.unmappedAccess (faulted (afterRead s (w16 pl ph)) (.unmappedAccess (w16 (pl + 1) ph) .read))))

/-- R138: JSR for every S. -/
def Obligations.JsrRule : Prop :=
  (∀ b1 b2 : Byte, decode 0x20 b1 b2 = .jsr (w16 b1 b2)) ∧
  ∀ (target : Word) (s : State),
    (2 ≤ s.sp.toNat →
      exec (.jsr target) s =
        .next (goesTo target 6 (pushed (loByte (s.pc + 2)) (pushed (hiByte (s.pc + 2)) s)))) ∧
    (s.sp = 0x01 →
      exec (.jsr target) s =
        .fault (.stackOverflow (faulted (pushed (hiByte (s.pc + 2)) s) (.stackOverflow 0x00)))) ∧
    (s.sp = 0x00 → exec (.jsr target) s = .fault (.stackOverflow (faulted s (.stackOverflow 0x00))))

/-- R139: RTS for every S. -/
def Obligations.RtsRule : Prop :=
  (∀ b1 b2 : Byte, decode 0x60 b1 b2 = .rts) ∧
  ∀ s : State,
    (s.sp.toNat ≤ 0xFD →
      exec .rts s = .next (goesTo (w16 (pulledByte s) (pulledByte (pulled s)) + 1) 6 (pulled (pulled s)))) ∧
    (s.sp = 0xFE → exec .rts s = .fault (.stackUnderflow (faulted (pulled s) (.stackUnderflow 0xFF)))) ∧
    (s.sp = 0xFF → exec .rts s = .fault (.stackUnderflow (faulted s (.stackUnderflow 0xFF))))

/-- R139, its derived corner case: RTS after a JSR from address a continues at a + 3, with S where it was. -/
def Obligations.JsrThenRtsReturns : Prop :=
  ∀ (target : Word) (s : State), Memory.wf s.mem → 2 ≤ s.sp.toNat →
    ∃ t u : State, exec (.jsr target) s = .next t ∧ exec .rts t = .next u ∧ u.pc = s.pc + 3 ∧ u.sp = s.sp ∧
      u.a = s.a ∧ u.x = s.x ∧ u.y = s.y ∧ u.p = s.p

/-! ## Loads and stores -/

/-- R140 to R142: LDA, LDX and LDY in every form. -/
def Obligations.LoadRules : Prop :=
  Encodes .lda [(0xA9, imm), (0xA5, zp), (0xB5, zpx), (0xAD, abs), (0xBD, absx), (0xB9, absy), (0xA1, indx),
    (0xB1, indy)] ∧
  Encodes .ldx [(0xA2, imm), (0xA6, zp), (0xB6, zpy), (0xAE, abs), (0xBE, absy)] ∧
  Encodes .ldy [(0xA0, imm), (0xA4, zp), (0xB4, zpx), (0xAC, abs), (0xBC, absx)] ∧
  Reads .lda (fun m s => { s with a := m, p := flagsSet s.p (zn m) }) ∧
  Reads .ldx (fun m s => { s with x := m, p := flagsSet s.p (zn m) }) ∧
  Reads .ldy (fun m s => { s with y := m, p := flagsSet s.p (zn m) })

/-- R143 to R145: STA, STX and STY in every form. -/
def Obligations.StoreRules : Prop :=
  Encodes .sta [(0x85, zp), (0x95, zpx), (0x8D, abs), (0x9D, absx), (0x99, absy), (0x81, indx), (0x91, indy)] ∧
  Encodes .stx [(0x86, zp), (0x96, zpy), (0x8E, abs)] ∧
  Encodes .sty [(0x84, zp), (0x94, zpx), (0x8C, abs)] ∧
  Stores .sta (fun s => s.a) ∧ Stores .stx (fun s => s.x) ∧ Stores .sty (fun s => s.y)

/-! ## Stack and transfers -/

/-- R146 and R147: PHA and PHP for every S. -/
def Obligations.PushInstructionRules : Prop :=
  (∀ b1 b2 : Byte, decode 0x48 b1 b2 = .pha) ∧ (∀ b1 b2 : Byte, decode 0x08 b1 b2 = .php) ∧
  ∀ s : State,
    (s.sp ≠ 0x00 → exec .pha s = .next (fallsThrough .pha false (pushed s.a s))) ∧
    (s.sp = 0x00 → exec .pha s = .fault (.stackOverflow (faulted s (.stackOverflow 0x00)))) ∧
    (s.sp ≠ 0x00 → exec .php s = .next (fallsThrough .php false (pushed (s.p ||| 0x30) s))) ∧
    (s.sp = 0x00 → exec .php s = .fault (.stackOverflow (faulted s (.stackOverflow 0x00))))

/-- R148 and R149: PLA and PLP for every S. -/
def Obligations.PullInstructionRules : Prop :=
  (∀ b1 b2 : Byte, decode 0x68 b1 b2 = .pla) ∧ (∀ b1 b2 : Byte, decode 0x28 b1 b2 = .plp) ∧
  ∀ s : State,
    (s.sp ≠ 0xFF →
      exec .pla s =
        .next (fallsThrough .pla false
          { pulled s with a := pulledByte s, p := flagsSet s.p (zn (pulledByte s)) })) ∧
    (s.sp = 0xFF → exec .pla s = .fault (.stackUnderflow (faulted s (.stackUnderflow 0xFF)))) ∧
    (s.sp ≠ 0xFF → exec .plp s = .next (fallsThrough .plp false { pulled s with p := pulledByte s })) ∧
    (s.sp = 0xFF → exec .plp s = .fault (.stackUnderflow (faulted s (.stackUnderflow 0xFF))))

/-- R149, its derived corner case: PHP then PLP restores every flag but B and U exactly, and S. -/
def Obligations.PhpThenPlpRestores : Prop :=
  ∀ s : State, Memory.wf s.mem → s.sp ≠ 0x00 →
    ∃ t u : State, exec .php s = .next t ∧ exec .plp t = .next u ∧ u.sp = s.sp ∧
      ∀ f : Flag, testFlag u.p f = if f = .B ∨ f = .U then true else testFlag s.p f

/-- R150 to R155: the transfers complete from every state; TXS writes no flag. -/
def Obligations.TransferRules : Prop :=
  Implied 0xAA .tax (fun s => { s with x := s.a, p := flagsSet s.p (zn s.a) }) ∧
  Implied 0xA8 .tay (fun s => { s with y := s.a, p := flagsSet s.p (zn s.a) }) ∧
  Implied 0x8A .txa (fun s => { s with a := s.x, p := flagsSet s.p (zn s.x) }) ∧
  Implied 0x98 .tya (fun s => { s with a := s.y, p := flagsSet s.p (zn s.y) }) ∧
  Implied 0xBA .tsx (fun s => { s with x := s.sp, p := flagsSet s.p (zn s.sp) }) ∧
  Implied 0x9A .txs (fun s => { s with sp := s.x })

/-! ## Miscellaneous -/

/-- R156: BIT in both forms; A is unchanged. -/
def Obligations.BitRule : Prop :=
  Encodes .bit [(0x24, zp), (0x2C, abs)] ∧
  Reads .bit (fun m s => { s with
    p := flagsSet s.p [(.Z, decide (s.a &&& m = 0)), (.N, m.getLsbD 7), (.V, m.getLsbD 6)] })

/-- R157: BRK for every S: the return address and status pushed, I set, PC from the vector at $FFFE. -/
def Obligations.BrkRule : Prop :=
  (∀ b1 b2 : Byte, decode 0x00 b1 b2 = .brk) ∧
  ∀ (s s1 s2 s3 : State), s1 = pushed (hiByte (s.pc + 2)) s → s2 = pushed (loByte (s.pc + 2)) s1 →
    s3 = { pushed (s.p ||| 0x30) s2 with p := flagsSet s.p [(.I, true)] } →
    (3 ≤ s.sp.toNat →
      ∃ lo hi : Byte, s.peek 0xFFFE = some lo ∧ s.peek 0xFFFF = some hi ∧
        exec .brk s = .next (goesTo (w16 lo hi) 7
          { s3 with busLog := s3.busLog ++ [⟨.read, 0xFFFE, lo⟩, ⟨.read, 0xFFFF, hi⟩] })) ∧
    (s.sp = 0x02 → exec .brk s = .fault (.stackOverflow (faulted s2 (.stackOverflow 0x00)))) ∧
    (s.sp = 0x01 → exec .brk s = .fault (.stackOverflow (faulted s1 (.stackOverflow 0x00)))) ∧
    (s.sp = 0x00 → exec .brk s = .fault (.stackOverflow (faulted s (.stackOverflow 0x00))))

/-- R158: RTI for every S: P with bit 5 forced to 1, then PC without an increment; P is written before the later
pulls. -/
def Obligations.RtiRule : Prop :=
  (∀ b1 b2 : Byte, decode 0x40 b1 b2 = .rti) ∧
  ∀ (s s1 : State), s1 = { pulled s with p := pulledByte s ||| 0x20 } →
    (s.sp.toNat ≤ 0xFC →
      exec .rti s = .next (goesTo (w16 (pulledByte s1) (pulledByte (pulled s1))) 6 (pulled (pulled s1)))) ∧
    (s.sp = 0xFD → exec .rti s = .fault (.stackUnderflow (faulted (pulled s1) (.stackUnderflow 0xFF)))) ∧
    (s.sp = 0xFE → exec .rti s = .fault (.stackUnderflow (faulted s1 (.stackUnderflow 0xFF)))) ∧
    (s.sp = 0xFF → exec .rti s = .fault (.stackUnderflow (faulted s (.stackUnderflow 0xFF))))

/-- R158, its derived corner case: RTI right after a BRK at address a continues at a + 2 with S and every flag but B
and U as before. -/
def Obligations.BrkThenRtiReturns : Prop :=
  ∀ s : State, Memory.wf s.mem → 3 ≤ s.sp.toNat →
    ∃ t u : State, exec .brk s = .next t ∧ exec .rti t = .next u ∧ u.pc = s.pc + 2 ∧ u.sp = s.sp ∧
      u.a = s.a ∧ u.x = s.x ∧ u.y = s.y ∧
      ∀ f : Flag, testFlag u.p f = if f = .B ∨ f = .U then true else testFlag s.p f

/-- R159 to R165: the flag instructions complete from every state and write one flag. -/
def Obligations.FlagInstructionRules : Prop :=
  Implied 0x18 .clc (fun s => { s with p := flagsSet s.p [(.C, false)] }) ∧
  Implied 0x38 .sec (fun s => { s with p := flagsSet s.p [(.C, true)] }) ∧
  Implied 0x58 .cli (fun s => { s with p := flagsSet s.p [(.I, false)] }) ∧
  Implied 0x78 .sei (fun s => { s with p := flagsSet s.p [(.I, true)] }) ∧
  Implied 0xD8 .cld (fun s => { s with p := flagsSet s.p [(.D, false)] }) ∧
  Implied 0xF8 .sed (fun s => { s with p := flagsSet s.p [(.D, true)] }) ∧
  Implied 0xB8 .clv (fun s => { s with p := flagsSet s.p [(.V, false)] })

/-- R166 and R167: NOP and each of the 27 unofficial NOPs of R72 change PC and CYC alone, with no access beyond the
fetch. The costs by number are those of `CostsAreTheTables`. -/
def Obligations.NopRules : Prop :=
  Implied 0xEA .nop (fun s => s) ∧
  ∀ row ∈ unofficialNops, ∀ b1 b2 : Byte,
    decode row.1 b1 b2 = .nopStar row.1 (row.2 b1 b2) ∧
    ∀ s : State,
      exec (.nopStar row.1 (row.2 b1 b2)) s =
        .next (fallsThrough (.nopStar row.1 (row.2 b1 b2)) (addressCrosses (row.2 b1 b2) s) s)

/-- R168: each of the 78 unimplemented bytes of R73 faults with the opcode and its address, and nothing else happens. -/
def Obligations.UnimplementedBytesFault : Prop :=
  ∀ op ∈ unimplementedBytes,
    (∀ b1 b2 : Byte, decode op b1 b2 = .unimp op) ∧
    ∀ s : State, exec (.unimp op) s = .fault (.unimplementedOpcode (faulted s (.unimplementedOpcode op)))

/-! ## Costs -/

/-- R197 and R198: the cost of every opcode byte that is no branch, with its page-cross penalty; the cost of each branch,
not taken, taken, and taken to another page; and an unimplemented byte leaves CYC as it was. -/
def Obligations.CostsAreTheTables : Prop :=
  (∀ op b1 b2 : Byte, op ∉ branchBytes → op ∉ unimplementedBytes →
    cycles (decode op b1 b2) false = baseCost op ∧
    cycles (decode op b1 b2) true = baseCost op + (if op ∈ penaltyBytes then 1 else 0)) ∧
  (∀ op ∈ branchBytes, ∀ b1 b2 : Byte,
    (∀ branchCrossed : Bool, branchCycles (decode op b1 b2) false branchCrossed = 2) ∧
    branchCycles (decode op b1 b2) true false = 3 ∧
    branchCycles (decode op b1 b2) true true = 4) ∧
  ∀ op ∈ unimplementedBytes, ∀ s : State, ∃ f : Fault, exec (.unimp op) s = .fault f ∧ (faultState f).cyc = s.cyc

/-! ## Decoding -/

/-- R74 (marked as derived): the decoder is total: every byte is exactly one of official, unofficial NOP (R72) or
unimplemented (R73), 151, 27 and 78 of them, and in every instance what it selects is well formed. Words written out bit
by bit from the encodings of R70 and R71, one of each family, decode to their instructions. -/
def Obligations.OpcodeClassesPartition : Prop :=
  (∀ (op b1 b2 : Byte) (nops : UnofficialNops), (decode op b1 b2 nops).wellFormed nops = true) ∧
  (∀ op : Byte,
    (op ∈ unofficialNops.map Prod.fst ∧ ∃ o, decodeOpcode op = .nopStar op o) ∨
    (op ∈ unimplementedBytes ∧ decodeOpcode op = .unimp op) ∨
    (op ∉ unofficialNops.map Prod.fst ∧ op ∉ unimplementedBytes ∧
      (∀ q o, decodeOpcode op ≠ .nopStar q o) ∧ ∀ q, decodeOpcode op ≠ .unimp q)) ∧
  (∀ op ∈ unofficialNops.map Prod.fst, op ∉ unimplementedBytes) ∧
  (unofficialNops.map Prod.fst).Nodup ∧ unofficialNops.length = 27 ∧
  unimplementedBytes.Nodup ∧ unimplementedBytes.length = 78 ∧
  decode 0b01101001 0x0C 0x00 = .adc (.imm 0x0C) ∧ decode 0b00001010 0x00 0x00 = .asl .acc ∧
  decode 0b11011101 0x34 0x12 = .cmp (.absx 0x1234) ∧ decode 0b10110000 0xF4 0x00 = .bcs 0xF4 ∧
  decode 0b01101100 0xFF 0x02 = .jmpInd 0x02FF ∧ decode 0b10010110 0xFF 0x00 = .stx (.zpy 0xFF) ∧
  decode 0b10111110 0x34 0x12 = .ldx (.absy 0x1234) ∧ decode 0b01001000 0x00 0x00 = .pha ∧
  decode 0b00101100 0x02 0x20 = .bit (.abs 0x2002) ∧ decode 0b11100010 0x12 0x00 = .nopStar 0xE2 (.imm 0x12) ∧
  decode 0b11101011 0x10 0x00 = .unimp 0xEB

/-- Decoding the encoding of any well-formed instruction, whatever bytes follow it, gives it back with the rest; for every
set of unofficial NOPs (R8). -/
def Obligations.DecodeOfEncode : Prop :=
  ∀ (i : Instr) (rest : List Byte) (nops : UnofficialNops), i.wellFormed nops = true →
    decodeBytes (encode i nops ++ rest) nops = .ok (i, rest)

/-- Encoding what any three bytes decode to gives back the bytes of its length: no two encodings mean the same; for every
set of unofficial NOPs (R8). -/
def Obligations.EncodeOfDecode : Prop :=
  ∀ (op b1 b2 : Byte) (nops : UnofficialNops),
    encode (decode op b1 b2 nops) nops = [op, b1, b2].take (instrLength (decode op b1 b2 nops))

/-! ## The run step -/

/-- R77 to R81: a run call with FAULT none, CYC 0 and no interrupt to take executes the instruction that the bytes at PC
encode, on the state after the fetches of its own bytes, wherever those bytes are read from (RAM, ROM or a PPU register):
in every instance, and for `step` and `exec` in the default one. -/
def Obligations.StepRunsDecodedInstruction : Prop :=
  ∀ (P : Params) (s s1 s2 s3 : State) (op b1 b2 : Byte) (i : Instr), s.fault = none → s.cyc = 0 →
    P.hasInterruptLines = false ∨ pendingVector s = none → Mapped s.pc P →
    op = byteAt s s.pc P → s1 = afterRead s s.pc P →
    b1 = byteAt s1 (s.pc + 1) P → s2 = afterRead s1 (s.pc + 1) P →
    b2 = byteAt s2 (s.pc + 2) P → s3 = afterRead s2 (s.pc + 2) P →
    i = decode op b1 b2 P.unofficialNops → (2 ≤ instrLength i → Mapped (s.pc + 1) P) →
    (instrLength i = 3 → Mapped (s.pc + 2) P) →
    i.wellFormed P.unofficialNops = true ∧
      stepWith P s = execWith i (if instrLength i = 1 then s1 else if instrLength i = 2 then s2 else s3) P ∧
      (P = .default → step s = exec i (if instrLength i = 1 then s1 else if instrLength i = 2 then s2 else s3))

/-- R78 to R80: a fetch at an unmapped address faults there, with the earlier fetches done, and an unimplemented byte
faults with nothing but its own fetch done. After a mapped opcode fetch the run call is the operand fetch and then the
instruction. -/
def Obligations.FetchFaults : Prop :=
  ∀ (s s1 : State) (op : Byte), s.fault = none → s.cyc = 0 → op = byteAt s s.pc → s1 = afterRead s s.pc →
    (¬ Mapped s.pc → step s = .fault (.unmappedAccess (faulted s (.unmappedAccess s.pc .read)))) ∧
    (Mapped s.pc → step s = andThen (fetchOperands (decodeOpcode op) s1) fun r => exec r.1 r.2) ∧
    (Mapped s.pc → op ∈ unimplementedBytes →
      step s = .fault (.unimplementedOpcode (faulted s1 (.unimplementedOpcode op)))) ∧
    (∀ d : Instr, 2 ≤ instrLength d → ¬ Mapped (s.pc + 1) →
      fetchOperands d s = .fault (.unmappedAccess (faulted s (.unmappedAccess (s.pc + 1) .read)))) ∧
    (∀ d : Instr, instrLength d = 3 → Mapped (s.pc + 1) → ¬ Mapped (s.pc + 2) →
      fetchOperands d s =
        .fault (.unmappedAccess (faulted (afterRead s (s.pc + 1)) (.unmappedAccess (s.pc + 2) .read))))

/-- R86 (its timeline is marked as derived): from CYC = c, c run calls leave everything but CYC unchanged and end with
CYC = 0. Timing changes no register, flag or memory value: in every instance, another `CYCLES` (V8) changes nothing of a
run call's outcome but CYC. -/
def Obligations.CountdownTakesCycCalls : Prop :=
  (∀ s : State, s.fault = none → Host.Core.run core s.cyc.toNat s = .next { s with cyc := 0 }) ∧
  ∀ (P : Params) (costs : Byte → Bool → Bool → Bool → Byte) (s : State),
    onState (fun t => { t with cyc := 0 }) (stepWith { P with cycles := costs } s) =
      onState (fun t => { t with cyc := 0 }) (stepWith P s)

/-- R169: a run call on a faulted CORE changes nothing, however often it is made. That the model answers the unchanged
state there is log 7. -/
def Obligations.FaultedCoreStaysStopped : Prop :=
  ∀ (s : State) (n : Nat), s.fault ≠ none → Host.Core.run core n s = .next s

/-- Every run call answers a next state or one of the five faults, never a refusal; in the state a fault leaves, PC and
CYC are as before the run call and the record names that PC (R170, R177; R177 is marked as derived in part). -/
def Obligations.StepAnswersOrFaults : Prop :=
  ∀ s : State,
    (∀ q : Refusal, step s ≠ .refused q) ∧
    ∀ f : Fault, step s = .fault f →
      s.fault = none ∧ s.cyc = 0 ∧ (faultState f).pc = s.pc ∧ (faultState f).cyc = 0 ∧
      ∃ kind : FaultKind, (faultState f).fault = some ⟨kind, s.pc⟩ ∧ f = faultOf kind (faultState f)

/-- Every run call keeps the invariant, in its next state and in the state a fault leaves. -/
def Obligations.StepKeepsInvariant : Prop :=
  ∀ s t : State, Inv s → (step s = .next t → Inv t) ∧ ∀ f : Fault, step s = .fault f → Inv (faultState f)

/-- R42: no run call changes a byte of ROM, in any instance. -/
def Obligations.RomNeverChanges : Prop :=
  (∀ (P : Params) (s t : State) (a : Word), resultState (stepWith P s) = some t → InRom a P → t.peek a P = s.peek a P) ∧
  ∀ (s t : State) (a : Word), resultState (step s) = some t → 0x8000 ≤ a.toNat → t.peek a = s.peek a

/-- A run call only appends to the bus log, at most six accesses (R48). That a run call keeps the accesses of earlier ones,
until the host consumes them, is the model's reading of R47 (log 6). -/
def Obligations.BusLogOnlyGrows : Prop :=
  ∀ s t : State, resultState (step s) = some t →
    ∃ accesses : List BusAccess, t.busLog = s.busLog ++ accesses ∧ accesses.length ≤ 6

/-- R27 (the sentence is marked as derived): the live bits B and U are unobservable: two states that differ in them
alone step to outcomes that differ in them alone. -/
def Obligations.BreakBitsUnobservable : Prop :=
  ∀ (s : State) (q : Byte), q ||| 0x30 = s.p ||| 0x30 →
    onState hideBreakBits (step { s with p := q }) = onState hideBreakBits (step s)

/-- R179: a CORE without interrupt lines has no such inputs. That its State holds them all the same, and that its run call
neither reads nor writes them, is the model's choice (log 8), and this says that it does so. -/
def Obligations.InterruptInputsIgnored : Prop :=
  ∀ (s : State) (b c : Bool),
    step { s with irq := b, nmiEdge := c } = onState (fun t => { t with irq := b, nmiEdge := c }) (step s)

/-! ## Whole-machine frames -/

/-- R30: an instruction that completes changes no flag but those its rule lists (the lists are gathered in R35). -/
def Obligations.FlagsChangeOnlyByOwner : Prop :=
  ∀ (i : Instr) (s t : State) (f : Flag), exec i s = .next t → f ∉ flagsWritten i → testFlag t.p f = testFlag s.p f

/-- R19 (marked as derived): an instruction that completes changes no register but those its row lists. It never changes
FAULT (R32) or the optional inputs (R182; that this State holds them with and without interrupt lines is log 8). -/
def Obligations.RegistersChangeOnlyByOwner : Prop :=
  ∀ (i : Instr) (s t : State), exec i s = .next t →
    (writesA i = false → t.a = s.a) ∧ (writesX i = false → t.x = s.x) ∧ (writesY i = false → t.y = s.y) ∧
    (writesS i = false → t.sp = s.sp) ∧ t.fault = s.fault ∧ t.irq = s.irq ∧ t.nmiEdge = s.nmiEdge

/-- An instruction or form that stores nothing leaves every byte of memory as it was. -/
def Obligations.NonStoringFrame : Prop :=
  ∀ (i : Instr) (s t : State), exec i s = .next t → storesMemory i = false → ∀ a : Word, t.peek a = s.peek a

/-- A store or a memory read-modify-write changes no byte but the one at the effective address its operand resolves
to. -/
def Obligations.StoringFrame : Prop :=
  ∀ (i : Instr) (s t s1 : State) (ea : Word) (crossed : Bool),
    (i = .sta i.form ∨ i = .stx i.form ∨ i = .sty i.form ∨ i = .asl i.form ∨ i = .lsr i.form ∨ i = .rol i.form ∨
      i = .ror i.form ∨ i = .inc i.form ∨ i = .dec i.form) →
    exec i s = .next t → resolve i.form s = .next (.address ea crossed, s1) →
    ∀ a : Word, cellOf a ≠ cellOf ea → t.peek a = s.peek a

/-- A push, call or break changes no byte but the stack bytes it pushes to. -/
def Obligations.PushingFrame : Prop :=
  ∀ (i : Instr) (s t : State), i = .pha ∨ i = .php ∨ i = .brk ∨ (∃ target, i = .jsr target) →
    exec i s = .next t → ∀ a : Word, (∀ b ∈ pushAddresses i s, cellOf a ≠ cellOf b) → t.peek a = s.peek a

/-! ## The optional interrupt inputs -/

/-- R182: in every instance with interrupt lines, NMI is taken first, then IRQ while I is 0, and otherwise the run call is
that of the instance without them; all only at a run call with FAULT none and CYC 0. That State holds the inputs in every
instance is the model's (log 8). -/
def Obligations.InterruptSampling : Prop :=
  ∀ (P : Params) (s : State), P.hasInterruptLines = true →
    (s.fault = none → s.cyc = 0 → s.nmiEdge = true → stepWith P s = enterInterrupt 0xFFFA s P) ∧
    (s.fault = none → s.cyc = 0 → s.nmiEdge = false → s.irq = true → testFlag s.p .I = false →
      stepWith P s = enterInterrupt 0xFFFE s P) ∧
    (s.nmiEdge = false → s.irq = false ∨ testFlag s.p .I = true →
      stepWith P s = stepWith { P with hasInterruptLines := false } s) ∧
    (s.fault ≠ none ∨ s.cyc ≠ 0 → stepWith P s = stepWith { P with hasInterruptLines := false } s)

/-- R183: the interrupt entry for every S, in every instance with the default map, those with interrupt lines among them
(`InterruptSampling` says when their run call is this entry): the PC and P with B = 0 pushed, I set, PC from the vector,
CYC 7. That a taken NMI edge is cleared before the pushes is the model's choice (log 9), and so is the address in the fault
record of a push that overflows, PC, since no instruction was fetched (log 19). -/
def Obligations.InterruptEntry : Prop :=
  ∀ (P : Params) (s s0 s1 s2 s3 : State) (vector : Word), P.memoryMap = defaultMemoryMap →
    vector = 0xFFFA ∨ vector = 0xFFFE → s0 = { s with nmiEdge := false } →
    s1 = pushed (hiByte s.pc) s0 → s2 = pushed (loByte s.pc) s1 →
    s3 = { pushed ((s.p &&& 0xEF) ||| 0x20) s2 with p := flagsSet s.p [(.I, true)] } →
    (3 ≤ s.sp.toNat →
      ∃ lo hi : Byte, s.peek vector = some lo ∧ s.peek (vector + 1) = some hi ∧
        enterInterrupt vector s P = .next (goesTo (w16 lo hi) 7
          { s3 with busLog := s3.busLog ++ [⟨.read, vector, lo⟩, ⟨.read, vector + 1, hi⟩] })) ∧
    (s.sp = 0x02 → enterInterrupt vector s P = .fault (.stackOverflow (faulted s2 (.stackOverflow 0x00)))) ∧
    (s.sp = 0x01 → enterInterrupt vector s P = .fault (.stackOverflow (faulted s1 (.stackOverflow 0x00)))) ∧
    (s.sp = 0x00 → enterInterrupt vector s P = .fault (.stackOverflow (faulted s0 (.stackOverflow 0x00))))

/-! ## The end of a run -/

/-- R199 (decision D30): in every instance a run has at most one end, and one that fails has none; and the CORE does not
stop there: from the end marker it executes the self-loop, and four run calls later has the marker again with every
register, flag and byte as it was. -/
def Obligations.EndMarkerLoops : Prop :=
  (∀ (P : Params) (s t u : State) (j k : Nat), EndsAt s j t P → EndsAt s k u P → j = k ∧ t = u) ∧
  (∀ (P : Params) (s : State), RunFails s P → ∀ t : State, ¬ EndOfRun s t P) ∧
  ∀ s : State, AtEnd s →
    ∃ t : State, Host.Core.run core 4 s = .next t ∧ AtEnd t ∧ t = { s with busLog := t.busLog }
end

