-- ==== Sys2Proof/Laws/State.lean ====
section
/-! SUPPORT. One lemma per field per update of the state, true by rfl, so that no proof unfolds a record update. -/

namespace Sys2Proof.Machine

@[simp] theorem setA_a (s : State) (v : Byte) : (s.setA v).a = v := rfl
@[simp] theorem setA_x (s : State) (v : Byte) : (s.setA v).x = s.x := rfl
@[simp] theorem setA_y (s : State) (v : Byte) : (s.setA v).y = s.y := rfl
@[simp] theorem setA_p (s : State) (v : Byte) : (s.setA v).p = s.p := rfl
@[simp] theorem setA_sp (s : State) (v : Byte) : (s.setA v).sp = s.sp := rfl
@[simp] theorem setA_pc (s : State) (v : Byte) : (s.setA v).pc = s.pc := rfl
@[simp] theorem setA_cyc (s : State) (v : Byte) : (s.setA v).cyc = s.cyc := rfl
@[simp] theorem setA_fault (s : State) (v : Byte) : (s.setA v).fault = s.fault := rfl
@[simp] theorem setA_busLog (s : State) (v : Byte) : (s.setA v).busLog = s.busLog := rfl
@[simp] theorem setA_mem (s : State) (v : Byte) : (s.setA v).mem = s.mem := rfl
@[simp] theorem setA_irq (s : State) (v : Byte) : (s.setA v).irq = s.irq := rfl
@[simp] theorem setA_nmiEdge (s : State) (v : Byte) : (s.setA v).nmiEdge = s.nmiEdge := rfl
@[simp] theorem setA_ppuDraws (s : State) (v : Byte) : (s.setA v).ppuDraws = s.ppuDraws := rfl

@[simp] theorem setX_a (s : State) (v : Byte) : (s.setX v).a = s.a := rfl
@[simp] theorem setX_x (s : State) (v : Byte) : (s.setX v).x = v := rfl
@[simp] theorem setX_y (s : State) (v : Byte) : (s.setX v).y = s.y := rfl
@[simp] theorem setX_p (s : State) (v : Byte) : (s.setX v).p = s.p := rfl
@[simp] theorem setX_sp (s : State) (v : Byte) : (s.setX v).sp = s.sp := rfl
@[simp] theorem setX_pc (s : State) (v : Byte) : (s.setX v).pc = s.pc := rfl
@[simp] theorem setX_cyc (s : State) (v : Byte) : (s.setX v).cyc = s.cyc := rfl
@[simp] theorem setX_fault (s : State) (v : Byte) : (s.setX v).fault = s.fault := rfl
@[simp] theorem setX_busLog (s : State) (v : Byte) : (s.setX v).busLog = s.busLog := rfl
@[simp] theorem setX_mem (s : State) (v : Byte) : (s.setX v).mem = s.mem := rfl
@[simp] theorem setX_irq (s : State) (v : Byte) : (s.setX v).irq = s.irq := rfl
@[simp] theorem setX_nmiEdge (s : State) (v : Byte) : (s.setX v).nmiEdge = s.nmiEdge := rfl
@[simp] theorem setX_ppuDraws (s : State) (v : Byte) : (s.setX v).ppuDraws = s.ppuDraws := rfl

@[simp] theorem setY_a (s : State) (v : Byte) : (s.setY v).a = s.a := rfl
@[simp] theorem setY_x (s : State) (v : Byte) : (s.setY v).x = s.x := rfl
@[simp] theorem setY_y (s : State) (v : Byte) : (s.setY v).y = v := rfl
@[simp] theorem setY_p (s : State) (v : Byte) : (s.setY v).p = s.p := rfl
@[simp] theorem setY_sp (s : State) (v : Byte) : (s.setY v).sp = s.sp := rfl
@[simp] theorem setY_pc (s : State) (v : Byte) : (s.setY v).pc = s.pc := rfl
@[simp] theorem setY_cyc (s : State) (v : Byte) : (s.setY v).cyc = s.cyc := rfl
@[simp] theorem setY_fault (s : State) (v : Byte) : (s.setY v).fault = s.fault := rfl
@[simp] theorem setY_busLog (s : State) (v : Byte) : (s.setY v).busLog = s.busLog := rfl
@[simp] theorem setY_mem (s : State) (v : Byte) : (s.setY v).mem = s.mem := rfl
@[simp] theorem setY_irq (s : State) (v : Byte) : (s.setY v).irq = s.irq := rfl
@[simp] theorem setY_nmiEdge (s : State) (v : Byte) : (s.setY v).nmiEdge = s.nmiEdge := rfl
@[simp] theorem setY_ppuDraws (s : State) (v : Byte) : (s.setY v).ppuDraws = s.ppuDraws := rfl

@[simp] theorem setP_a (s : State) (v : Byte) : (s.setP v).a = s.a := rfl
@[simp] theorem setP_x (s : State) (v : Byte) : (s.setP v).x = s.x := rfl
@[simp] theorem setP_y (s : State) (v : Byte) : (s.setP v).y = s.y := rfl
@[simp] theorem setP_p (s : State) (v : Byte) : (s.setP v).p = v := rfl
@[simp] theorem setP_sp (s : State) (v : Byte) : (s.setP v).sp = s.sp := rfl
@[simp] theorem setP_pc (s : State) (v : Byte) : (s.setP v).pc = s.pc := rfl
@[simp] theorem setP_cyc (s : State) (v : Byte) : (s.setP v).cyc = s.cyc := rfl
@[simp] theorem setP_fault (s : State) (v : Byte) : (s.setP v).fault = s.fault := rfl
@[simp] theorem setP_busLog (s : State) (v : Byte) : (s.setP v).busLog = s.busLog := rfl
@[simp] theorem setP_mem (s : State) (v : Byte) : (s.setP v).mem = s.mem := rfl
@[simp] theorem setP_irq (s : State) (v : Byte) : (s.setP v).irq = s.irq := rfl
@[simp] theorem setP_nmiEdge (s : State) (v : Byte) : (s.setP v).nmiEdge = s.nmiEdge := rfl
@[simp] theorem setP_ppuDraws (s : State) (v : Byte) : (s.setP v).ppuDraws = s.ppuDraws := rfl

@[simp] theorem setSp_a (s : State) (v : Byte) : (s.setSp v).a = s.a := rfl
@[simp] theorem setSp_x (s : State) (v : Byte) : (s.setSp v).x = s.x := rfl
@[simp] theorem setSp_y (s : State) (v : Byte) : (s.setSp v).y = s.y := rfl
@[simp] theorem setSp_p (s : State) (v : Byte) : (s.setSp v).p = s.p := rfl
@[simp] theorem setSp_sp (s : State) (v : Byte) : (s.setSp v).sp = v := rfl
@[simp] theorem setSp_pc (s : State) (v : Byte) : (s.setSp v).pc = s.pc := rfl
@[simp] theorem setSp_cyc (s : State) (v : Byte) : (s.setSp v).cyc = s.cyc := rfl
@[simp] theorem setSp_fault (s : State) (v : Byte) : (s.setSp v).fault = s.fault := rfl
@[simp] theorem setSp_busLog (s : State) (v : Byte) : (s.setSp v).busLog = s.busLog := rfl
@[simp] theorem setSp_mem (s : State) (v : Byte) : (s.setSp v).mem = s.mem := rfl
@[simp] theorem setSp_irq (s : State) (v : Byte) : (s.setSp v).irq = s.irq := rfl
@[simp] theorem setSp_nmiEdge (s : State) (v : Byte) : (s.setSp v).nmiEdge = s.nmiEdge := rfl
@[simp] theorem setSp_ppuDraws (s : State) (v : Byte) : (s.setSp v).ppuDraws = s.ppuDraws := rfl

@[simp] theorem setPc_a (s : State) (v : Word) : (s.setPc v).a = s.a := rfl
@[simp] theorem setPc_x (s : State) (v : Word) : (s.setPc v).x = s.x := rfl
@[simp] theorem setPc_y (s : State) (v : Word) : (s.setPc v).y = s.y := rfl
@[simp] theorem setPc_p (s : State) (v : Word) : (s.setPc v).p = s.p := rfl
@[simp] theorem setPc_sp (s : State) (v : Word) : (s.setPc v).sp = s.sp := rfl
@[simp] theorem setPc_pc (s : State) (v : Word) : (s.setPc v).pc = v := rfl
@[simp] theorem setPc_cyc (s : State) (v : Word) : (s.setPc v).cyc = s.cyc := rfl
@[simp] theorem setPc_fault (s : State) (v : Word) : (s.setPc v).fault = s.fault := rfl
@[simp] theorem setPc_busLog (s : State) (v : Word) : (s.setPc v).busLog = s.busLog := rfl
@[simp] theorem setPc_mem (s : State) (v : Word) : (s.setPc v).mem = s.mem := rfl
@[simp] theorem setPc_irq (s : State) (v : Word) : (s.setPc v).irq = s.irq := rfl
@[simp] theorem setPc_nmiEdge (s : State) (v : Word) : (s.setPc v).nmiEdge = s.nmiEdge := rfl
@[simp] theorem setPc_ppuDraws (s : State) (v : Word) : (s.setPc v).ppuDraws = s.ppuDraws := rfl

@[simp] theorem setCyc_a (s : State) (v : Byte) : (s.setCyc v).a = s.a := rfl
@[simp] theorem setCyc_x (s : State) (v : Byte) : (s.setCyc v).x = s.x := rfl
@[simp] theorem setCyc_y (s : State) (v : Byte) : (s.setCyc v).y = s.y := rfl
@[simp] theorem setCyc_p (s : State) (v : Byte) : (s.setCyc v).p = s.p := rfl
@[simp] theorem setCyc_sp (s : State) (v : Byte) : (s.setCyc v).sp = s.sp := rfl
@[simp] theorem setCyc_pc (s : State) (v : Byte) : (s.setCyc v).pc = s.pc := rfl
@[simp] theorem setCyc_cyc (s : State) (v : Byte) : (s.setCyc v).cyc = v := rfl
@[simp] theorem setCyc_fault (s : State) (v : Byte) : (s.setCyc v).fault = s.fault := rfl
@[simp] theorem setCyc_busLog (s : State) (v : Byte) : (s.setCyc v).busLog = s.busLog := rfl
@[simp] theorem setCyc_mem (s : State) (v : Byte) : (s.setCyc v).mem = s.mem := rfl
@[simp] theorem setCyc_irq (s : State) (v : Byte) : (s.setCyc v).irq = s.irq := rfl
@[simp] theorem setCyc_nmiEdge (s : State) (v : Byte) : (s.setCyc v).nmiEdge = s.nmiEdge := rfl
@[simp] theorem setCyc_ppuDraws (s : State) (v : Byte) : (s.setCyc v).ppuDraws = s.ppuDraws := rfl

@[simp] theorem setFault_a (s : State) (f : FaultRecord) : (s.setFault f).a = s.a := rfl
@[simp] theorem setFault_x (s : State) (f : FaultRecord) : (s.setFault f).x = s.x := rfl
@[simp] theorem setFault_y (s : State) (f : FaultRecord) : (s.setFault f).y = s.y := rfl
@[simp] theorem setFault_p (s : State) (f : FaultRecord) : (s.setFault f).p = s.p := rfl
@[simp] theorem setFault_sp (s : State) (f : FaultRecord) : (s.setFault f).sp = s.sp := rfl
@[simp] theorem setFault_pc (s : State) (f : FaultRecord) : (s.setFault f).pc = s.pc := rfl
@[simp] theorem setFault_cyc (s : State) (f : FaultRecord) : (s.setFault f).cyc = s.cyc := rfl
@[simp] theorem setFault_fault (s : State) (f : FaultRecord) : (s.setFault f).fault = some f := rfl
@[simp] theorem setFault_busLog (s : State) (f : FaultRecord) : (s.setFault f).busLog = s.busLog := rfl
@[simp] theorem setFault_mem (s : State) (f : FaultRecord) : (s.setFault f).mem = s.mem := rfl
@[simp] theorem setFault_irq (s : State) (f : FaultRecord) : (s.setFault f).irq = s.irq := rfl
@[simp] theorem setFault_nmiEdge (s : State) (f : FaultRecord) : (s.setFault f).nmiEdge = s.nmiEdge := rfl
@[simp] theorem setFault_ppuDraws (s : State) (f : FaultRecord) : (s.setFault f).ppuDraws = s.ppuDraws := rfl

@[simp] theorem setMem_a (s : State) (m : Memory) : (s.setMem m).a = s.a := rfl
@[simp] theorem setMem_x (s : State) (m : Memory) : (s.setMem m).x = s.x := rfl
@[simp] theorem setMem_y (s : State) (m : Memory) : (s.setMem m).y = s.y := rfl
@[simp] theorem setMem_p (s : State) (m : Memory) : (s.setMem m).p = s.p := rfl
@[simp] theorem setMem_sp (s : State) (m : Memory) : (s.setMem m).sp = s.sp := rfl
@[simp] theorem setMem_pc (s : State) (m : Memory) : (s.setMem m).pc = s.pc := rfl
@[simp] theorem setMem_cyc (s : State) (m : Memory) : (s.setMem m).cyc = s.cyc := rfl
@[simp] theorem setMem_fault (s : State) (m : Memory) : (s.setMem m).fault = s.fault := rfl
@[simp] theorem setMem_busLog (s : State) (m : Memory) : (s.setMem m).busLog = s.busLog := rfl
@[simp] theorem setMem_mem (s : State) (m : Memory) : (s.setMem m).mem = m := rfl
@[simp] theorem setMem_irq (s : State) (m : Memory) : (s.setMem m).irq = s.irq := rfl
@[simp] theorem setMem_nmiEdge (s : State) (m : Memory) : (s.setMem m).nmiEdge = s.nmiEdge := rfl
@[simp] theorem setMem_ppuDraws (s : State) (m : Memory) : (s.setMem m).ppuDraws = s.ppuDraws := rfl

@[simp] theorem setNmiEdge_a (s : State) (b : Bool) : (s.setNmiEdge b).a = s.a := rfl
@[simp] theorem setNmiEdge_x (s : State) (b : Bool) : (s.setNmiEdge b).x = s.x := rfl
@[simp] theorem setNmiEdge_y (s : State) (b : Bool) : (s.setNmiEdge b).y = s.y := rfl
@[simp] theorem setNmiEdge_p (s : State) (b : Bool) : (s.setNmiEdge b).p = s.p := rfl
@[simp] theorem setNmiEdge_sp (s : State) (b : Bool) : (s.setNmiEdge b).sp = s.sp := rfl
@[simp] theorem setNmiEdge_pc (s : State) (b : Bool) : (s.setNmiEdge b).pc = s.pc := rfl
@[simp] theorem setNmiEdge_cyc (s : State) (b : Bool) : (s.setNmiEdge b).cyc = s.cyc := rfl
@[simp] theorem setNmiEdge_fault (s : State) (b : Bool) : (s.setNmiEdge b).fault = s.fault := rfl
@[simp] theorem setNmiEdge_busLog (s : State) (b : Bool) : (s.setNmiEdge b).busLog = s.busLog := rfl
@[simp] theorem setNmiEdge_mem (s : State) (b : Bool) : (s.setNmiEdge b).mem = s.mem := rfl
@[simp] theorem setNmiEdge_irq (s : State) (b : Bool) : (s.setNmiEdge b).irq = s.irq := rfl
@[simp] theorem setNmiEdge_nmiEdge (s : State) (b : Bool) : (s.setNmiEdge b).nmiEdge = b := rfl
@[simp] theorem setNmiEdge_ppuDraws (s : State) (b : Bool) : (s.setNmiEdge b).ppuDraws = s.ppuDraws := rfl

@[simp] theorem logAccess_a (s : State) (d : Direction) (w : Word) (v : Byte) : (s.logAccess d w v).a = s.a := rfl
@[simp] theorem logAccess_x (s : State) (d : Direction) (w : Word) (v : Byte) : (s.logAccess d w v).x = s.x := rfl
@[simp] theorem logAccess_y (s : State) (d : Direction) (w : Word) (v : Byte) : (s.logAccess d w v).y = s.y := rfl
@[simp] theorem logAccess_p (s : State) (d : Direction) (w : Word) (v : Byte) : (s.logAccess d w v).p = s.p := rfl
@[simp] theorem logAccess_sp (s : State) (d : Direction) (w : Word) (v : Byte) : (s.logAccess d w v).sp = s.sp := rfl
@[simp] theorem logAccess_pc (s : State) (d : Direction) (w : Word) (v : Byte) : (s.logAccess d w v).pc = s.pc := rfl
@[simp] theorem logAccess_cyc (s : State) (d : Direction) (w : Word) (v : Byte) : (s.logAccess d w v).cyc = s.cyc := rfl
@[simp] theorem logAccess_fault (s : State) (d : Direction) (w : Word) (v : Byte) : (s.logAccess d w v).fault = s.fault := rfl
@[simp] theorem logAccess_busLog (s : State) (d : Direction) (w : Word) (v : Byte) : (s.logAccess d w v).busLog = s.busLog ++ [⟨d, w, v⟩] := rfl
@[simp] theorem logAccess_mem (s : State) (d : Direction) (w : Word) (v : Byte) : (s.logAccess d w v).mem = s.mem := rfl
@[simp] theorem logAccess_irq (s : State) (d : Direction) (w : Word) (v : Byte) : (s.logAccess d w v).irq = s.irq := rfl
@[simp] theorem logAccess_nmiEdge (s : State) (d : Direction) (w : Word) (v : Byte) : (s.logAccess d w v).nmiEdge = s.nmiEdge := rfl
@[simp] theorem logAccess_ppuDraws (s : State) (d : Direction) (w : Word) (v : Byte) : (s.logAccess d w v).ppuDraws = s.ppuDraws := rfl

@[simp] theorem nextDraw_a (s : State) : (s.nextDraw).a = s.a := rfl
@[simp] theorem nextDraw_x (s : State) : (s.nextDraw).x = s.x := rfl
@[simp] theorem nextDraw_y (s : State) : (s.nextDraw).y = s.y := rfl
@[simp] theorem nextDraw_p (s : State) : (s.nextDraw).p = s.p := rfl
@[simp] theorem nextDraw_sp (s : State) : (s.nextDraw).sp = s.sp := rfl
@[simp] theorem nextDraw_pc (s : State) : (s.nextDraw).pc = s.pc := rfl
@[simp] theorem nextDraw_cyc (s : State) : (s.nextDraw).cyc = s.cyc := rfl
@[simp] theorem nextDraw_fault (s : State) : (s.nextDraw).fault = s.fault := rfl
@[simp] theorem nextDraw_busLog (s : State) : (s.nextDraw).busLog = s.busLog := rfl
@[simp] theorem nextDraw_mem (s : State) : (s.nextDraw).mem = s.mem := rfl
@[simp] theorem nextDraw_irq (s : State) : (s.nextDraw).irq = s.irq := rfl
@[simp] theorem nextDraw_nmiEdge (s : State) : (s.nextDraw).nmiEdge = s.nmiEdge := rfl
@[simp] theorem nextDraw_ppuDraws (s : State) : (s.nextDraw).ppuDraws = s.ppuDraws + 1 := rfl

@[simp] theorem charge_a (s : State) (c : Nat) : (s.charge c).a = s.a := rfl
@[simp] theorem charge_x (s : State) (c : Nat) : (s.charge c).x = s.x := rfl
@[simp] theorem charge_y (s : State) (c : Nat) : (s.charge c).y = s.y := rfl
@[simp] theorem charge_p (s : State) (c : Nat) : (s.charge c).p = s.p := rfl
@[simp] theorem charge_sp (s : State) (c : Nat) : (s.charge c).sp = s.sp := rfl
@[simp] theorem charge_pc (s : State) (c : Nat) : (s.charge c).pc = s.pc := rfl
@[simp] theorem charge_cyc (s : State) (c : Nat) : (s.charge c).cyc = BitVec.ofNat 8 c := rfl
@[simp] theorem charge_fault (s : State) (c : Nat) : (s.charge c).fault = s.fault := rfl
@[simp] theorem charge_busLog (s : State) (c : Nat) : (s.charge c).busLog = s.busLog := rfl
@[simp] theorem charge_mem (s : State) (c : Nat) : (s.charge c).mem = s.mem := rfl
@[simp] theorem charge_irq (s : State) (c : Nat) : (s.charge c).irq = s.irq := rfl
@[simp] theorem charge_nmiEdge (s : State) (c : Nat) : (s.charge c).nmiEdge = s.nmiEdge := rfl
@[simp] theorem charge_ppuDraws (s : State) (c : Nat) : (s.charge c).ppuDraws = s.ppuDraws := rfl

@[simp] theorem advance_a (s : State) (i : Instr) (b : Bool) (P : Params) : (s.advance i b P).a = s.a := rfl
@[simp] theorem advance_x (s : State) (i : Instr) (b : Bool) (P : Params) : (s.advance i b P).x = s.x := rfl
@[simp] theorem advance_y (s : State) (i : Instr) (b : Bool) (P : Params) : (s.advance i b P).y = s.y := rfl
@[simp] theorem advance_p (s : State) (i : Instr) (b : Bool) (P : Params) : (s.advance i b P).p = s.p := rfl
@[simp] theorem advance_sp (s : State) (i : Instr) (b : Bool) (P : Params) : (s.advance i b P).sp = s.sp := rfl
@[simp] theorem advance_pc (s : State) (i : Instr) (b : Bool) (P : Params) : (s.advance i b P).pc = s.pc + BitVec.ofNat 16 (instrLength i) := rfl
@[simp] theorem advance_cyc (s : State) (i : Instr) (b : Bool) (P : Params) : (s.advance i b P).cyc = BitVec.ofNat 8 (cycles i b P) := rfl
@[simp] theorem advance_fault (s : State) (i : Instr) (b : Bool) (P : Params) : (s.advance i b P).fault = s.fault := rfl
@[simp] theorem advance_busLog (s : State) (i : Instr) (b : Bool) (P : Params) : (s.advance i b P).busLog = s.busLog := rfl
@[simp] theorem advance_mem (s : State) (i : Instr) (b : Bool) (P : Params) : (s.advance i b P).mem = s.mem := rfl
@[simp] theorem advance_irq (s : State) (i : Instr) (b : Bool) (P : Params) : (s.advance i b P).irq = s.irq := rfl
@[simp] theorem advance_nmiEdge (s : State) (i : Instr) (b : Bool) (P : Params) : (s.advance i b P).nmiEdge = s.nmiEdge := rfl
@[simp] theorem advance_ppuDraws (s : State) (i : Instr) (b : Bool) (P : Params) : (s.advance i b P).ppuDraws = s.ppuDraws := rfl

@[simp] theorem jump_a (s : State) (i : Instr) (t : Word) (P : Params) : (s.jump i t P).a = s.a := rfl
@[simp] theorem jump_x (s : State) (i : Instr) (t : Word) (P : Params) : (s.jump i t P).x = s.x := rfl
@[simp] theorem jump_y (s : State) (i : Instr) (t : Word) (P : Params) : (s.jump i t P).y = s.y := rfl
@[simp] theorem jump_p (s : State) (i : Instr) (t : Word) (P : Params) : (s.jump i t P).p = s.p := rfl
@[simp] theorem jump_sp (s : State) (i : Instr) (t : Word) (P : Params) : (s.jump i t P).sp = s.sp := rfl
@[simp] theorem jump_pc (s : State) (i : Instr) (t : Word) (P : Params) : (s.jump i t P).pc = t := rfl
@[simp] theorem jump_cyc (s : State) (i : Instr) (t : Word) (P : Params) : (s.jump i t P).cyc = BitVec.ofNat 8 (cycles i false P) := rfl
@[simp] theorem jump_fault (s : State) (i : Instr) (t : Word) (P : Params) : (s.jump i t P).fault = s.fault := rfl
@[simp] theorem jump_busLog (s : State) (i : Instr) (t : Word) (P : Params) : (s.jump i t P).busLog = s.busLog := rfl
@[simp] theorem jump_mem (s : State) (i : Instr) (t : Word) (P : Params) : (s.jump i t P).mem = s.mem := rfl
@[simp] theorem jump_irq (s : State) (i : Instr) (t : Word) (P : Params) : (s.jump i t P).irq = s.irq := rfl
@[simp] theorem jump_nmiEdge (s : State) (i : Instr) (t : Word) (P : Params) : (s.jump i t P).nmiEdge = s.nmiEdge := rfl
@[simp] theorem jump_ppuDraws (s : State) (i : Instr) (t : Word) (P : Params) : (s.jump i t P).ppuDraws = s.ppuDraws := rfl

/-- `advance` is the fall-through of Safety.lean (R81, R85). -/
theorem advance_eq_fallsThrough (s : State) (i : Instr) (b : Bool) : s.advance i b = fallsThrough i b s := rfl

/-! The default instance (R8). -/

@[simp] theorem default_memoryMap : Params.default.memoryMap = defaultMemoryMap := rfl
@[simp] theorem default_unofficialNops : Params.default.unofficialNops = defaultUnofficialNops := rfl
@[simp] theorem default_cycles : Params.default.cycles = defaultCycles := rfl
@[simp] theorem default_hasInterruptLines : Params.default.hasInterruptLines = false := rfl

/-! The reset values the spec states (R33, R189). -/

@[simp] theorem launch_reset_sp (l : Launch) : l.reset.sp = 0xFD := rfl
@[simp] theorem launch_reset_cyc (l : Launch) : l.reset.cyc = 0 := rfl
@[simp] theorem launch_reset_fault (l : Launch) : l.reset.fault = none := rfl
@[simp] theorem launch_reset_busLog (l : Launch) : l.reset.busLog = [] := rfl
@[simp] theorem launch_reset_mem (l : Launch) : l.reset.mem = l.memory := rfl

/-- `State.reset` written out (R33, log 1 to log 5, log 8). -/
theorem reset_eq :
    State.reset =
      { a := 0, x := 0, y := 0, p := 0x34, sp := 0xFD, pc := 0, cyc := 0, fault := none, busLog := [], mem := [],
        irq := false, nmiEdge := false, ppuDraws := 0 } := rfl

end Sys2Proof.Machine
end

