-- ==== Sys2Proof/Laws/Memory.lean ====
section
/-! SUPPORT. The laws of the memory list: a read after a write to the same cell gives the byte, a write leaves every other
cell alone, every operation keeps the canonical form, and canonical memories that read alike are equal. -/

namespace Sys2Proof.Machine

@[simp] theorem readCell_nil (k : Nat) : readCell [] k = blankByte := rfl

theorem readCell_writeCell_same (m : Memory) (k : Nat) (v : Byte) (h : m.Pairwise (fun c d => c.1 < d.1)) :
    readCell (writeCell m k v) k = v := by
  induction m with
  | nil => by_cases hv : v = blankByte <;> simp [writeCell, readCell, hv]
  | cons c rest ih =>
    obtain ⟨k', v'⟩ := c
    obtain ⟨hlt, hrest⟩ := List.pairwise_cons.1 h
    have absent : ∀ j, j ≤ k' → readCell rest j = blankByte := by
      intro j hj
      clear ih h hrest
      induction rest with
      | nil => rfl
      | cons d ds ihd =>
        have hd : k' < d.1 := hlt d (by simp)
        have hne : d.1 ≠ j := by omega
        simpa [readCell, hne] using ihd fun e he => hlt e (by simp [he])
    simp only [writeCell]
    split
    · next hk =>
      have hne : k' ≠ k := by omega
      by_cases hv : v = blankByte <;> simp [hv, readCell, hne, absent k (by omega)]
    · split
      · next hk => by_cases hv : v = blankByte <;> simp [hv, readCell, absent k (by omega)]
      · next h1 h2 =>
        have hne : k' ≠ k := by omega
        simpa [readCell, hne] using ih hrest

theorem readCell_writeCell_ne (m : Memory) (k j : Nat) (v : Byte) (hj : j ≠ k) :
    readCell (writeCell m k v) j = readCell m j := by
  have hkj : k ≠ j := fun h => hj h.symm
  induction m with
  | nil => by_cases hv : v = blankByte <;> simp [writeCell, readCell, hv, hkj]
  | cons c rest ih =>
    obtain ⟨k', v'⟩ := c
    simp only [writeCell]
    split
    · by_cases hv : v = blankByte <;> simp [hv, readCell, hkj]
    · split
      · next hk =>
        have hne : k' ≠ j := by omega
        by_cases hv : v = blankByte <;> simp [hv, readCell, hkj, hne]
      · by_cases h : k' = j <;> simp [readCell, h, ih]

/-- What a cell of the written list is: the new one, or an old one. -/
theorem mem_writeCell {m : Memory} {k : Nat} {v : Byte} {c : Host.Cell} (h : c ∈ writeCell m k v) :
    (c = (k, v) ∧ v ≠ blankByte) ∨ c ∈ m := by
  induction m with
  | nil => by_cases hv : v = blankByte <;> simp_all [writeCell]
  | cons d rest ih =>
    obtain ⟨k', v'⟩ := d
    simp only [writeCell] at h
    split at h
    · by_cases hv : v = blankByte <;> simp_all
    · split at h
      · by_cases hv : v = blankByte
        · simp_all
        · simp_all
          tauto
      · rcases List.mem_cons.1 h with h | h
        · exact .inr (by simp [h])
        · exact (ih h).imp id fun h => by simp [h]

theorem writeCell_keeps_wf {m : Memory} {k : Nat} {v : Byte} (h : Memory.wf m) (hk : isCell k = true) :
    Memory.wf (writeCell m k v) := by
  refine ⟨?_, fun c hc => ?_⟩
  · obtain ⟨hs, -⟩ := h
    induction m with
    | nil => by_cases hv : v = blankByte <;> simp [writeCell, hv]
    | cons d rest ih =>
      obtain ⟨k', v'⟩ := d
      obtain ⟨hlt, hrest⟩ := List.pairwise_cons.1 hs
      simp only [writeCell]
      split
      · next hk' =>
        by_cases hv : v = blankByte
        · simpa [hv] using hs
        · simp only [hv, if_false]
          refine List.pairwise_cons.2 ⟨fun e he => ?_, hs⟩
          rcases List.mem_cons.1 he with rfl | he
          · exact hk'
          · exact Nat.lt_trans hk' (hlt e he)
      · split
        · next hk' =>
          by_cases hv : v = blankByte
          · simpa [hv] using hrest
          · simp only [hv, if_false]
            exact List.pairwise_cons.2 ⟨fun e he => by have := hlt e he; simp_all, hrest⟩
        · next h1 h2 =>
          refine List.pairwise_cons.2 ⟨fun e he => ?_, ih hrest⟩
          rcases mem_writeCell he with ⟨rfl, -⟩ | he
          · show k' < k
            omega
          · exact hlt e he
  · rcases mem_writeCell hc with ⟨rfl, hv⟩ | hc
    · exact ⟨hk, hv⟩
    · exact h.2 c hc

theorem loadCells_keeps_wf {m : Memory} {base : Nat} {vs : List Byte} (h : Memory.wf m)
    (hk : ∀ j, j < vs.length → isCell (base + j) = true) : Memory.wf (loadCells m base vs) := by
  induction vs generalizing m base with
  | nil => exact h
  | cons v vs ih =>
    refine ih (writeCell_keeps_wf h (by simpa using hk 0 (by simp))) fun j hj => ?_
    have := hk (j + 1) (by simpa using hj)
    rwa [show base + 1 + j = base + (j + 1) by omega]

theorem launch_memory_wf (l : Launch) : Memory.wf l.memory := by
  refine loadCells_keeps_wf (loadCells_keeps_wf (loadCells_keeps_wf ⟨.nil, by simp⟩ ?_) ?_) ?_ <;>
    · intro j hj
      simp only [List.length_take] at hj
      simp [isCell]
      omega

/-- A cell below the first listed one is not listed. -/
theorem readCell_below {m : Memory} {k : Nat} (h : ∀ c ∈ m, k < c.1) : readCell m k = blankByte := by
  induction m with
  | nil => rfl
  | cons c rest ih =>
    have hne : c.1 ≠ k := Nat.ne_of_gt (h c (by simp))
    simpa [readCell, hne] using ih fun d hd => h d (by simp [hd])

/-- Canonical memories that read alike are equal data. -/
theorem memory_ext {m n : Memory} (hm : Memory.wf m) (hn : Memory.wf n) (h : ∀ k, readCell m k = readCell n k) : m = n := by
  induction m generalizing n with
  | nil =>
    cases n with
    | nil => rfl
    | cons d ds =>
      have := h d.1
      simp only [readCell, if_true] at this
      exact absurd this.symm (hn.2 d (by simp)).2
  | cons c cs ih =>
    obtain ⟨hclt, hcs⟩ := List.pairwise_cons.1 hm.1
    cases n with
    | nil =>
      have := h c.1
      simp only [readCell, if_true] at this
      exact absurd this (hm.2 c (by simp)).2
    | cons d ds =>
      obtain ⟨hdlt, hds⟩ := List.pairwise_cons.1 hn.1
      have hcd : c.1 = d.1 := by
        rcases Nat.lt_trichotomy c.1 d.1 with hlt | heq | hgt
        · have hz : readCell (d :: ds) c.1 = blankByte := readCell_below (by
            intro e he
            rcases List.mem_cons.1 he with rfl | he
            · exact hlt
            · exact Nat.lt_trans hlt (hdlt e he))
          have := h c.1
          rw [hz] at this
          simp only [readCell, if_true] at this
          exact absurd this (hm.2 c (by simp)).2
        · exact heq
        · have hz : readCell (c :: cs) d.1 = blankByte := readCell_below (by
            intro e he
            rcases List.mem_cons.1 he with rfl | he
            · exact hgt
            · exact Nat.lt_trans hgt (hclt e he))
          have := h d.1
          rw [hz] at this
          simp only [readCell, if_true] at this
          exact absurd this.symm (hn.2 d (by simp)).2
      have hval : c.2 = d.2 := by
        have := h c.1
        simp only [readCell, hcd, if_true] at this
        exact this
      have hrest : cs = ds := by
        refine ih ⟨hcs, fun e he => hm.2 e (by simp [he])⟩ ⟨hds, fun e he => hn.2 e (by simp [he])⟩ fun k => ?_
        by_cases hk : c.1 = k
        · rw [readCell_below (m := cs) (fun e he => hk ▸ hclt e he),
            readCell_below (m := ds) (fun e he => hk ▸ hcd ▸ hdlt e he)]
        · have := h k
          simpa [readCell, hk, hcd ▸ hk] using this
      rw [hrest, Prod.ext hcd hval]

/-! ## The map -/

/-- `a & $07FF` is `a mod 2048` (R41). -/
theorem ramCell_eq (a : Word) : ramCell a = a.toNat % 2048 := by
  simp only [ramCell, BitVec.toNat_and]
  exact Nat.and_two_pow_sub_one_eq_mod _ 11

/-- The offset into ROM bank one is `a mod 16384` (R40). -/
theorem romOneCell_eq (a : Word) : romOneCell a = 0x8000 + a.toNat % 16384 := by
  simp only [romOneCell, BitVec.toNat_and]
  exact congrArg _ (Nat.and_two_pow_sub_one_eq_mod _ 14)

/-- The offset into ROM bank two is `a mod 16384` (R40). -/
theorem romTwoCell_eq (a : Word) : romTwoCell a = 0xC000 + a.toNat % 16384 := by
  simp only [romTwoCell, BitVec.toNat_and]
  exact congrArg _ (Nat.and_two_pow_sub_one_eq_mod _ 14)

/-- The backing cell of an address is a cell, in every instance (R40). -/
theorem cellOf_isCell {a : Word} {P : Params} {k : Nat} (h : cellOf a P = some k) : isCell k = true := by
  unfold cellOf regionCell at h
  split at h <;> simp_all [isCell, ramCell_eq, romOneCell_eq, romTwoCell_eq] <;> omega

/-- A page-zero address is RAM, its own cell (R41). -/
theorem classify_zero_page (b : Byte) : classify (zext16 b) = .ram := by
  have := b.isLt
  have hb : (zext16 b).toNat = b.toNat := by simp [zext16]; omega
  simp [classify, defaultMemoryMap, hb]
  omega

/-- A stack address is RAM (R49, R55). -/
theorem classify_stack (sp : Byte) : classify (stackAddress sp) = .ram := by
  have := sp.isLt
  have h : (stackAddress sp).toNat = 256 + sp.toNat := by
    simp [stackAddress, zext16, BitVec.toNat_add]
    omega
  simp [classify, defaultMemoryMap, h]
  omega

end Sys2Proof.Machine
end

