-- ==== Sys2Proof/Laws/Bus.lean ====
section
/-! SUPPORT. What sequencing, the bus accesses and the stack primitives can do, each said once. -/

namespace Sys2Proof.Machine

/-! ## Sequencing -/

@[simp] theorem andThen_next {α β : Type} (v : α) (k : α → Result β) : andThen (.next v) k = k v := rfl
@[simp] theorem andThen_fault {α β : Type} (f : Fault) (k : α → Result β) : andThen (.fault f) k = .fault f := rfl
@[simp] theorem andThen_refused {α β : Type} (q : Refusal) (k : α → Result β) : andThen (.refused q) k = .refused q := rfl
@[simp] theorem andThen_raise {α β : Type} (kind : FaultKind) (s : State) (k : α → Result β) :
    andThen (raise kind s) k = raise kind s := rfl

theorem andThen_eq_next {α β : Type} {r : Result α} {k : α → Result β} {v : β} :
    andThen r k = .next v ↔ ∃ u, r = .next u ∧ k u = .next v := by
  cases r <;> simp

theorem andThen_eq_fault {α β : Type} {r : Result α} {k : α → Result β} {f : Fault} :
    andThen r k = .fault f ↔ r = .fault f ∨ ∃ u, r = .next u ∧ k u = .fault f := by
  cases r <;> simp

theorem andThen_eq_refused {α β : Type} {r : Result α} {k : α → Result β} {q : Refusal} :
    andThen r k = .refused q ↔ r = .refused q ∨ ∃ u, r = .next u ∧ k u = .refused q := by
  cases r <;> simp

@[simp] theorem raise_ne_next {α : Type} (kind : FaultKind) (s : State) (v : α) : (raise kind s : Result α) ≠ .next v := by
  simp [raise]

@[simp] theorem faultState_faultOf (kind : FaultKind) (s : State) : faultState (faultOf kind s) = s := by
  cases kind <;> rfl

/-- A raised fault leaves the state it was raised in but for FAULT (R177). -/
theorem raise_eq_fault {α : Type} {kind : FaultKind} {s : State} {f : Fault} (h : (raise kind s : Result α) = .fault f) :
    faultState f = s.setFault ⟨kind, s.pc⟩ := by
  simp only [raise, Host.Outcome.fault.injEq] at h
  simp [← h]

/-! ## The bus -/

@[simp] theorem peek_setA (s : State) (v : Byte) (a : Word) (P : Params) : (s.setA v).peek a P = s.peek a P := rfl
@[simp] theorem peek_setX (s : State) (v : Byte) (a : Word) (P : Params) : (s.setX v).peek a P = s.peek a P := rfl
@[simp] theorem peek_setY (s : State) (v : Byte) (a : Word) (P : Params) : (s.setY v).peek a P = s.peek a P := rfl
@[simp] theorem peek_setP (s : State) (v : Byte) (a : Word) (P : Params) : (s.setP v).peek a P = s.peek a P := rfl
@[simp] theorem peek_setSp (s : State) (v : Byte) (a : Word) (P : Params) : (s.setSp v).peek a P = s.peek a P := rfl
@[simp] theorem peek_setPc (s : State) (v : Word) (a : Word) (P : Params) : (s.setPc v).peek a P = s.peek a P := rfl
@[simp] theorem peek_setCyc (s : State) (v : Byte) (a : Word) (P : Params) : (s.setCyc v).peek a P = s.peek a P := rfl
@[simp] theorem peek_charge (s : State) (c : Nat) (a : Word) (P : Params) : (s.charge c).peek a P = s.peek a P := rfl
@[simp] theorem peek_advance (s : State) (i : Instr) (b : Bool) (P : Params) (a : Word) (Q : Params) :
    (s.advance i b P).peek a Q = s.peek a Q := rfl
@[simp] theorem peek_jump (s : State) (i : Instr) (t : Word) (P : Params) (a : Word) (Q : Params) :
    (s.jump i t P).peek a Q = s.peek a Q := rfl
@[simp] theorem peek_logAccess (s : State) (d : Direction) (w : Word) (v : Byte) (a : Word) (P : Params) :
    (s.logAccess d w v).peek a P = s.peek a P := rfl
@[simp] theorem peek_nextDraw (s : State) (a : Word) (P : Params) : s.nextDraw.peek a P = s.peek a P := rfl

/-- A mapped read answers the byte there and leaves the state after it (R44). -/
theorem memRead_mapped {a : Word} {P : Params} (s : State) (h : Mapped a P) :
    memRead a s P = .next (byteAt s a P, afterRead s a P) := by
  unfold memRead byteAt afterRead State.peek cellOf
  cases hc : classify a P <;> simp_all [byteAt, State.peek, cellOf, regionCell]

/-- An unmapped read faults and does nothing else (R44, R171). -/
theorem memRead_unmapped {a : Word} {P : Params} (s : State) (h : classify a P = .unmapped) :
    memRead a s P = raise (.unmappedAccess a .read) s := by
  simp [memRead, h]

theorem memRead_eq_next {a : Word} {s : State} {P : Params} {r : Byte × State} :
    memRead a s P = .next r ↔ Mapped a P ∧ r = (byteAt s a P, afterRead s a P) := by
  by_cases h : classify a P = .unmapped
  · simp [memRead_unmapped s h, Mapped, h]
  · simp [memRead_mapped s h, Mapped, h, eq_comm]

/-- A writable address takes the byte (R45). -/
theorem memWrite_writable {a : Word} {P : Params} (v : Byte) (s : State) (h : Writable a P) :
    memWrite a v s P = .next (afterWrite s a v P) := by
  rcases h with h | h | h <;> simp [memWrite, afterWrite, State.poke, cellOf, regionCell, h]

/-- A write to ROM faults and does nothing else (R42, R172). -/
theorem memWrite_rom {a : Word} {P : Params} (v : Byte) (s : State) (h : InRom a P) :
    memWrite a v s P = raise (.romWrite a v) s := by
  rcases h with h | h <;> simp [memWrite, h]

/-- An unmapped write faults and does nothing else (R45, R171). -/
theorem memWrite_unmapped {a : Word} {P : Params} (v : Byte) (s : State) (h : classify a P = .unmapped) :
    memWrite a v s P = raise (.unmappedAccess a .write) s := by
  simp [memWrite, h]

theorem memWrite_eq_next {a : Word} {v : Byte} {P : Params} {s t : State} :
    memWrite a v s P = .next t ↔ Writable a P ∧ t = afterWrite s a v P := by
  cases hc : classify a P
  · simp [memWrite_writable v s (.inl hc), Writable, hc, eq_comm]
  · simp [memWrite_writable v s (.inr (.inl hc)), Writable, hc, eq_comm]
  · simp [memWrite_writable v s (.inr (.inr hc)), Writable, hc, eq_comm]
  · simp [memWrite_unmapped v s hc, Writable, hc]
  · simp [memWrite_rom v s (.inl hc), Writable, hc]
  · simp [memWrite_rom v s (.inr hc), Writable, hc]

/-- A bus access never refuses. -/
theorem memRead_ne_refused (a : Word) (s : State) (P : Params) (q : Refusal) : memRead a s P ≠ .refused q := by
  unfold memRead
  split <;> simp [raise]

theorem memWrite_ne_refused (a : Word) (v : Byte) (s : State) (P : Params) (q : Refusal) : memWrite a v s P ≠ .refused q := by
  unfold memWrite
  split <;> simp [raise]

/-! What a read leaves unchanged: everything but the log and the draw counter (R46). -/

@[simp] theorem afterRead_a (s : State) (w : Word) (P : Params) : (afterRead s w P).a = s.a := by unfold afterRead; split <;> rfl
@[simp] theorem afterRead_x (s : State) (w : Word) (P : Params) : (afterRead s w P).x = s.x := by unfold afterRead; split <;> rfl
@[simp] theorem afterRead_y (s : State) (w : Word) (P : Params) : (afterRead s w P).y = s.y := by unfold afterRead; split <;> rfl
@[simp] theorem afterRead_p (s : State) (w : Word) (P : Params) : (afterRead s w P).p = s.p := by unfold afterRead; split <;> rfl
@[simp] theorem afterRead_sp (s : State) (w : Word) (P : Params) : (afterRead s w P).sp = s.sp := by unfold afterRead; split <;> rfl
@[simp] theorem afterRead_pc (s : State) (w : Word) (P : Params) : (afterRead s w P).pc = s.pc := by unfold afterRead; split <;> rfl
@[simp] theorem afterRead_cyc (s : State) (w : Word) (P : Params) : (afterRead s w P).cyc = s.cyc := by unfold afterRead; split <;> rfl
@[simp] theorem afterRead_fault (s : State) (w : Word) (P : Params) : (afterRead s w P).fault = s.fault := by
  unfold afterRead; split <;> rfl
@[simp] theorem afterRead_mem (s : State) (w : Word) (P : Params) : (afterRead s w P).mem = s.mem := by unfold afterRead; split <;> rfl
@[simp] theorem afterRead_irq (s : State) (w : Word) (P : Params) : (afterRead s w P).irq = s.irq := by unfold afterRead; split <;> rfl
@[simp] theorem afterRead_nmiEdge (s : State) (w : Word) (P : Params) : (afterRead s w P).nmiEdge = s.nmiEdge := by
  unfold afterRead; split <;> rfl
@[simp] theorem afterRead_busLog (s : State) (w : Word) (P : Params) :
    (afterRead s w P).busLog = s.busLog ++ [⟨.read, w, byteAt s w P⟩] := by
  unfold afterRead; split <;> rfl
@[simp] theorem peek_afterRead (s : State) (w a : Word) (P : Params) : (afterRead s w P).peek a P = s.peek a P := by
  unfold afterRead; split <;> rfl

/-! What a write leaves unchanged: everything but the log and the stored cell. -/

@[simp] theorem poke_a (s : State) (w : Word) (v : Byte) (P : Params) : (s.poke w v P).a = s.a := by unfold State.poke; split <;> rfl
@[simp] theorem poke_x (s : State) (w : Word) (v : Byte) (P : Params) : (s.poke w v P).x = s.x := by unfold State.poke; split <;> rfl
@[simp] theorem poke_y (s : State) (w : Word) (v : Byte) (P : Params) : (s.poke w v P).y = s.y := by unfold State.poke; split <;> rfl
@[simp] theorem poke_p (s : State) (w : Word) (v : Byte) (P : Params) : (s.poke w v P).p = s.p := by unfold State.poke; split <;> rfl
@[simp] theorem poke_sp (s : State) (w : Word) (v : Byte) (P : Params) : (s.poke w v P).sp = s.sp := by unfold State.poke; split <;> rfl
@[simp] theorem poke_pc (s : State) (w : Word) (v : Byte) (P : Params) : (s.poke w v P).pc = s.pc := by unfold State.poke; split <;> rfl
@[simp] theorem poke_cyc (s : State) (w : Word) (v : Byte) (P : Params) : (s.poke w v P).cyc = s.cyc := by unfold State.poke; split <;> rfl
@[simp] theorem poke_fault (s : State) (w : Word) (v : Byte) (P : Params) : (s.poke w v P).fault = s.fault := by
  unfold State.poke; split <;> rfl
@[simp] theorem poke_busLog (s : State) (w : Word) (v : Byte) (P : Params) : (s.poke w v P).busLog = s.busLog := by
  unfold State.poke; split <;> rfl
@[simp] theorem poke_irq (s : State) (w : Word) (v : Byte) (P : Params) : (s.poke w v P).irq = s.irq := by unfold State.poke; split <;> rfl
@[simp] theorem poke_nmiEdge (s : State) (w : Word) (v : Byte) (P : Params) : (s.poke w v P).nmiEdge = s.nmiEdge := by
  unfold State.poke; split <;> rfl
@[simp] theorem poke_ppuDraws (s : State) (w : Word) (v : Byte) (P : Params) : (s.poke w v P).ppuDraws = s.ppuDraws := by
  unfold State.poke; split <;> rfl

/-- A byte poked is read back at every address of the same cell. -/
theorem peek_poke_same {s : State} {w a : Word} {P : Params} {k : Nat} (v : Byte) (hm : Memory.wf s.mem)
    (hw : cellOf w P = some k) (ha : cellOf a P = some k) : (s.poke w v P).peek a P = some v := by
  simp [State.poke, State.peek, hw, ha, readCell_writeCell_same _ _ _ hm.1]

/-- A poke changes no address of another cell. -/
theorem peek_poke_ne {s : State} {w a : Word} {P : Params} (v : Byte) (h : cellOf a P ≠ cellOf w P) :
    (s.poke w v P).peek a P = s.peek a P := by
  unfold State.poke State.peek
  cases hw : cellOf w P with
  | none => rfl
  | some k =>
    cases ha : cellOf a P with
    | none => rfl
    | some j =>
      have : j ≠ k := fun h' => h (by rw [ha, hw, h'])
      simp [readCell_writeCell_ne _ _ _ _ this]

theorem poke_keeps_wf {s : State} {P : Params} (w : Word) (v : Byte) (hm : Memory.wf s.mem) :
    Memory.wf (s.poke w v P).mem := by
  unfold State.poke
  cases hw : cellOf w P with
  | none => exact hm
  | some k => exact writeCell_keeps_wf hm (cellOf_isCell hw)

@[simp] theorem afterWrite_a (s : State) (w : Word) (v : Byte) (P : Params) : (afterWrite s w v P).a = s.a := by
  simp [afterWrite]
@[simp] theorem afterWrite_x (s : State) (w : Word) (v : Byte) (P : Params) : (afterWrite s w v P).x = s.x := by
  simp [afterWrite]
@[simp] theorem afterWrite_y (s : State) (w : Word) (v : Byte) (P : Params) : (afterWrite s w v P).y = s.y := by
  simp [afterWrite]
@[simp] theorem afterWrite_p (s : State) (w : Word) (v : Byte) (P : Params) : (afterWrite s w v P).p = s.p := by
  simp [afterWrite]
@[simp] theorem afterWrite_sp (s : State) (w : Word) (v : Byte) (P : Params) : (afterWrite s w v P).sp = s.sp := by
  simp [afterWrite]
@[simp] theorem afterWrite_pc (s : State) (w : Word) (v : Byte) (P : Params) : (afterWrite s w v P).pc = s.pc := by
  simp [afterWrite]
@[simp] theorem afterWrite_cyc (s : State) (w : Word) (v : Byte) (P : Params) : (afterWrite s w v P).cyc = s.cyc := by
  simp [afterWrite]
@[simp] theorem afterWrite_fault (s : State) (w : Word) (v : Byte) (P : Params) : (afterWrite s w v P).fault = s.fault := by
  simp [afterWrite]
@[simp] theorem afterWrite_irq (s : State) (w : Word) (v : Byte) (P : Params) : (afterWrite s w v P).irq = s.irq := by
  simp [afterWrite]
@[simp] theorem afterWrite_nmiEdge (s : State) (w : Word) (v : Byte) (P : Params) : (afterWrite s w v P).nmiEdge = s.nmiEdge := by
  simp [afterWrite]
@[simp] theorem afterWrite_ppuDraws (s : State) (w : Word) (v : Byte) (P : Params) : (afterWrite s w v P).ppuDraws = s.ppuDraws := by
  simp [afterWrite]
@[simp] theorem afterWrite_busLog (s : State) (w : Word) (v : Byte) (P : Params) :
    (afterWrite s w v P).busLog = s.busLog ++ [⟨.write, w, v⟩] := by
  simp [afterWrite]

/-- A write changes no address of another cell. -/
theorem peek_afterWrite_ne {s : State} {w a : Word} {P : Params} (v : Byte) (h : cellOf a P ≠ cellOf w P) :
    (afterWrite s w v P).peek a P = s.peek a P := peek_poke_ne (s := s.logAccess .write w v) v h

/-- A byte written is read back at every address of the same cell (R41). -/
theorem peek_afterWrite_same {s : State} {w a : Word} {P : Params} {k : Nat} (v : Byte) (hm : Memory.wf s.mem)
    (hw : cellOf w P = some k) (ha : cellOf a P = some k) : (afterWrite s w v P).peek a P = some v :=
  peek_poke_same (s := s.logAccess .write w v) v hm hw ha

theorem afterWrite_keeps_wf {s : State} {P : Params} (w : Word) (v : Byte) (hm : Memory.wf s.mem) :
    Memory.wf (afterWrite s w v P).mem := poke_keeps_wf (s := s.logAccess .write w v) w v hm

/-! ## The stack -/

/-- The stack address of the claims is the model's. -/
theorem stackByte_eq (sp : Byte) : stackByte sp = stackAddress sp := rfl

/-- A push with S = $00 faults before any access (R50, R173). -/
theorem push_overflow {s : State} (v : Byte) (h : s.sp = 0) : push v s = raise (.stackOverflow s.sp) s := by
  rw [push, if_pos h]

/-- Any other push stores at `$0100 + S` and decrements S (R50). -/
theorem push_next {s : State} (v : Byte) (h : s.sp ≠ 0) : push v s = .next (pushed v s) := by
  rw [push, if_neg h, memWrite_writable v s (.inl (classify_stack s.sp)), andThen_next]
  simp [pushed, stackByte_eq, State.setSp]

/-- A pull with S = $FF faults before any access (R51, R174). -/
theorem pull_underflow {s : State} (h : s.sp = 0xFF) : pull s = raise (.stackUnderflow s.sp) s := by
  rw [pull, if_pos h]

/-- Any other pull increments S and reads at the new `$0100 + S` (R51). -/
theorem pull_next {s : State} (h : s.sp ≠ 0xFF) : pull s = .next (pulledByte s, pulled s) := by
  have : Mapped (stackAddress (s.sp + 1)) := by simp [Mapped, classify_stack]
  rw [pull, if_neg h, memRead_mapped _ this]
  rfl

/-! What a push and a pull leave unchanged. -/

@[simp] theorem pushed_sp (v : Byte) (s : State) : (pushed v s).sp = s.sp - 1 := rfl
@[simp] theorem pushed_a (v : Byte) (s : State) : (pushed v s).a = s.a := by simp [pushed]
@[simp] theorem pushed_x (v : Byte) (s : State) : (pushed v s).x = s.x := by simp [pushed]
@[simp] theorem pushed_y (v : Byte) (s : State) : (pushed v s).y = s.y := by simp [pushed]
@[simp] theorem pushed_p (v : Byte) (s : State) : (pushed v s).p = s.p := by simp [pushed]
@[simp] theorem pushed_pc (v : Byte) (s : State) : (pushed v s).pc = s.pc := by simp [pushed]
@[simp] theorem pushed_cyc (v : Byte) (s : State) : (pushed v s).cyc = s.cyc := by simp [pushed]
@[simp] theorem pushed_fault (v : Byte) (s : State) : (pushed v s).fault = s.fault := by simp [pushed]

theorem pushed_keeps_wf {s : State} (v : Byte) (hm : Memory.wf s.mem) : Memory.wf (pushed v s).mem :=
  afterWrite_keeps_wf (s := s) _ v hm

@[simp] theorem pulled_sp (s : State) : (pulled s).sp = s.sp + 1 := by simp [pulled]
@[simp] theorem pulled_a (s : State) : (pulled s).a = s.a := by simp [pulled]
@[simp] theorem pulled_x (s : State) : (pulled s).x = s.x := by simp [pulled]
@[simp] theorem pulled_y (s : State) : (pulled s).y = s.y := by simp [pulled]
@[simp] theorem pulled_p (s : State) : (pulled s).p = s.p := by simp [pulled]
@[simp] theorem pulled_pc (s : State) : (pulled s).pc = s.pc := by simp [pulled]
@[simp] theorem pulled_cyc (s : State) : (pulled s).cyc = s.cyc := by simp [pulled]
@[simp] theorem pulled_fault (s : State) : (pulled s).fault = s.fault := by simp [pulled]
@[simp] theorem pulled_mem (s : State) : (pulled s).mem = s.mem := by simp [pulled]
@[simp] theorem peek_pulled (s : State) (a : Word) : (pulled s).peek a = s.peek a := by
  rw [pulled, peek_afterRead]
  rfl

/-- The cell of a stack byte (R49, R41). -/
theorem cellOf_stackAddress (sp : Byte) : cellOf (stackAddress sp) = some (256 + sp.toNat) := by
  have hb := sp.isLt
  have ha : (stackAddress sp).toNat = 256 + sp.toNat := by
    simp [stackAddress, zext16, BitVec.toNat_add]
    omega
  simp only [cellOf, classify_stack, regionCell, ramCell_eq, ha]
  rw [Nat.mod_eq_of_lt (by omega)]

/-- A push stores its byte at the stack byte S named (R50). -/
theorem peek_pushed_same {s : State} (v : Byte) (hm : Memory.wf s.mem) :
    (pushed v s).peek (stackAddress s.sp) = some v :=
  peek_afterWrite_same (s := s) v hm (cellOf_stackAddress _) (cellOf_stackAddress _)

/-- A push changes no address of another cell. -/
theorem peek_pushed_ne {s : State} {a : Word} (v : Byte) (h : cellOf a ≠ cellOf (stackAddress s.sp)) :
    (pushed v s).peek a = s.peek a := peek_afterWrite_ne (s := s) v h

/-- The byte a pull gives is the one at the next stack byte (R51). -/
theorem pulledByte_of_peek {s : State} {v : Byte} (h : s.peek (stackAddress (s.sp + 1)) = some v) :
    pulledByte s = v := by
  rw [← stackByte_eq] at h
  unfold pulledByte byteAt
  rw [h]

/-- Push16 with room for both bytes: the high byte first (R52). -/
theorem push16_next {s : State} (w : Word) (h : 2 ≤ s.sp.toNat) :
    push16 w s = .next (pushed (loByte w) (pushed (hiByte w) s)) := by
  have h1 : s.sp ≠ 0 := by bv_omega
  have h2 : (pushed (hiByte w) s).sp ≠ 0 := by
    rw [pushed_sp]
    bv_omega
  rw [push16, push_next _ h1, andThen_next, push_next _ h2]

/-- Pull16 with two bytes to pull: the low byte first (R53). -/
theorem pull16_next {s : State} (h : s.sp.toNat ≤ 0xFD) :
    pull16 s = .next (w16 (pulledByte s) (pulledByte (pulled s)), pulled (pulled s)) := by
  have h1 : s.sp ≠ 0xFF := by bv_omega
  have h2 : (pulled s).sp ≠ 0xFF := by
    rw [pulled_sp]
    bv_omega
  rw [pull16, pull_next h1, andThen_next]
  simp only [pull_next h2, andThen_next]

/-- A 16-bit read of two mapped addresses (R38). -/
theorem memRead16_mapped {a : Word} {P : Params} (s : State) (h : Mapped a P) (h' : Mapped (a + 1) P) :
    memRead16 a s P =
      .next (w16 (byteAt s a P) (byteAt (afterRead s a P) (a + 1) P), afterRead (afterRead s a P) (a + 1) P) := by
  rw [memRead16, memRead_mapped s h, andThen_next]
  simp only [memRead_mapped _ h', andThen_next]

/-! ## Exceptions -/

/-- Entering an exception with room for its three bytes: the return address and the status pushed, I set, PC from the
vector (R157, R183). -/
theorem enterException_next {s : State} (ret : Word) (status : Byte) {vector : Word} (h : 3 ≤ s.sp.toNat)
    (hv : Mapped vector) (hv' : Mapped (vector + 1)) (t : State)
    (ht : t = (pushed status (pushed (loByte ret) (pushed (hiByte ret) s))).setP (writeFlag s.p .I true)) :
    enterException ret status vector s =
      .next ((afterRead (afterRead t vector) (vector + 1)).setPc
        (w16 (byteAt t vector) (byteAt (afterRead t vector) (vector + 1)))) := by
  have h3 : (pushed (loByte ret) (pushed (hiByte ret) s)).sp ≠ 0 := by
    simp only [pushed_sp]
    bv_omega
  have hp : (pushed status (pushed (loByte ret) (pushed (hiByte ret) s))).p = s.p := by simp
  rw [enterException, push16_next ret (by omega), andThen_next, push_next status h3, andThen_next, hp, ← ht,
    memRead16_mapped t hv hv', andThen_next]

/-- Returning from an exception with three bytes to pull (R158). -/
theorem returnFromException_next {s : State} (h : s.sp.toNat ≤ 0xFC) (t : State)
    (ht : t = (pulled s).setP (restoredStatus (pulledByte s))) :
    returnFromException s =
      .next ((pulled (pulled t)).setPc (w16 (pulledByte t) (pulledByte (pulled t)))) := by
  have h1 : s.sp ≠ 0xFF := by bv_omega
  have hs : t.sp.toNat ≤ 0xFD := by
    rw [ht, setP_sp, pulled_sp]
    bv_omega
  rw [returnFromException, pull_next h1, andThen_next]
  simp only [← ht, pull16_next hs, andThen_next]

end Sys2Proof.Machine
end

