-- ==== Sys2Proof/Laws/Decode.lean ====
section
/-! SUPPORT. Small laws of the decoder and the encoder: byte order, operand lengths, and that the two tables of the spec
(R70, R71) name the same forms as WellFormed. -/

namespace Sys2Proof

/-- The bits of a 16-bit value made of two bytes (R9). -/
theorem getLsbD_w16 (lo hi : Byte) (i : Nat) :
    (w16 lo hi).getLsbD i = if i < 8 then lo.getLsbD i else hi.getLsbD (i - 8) := by
  unfold w16
  exact BitVec.getLsbD_append

@[simp] theorem loByte_w16 (lo hi : Byte) : loByte (w16 lo hi) = lo := by
  apply BitVec.eq_of_getLsbD_eq
  intro i h
  simp [loByte, getLsbD_w16, h]

@[simp] theorem hiByte_w16 (lo hi : Byte) : hiByte (w16 lo hi) = hi := by
  apply BitVec.eq_of_getLsbD_eq
  intro i h
  simp [hiByte, getLsbD_w16, h]

@[simp] theorem w16_loByte_hiByte (w : Word) : w16 (loByte w) (hiByte w) = w := by
  apply BitVec.eq_of_getLsbD_eq
  intro i h
  by_cases h8 : i < 8
  · simp [loByte, getLsbD_w16, h8]
  · have hi : 8 + (i - 8) = i := by omega
    have hb : i - 8 < 8 := by omega
    simp [hiByte, getLsbD_w16, h8, hb, hi]

/-- A form has one operand byte fewer than its instruction has bytes (R63, R65). -/
theorem operandBytes_length (o : Operand) : (operandBytes o).length = modeLength o.mode - 1 := by
  cases o <;> rfl

/-- Filling a form with its own operand bytes gives it back. -/
theorem fillOperand_operandBytes (o : Operand) :
    fillOperand ((operandBytes o).getD 0 0) ((operandBytes o).getD 1 0) o = o := by
  cases o <;> simp [operandBytes, fillOperand]

@[simp] theorem fillOperand_mode (b1 b2 : Byte) (o : Operand) : (fillOperand b1 b2 o).mode = o.mode := by
  cases o <;> rfl

/-- Operand bytes do not change an instruction's mode or length (R63). -/
theorem fillInstr_mode (b1 b2 : Byte) (i : Instr) : (fillInstr b1 b2 i).form.mode = i.form.mode := by
  cases i <;> simp [fillInstr, Instr.form] <;> rfl

theorem fillInstr_length (b1 b2 : Byte) (i : Instr) : instrLength (fillInstr b1 b2 i) = instrLength i := by
  simp [instrLength, fillInstr_mode]

/-- Operand bytes do not change whether an instruction is well formed (R63: the length and form come from the opcode). -/
theorem fillInstr_wellFormed (b1 b2 : Byte) (i : Instr) (nops : UnofficialNops) :
    (fillInstr b1 b2 i).wellFormed nops = i.wellFormed nops := by
  cases i <;> simp [fillInstr, Instr.wellFormed]

/-- A form of a row of R71 has an opcode. -/
theorem opcodeFor_isSome {o : Operand} {row : List (Mode × Byte)} (h : (row.map Prod.fst).contains o.mode = true) :
    (opcodeFor o row).isSome = true := by
  unfold opcodeFor
  induction row with
  | nil => simp at h
  | cons c rest ih =>
    obtain ⟨m, op⟩ := c
    simp only [List.lookup]
    split
    · rfl
    · next hm => exact ih (by simp_all)

/-- Every well-formed instruction has a row in the encoder's table (R71 to R73). -/
theorem opcodeOf_isSome (i : Instr) {nops : UnofficialNops} (h : i.wellFormed nops = true) :
    (opcodeOf i nops).isSome = true := by
  cases i <;>
    first
    | rfl
    | exact opcodeFor_isSome h
    | (simp only [Instr.wellFormed] at h
       simp only [opcodeOf, h, if_true, Option.isSome_some])

/-- An unofficial NOP's byte selects it, with the mode's form (R72). -/
theorem decodeOpcode_of_isUnofficialNop {op : Byte} {m : Mode} {nops : UnofficialNops}
    (h : isUnofficialNop op m nops = true) : decodeOpcode op nops = .nopStar op (blankOperand m) := by
  simp only [isUnofficialNop, Bool.and_eq_true, Option.isNone_iff_eq_none, beq_iff_eq] at h
  simp [decodeOpcode, h.1, h.2]

/-- An unimplemented byte selects `unimp` (R73). -/
theorem decodeOpcode_of_isUnimplemented {op : Byte} {nops : UnofficialNops} (h : isUnimplemented op nops = true) :
    decodeOpcode op nops = .unimp op := by
  simp only [isUnimplemented, Bool.and_eq_true, Option.isNone_iff_eq_none] at h
  simp [decodeOpcode, h.1, h.2]

@[simp] theorem blankOperand_mode (m : Mode) : (blankOperand m).mode = m := by cases m <;> rfl

/-- The encoder's opcode byte selects the instruction, with its operand bytes 0: R71 and R70 agree. -/
theorem decodeOpcode_of_opcodeOf {i : Instr} {op : Byte} {nops : UnofficialNops} (h : opcodeOf i nops = some op) :
    decodeOpcode op nops = fillInstr 0 0 i := by
  cases i with
  | nopStar q o =>
    simp only [opcodeOf, Option.ite_none_right_eq_some, Option.some.injEq] at h
    obtain ⟨hw, rfl⟩ := h
    rw [decodeOpcode_of_isUnofficialNop hw]
    cases o <;> rfl
  | unimp q =>
    simp only [opcodeOf, Option.ite_none_right_eq_some, Option.some.injEq] at h
    obtain ⟨hw, rfl⟩ := h
    rw [decodeOpcode_of_isUnimplemented hw]
    rfl
  | _ =>
    first
    | (cases h; rfl)
    | (rename_i o
       cases o <;> first
         | (cases h; done)
         | (cases h; rfl))

end Sys2Proof
end

