-- ==== Sys2Proof/Laws/Cycles.lean ====
section
/-! SUPPORT. The default `CYCLES` of a well-formed instruction, in the figures of Machine/Cycles.lean (40_engine.md R85). -/

namespace Sys2Proof.Machine

@[simp] theorem baseCycles_fillInstr (b1 b2 : Byte) (i : Instr) : baseCycles (fillInstr b1 b2 i) = baseCycles i := by
  cases i <;> simp [fillInstr, baseCycles]

@[simp] theorem pageCrossPenalty_fillInstr (b1 b2 : Byte) (i : Instr) :
    pageCrossPenalty (fillInstr b1 b2 i) = pageCrossPenalty i := by
  cases i <;> simp [fillInstr, pageCrossPenalty]

@[simp] theorem isBranch_fillInstr (b1 b2 : Byte) (i : Instr) : isBranch (fillInstr b1 b2 i) = isBranch i := by
  cases i <;> rfl

/-- No base cost is above 7 (R85). -/
theorem baseCycles_le (i : Instr) : baseCycles i ≤ 7 := by
  have read : ∀ m, readCycles m ≤ 7 := by intro m; cases m <;> decide
  have store : ∀ m, storeCycles m ≤ 7 := by intro m; cases m <;> decide
  have modify : ∀ m, modifyCycles m ≤ 7 := by intro m; cases m <;> decide
  have nops : ∀ m, nopStarCycles m ≤ 7 := by intro m; cases m <;> decide
  cases i <;> simp only [baseCycles] <;> first | exact read _ | exact store _ | exact modify _ | exact nops _ | decide

/-- The default `CYCLES` of a well-formed instruction's byte (R85). -/
theorem defaultCycles_opcodeByte {i : Instr} (hw : i.wellFormed = true) (crossed taken branchCrossed : Bool) :
    (defaultCycles (opcodeByte i) crossed taken branchCrossed).toNat =
      baseCycles i + bitOf (pageCrossPenalty i && crossed) + bitOf (isBranch i && taken) +
        bitOf (isBranch i && taken && branchCrossed) := by
  obtain ⟨op, hop⟩ := Option.isSome_iff_exists.1 (opcodeOf_isSome i hw)
  have hb : opcodeByte i = op := by simp [opcodeByte, hop]
  have bit : ∀ b, bitOf b ≤ 1 := by decide
  have h1 := bit (pageCrossPenalty i && crossed)
  have h2 := bit (isBranch i && taken)
  have h3 := bit (isBranch i && taken && branchCrossed)
  have h4 := baseCycles_le i
  rw [hb, defaultCycles, decodeOpcode_of_opcodeOf hop]
  simp only [baseCycles_fillInstr, pageCrossPenalty_fillInstr, isBranch_fillInstr, BitVec.toNat_ofNat]
  exact Nat.mod_eq_of_lt (by omega)

/-- The cost of a well-formed instruction that is no branch, in the default instance (R85, R197, R198). -/
theorem cycles_default {i : Instr} (hw : i.wellFormed = true) (hb : isBranch i = false) (crossed : Bool) :
    cycles i crossed = baseCycles i + bitOf (pageCrossPenalty i && crossed) := by
  rw [cycles, default_cycles, defaultCycles_opcodeByte hw]
  simp [hb, bitOf]

/-- The cost of a branch, in the default instance (R85, R197). -/
theorem branchCycles_default {i : Instr} (hb : isBranch i = true) (taken branchCrossed : Bool) :
    branchCycles i taken branchCrossed = 2 + bitOf taken + bitOf (taken && branchCrossed) := by
  have hw : i.wellFormed = true := by cases i <;> first | rfl | exact absurd (show false = true from hb) nofun
  have hc : baseCycles i = 2 := by cases i <;> first | rfl | exact absurd (show false = true from hb) nofun
  rw [branchCycles, default_cycles, defaultCycles_opcodeByte hw]
  simp [hb, hc, bitOf]

end Sys2Proof.Machine
end

