-- ==== Sys2Proof/Laws/Flags.lean ====
section
/-! SUPPORT. The laws of the status flags: writing one flag changes that flag and no other (10_state.md R30), and what the
ALU and the other flag functions do to each flag (41_addressing_alu.md R103 to R107, 44_compare_incdec.md R118). -/

namespace Sys2Proof.Machine

theorem flagBit_lt (f : Flag) : flagBit f < 8 := by cases f <;> decide

theorem flagBit_injective {f g : Flag} (h : flagBit f = flagBit g) : f = g := by
  cases f <;> cases g <;> first | rfl | simp [flagBit] at h

@[simp] theorem testFlag_writeFlag_same (p : Byte) (f : Flag) (v : Bool) : testFlag (writeFlag p f v) f = v := by
  cases v <;> cases f <;> simp [testFlag, writeFlag, flagMask, flagBit]

theorem testFlag_writeFlag_ne (p : Byte) {f g : Flag} (v : Bool) (h : f ≠ g) :
    testFlag (writeFlag p f v) g = testFlag p g := by
  cases v <;> cases f <;> cases g <;> first | exact absurd rfl h | simp [testFlag, writeFlag, flagMask, flagBit]

/-- One flag of P after another was written (R30). -/
theorem testFlag_writeFlag (p : Byte) (f g : Flag) (v : Bool) :
    testFlag (writeFlag p f v) g = if f = g then v else testFlag p g := by
  by_cases h : f = g
  · simp [h]
  · simp [h, testFlag_writeFlag_ne p v h]

/-- Two status bytes with the same flags are equal: P has no other bits (R22). -/
theorem status_ext {p q : Byte} (h : ∀ f, testFlag p f = testFlag q f) : p = q := by
  apply BitVec.eq_of_getLsbD_eq
  intro i hi
  have : i = 0 ∨ i = 1 ∨ i = 2 ∨ i = 3 ∨ i = 4 ∨ i = 5 ∨ i = 6 ∨ i = 7 := by omega
  rcases this with rfl | rfl | rfl | rfl | rfl | rfl | rfl | rfl
  · exact h .C
  · exact h .Z
  · exact h .I
  · exact h .D
  · exact h .B
  · exact h .U
  · exact h .V
  · exact h .N

/-- `SetZN` flag by flag (R103). -/
theorem testFlag_setZN (p v : Byte) (f : Flag) :
    testFlag (setZN p v) f = if f = .Z then v == 0 else if f = .N then v.getLsbD 7 else testFlag p f := by
  cases f <;> simp [setZN, testFlag_writeFlag]

/-- `Compare` flag by flag (R118). -/
theorem testFlag_compareFlags (p r m : Byte) (f : Flag) :
    testFlag (compareFlags p r m) f =
      if f = .C then decide (r.toNat ≥ m.toNat) else if f = .Z then r == m
      else if f = .N then (r - m).getLsbD 7 else testFlag p f := by
  cases f <;> simp [compareFlags, testFlag_writeFlag]

/-- BIT flag by flag (R156). -/
theorem testFlag_bitTestFlags (p a m : Byte) (f : Flag) :
    testFlag (bitTestFlags p a m) f =
      if f = .Z then (a &&& m) == 0 else if f = .N then m.getLsbD 7 else if f = .V then m.getLsbD 6
      else testFlag p f := by
  cases f <;> simp [bitTestFlags, testFlag_writeFlag]

/-- The logical kinds leave every flag but Z and N alone (R107). -/
theorem alu_logical_keeps_flags {kind : AluKind} (hk : kind = .and ∨ kind = .eor ∨ kind = .or) (p a m : Byte) (f : Flag)
    (hf : f ≠ .Z) (hn : f ≠ .N) : testFlag (alu kind p a m).2 f = testFlag p f := by
  rcases hk with rfl | rfl | rfl <;> simp [alu, testFlag_setZN, hf, hn]

/-- Addition and subtraction leave I, D, B and U alone (R105, R106). -/
theorem alu_arithmetic_keeps_flags {kind : AluKind} (hk : kind = .add ∨ kind = .subtract) (p a m : Byte) (f : Flag)
    (hf : f = .I ∨ f = .D ∨ f = .B ∨ f = .U) : testFlag (alu kind p a m).2 f = testFlag p f := by
  rcases hk with rfl | rfl <;> rcases hf with rfl | rfl | rfl | rfl <;>
    simp [alu, aluAdd, aluSubtract, testFlag_setZN, testFlag_writeFlag]

/-- The result with flags is the result without flags at the carry of P (R108). -/
theorem alu_result_eq_aluNoFlags (kind : AluKind) (p a m : Byte) :
    (alu kind p a m).1 = aluNoFlags kind a m (testFlag p .C) := by
  cases kind <;> rfl

end Sys2Proof.Machine
end

