-- ==== Sys2Proof/Laws/Operands.lean ====
section
/-! SUPPORT. What the resolver, the operand helpers and the instruction shapes do, each said once in the terms of
Safety.lean. -/

namespace Sys2Proof.Machine

theorem mapped_zero_page (b : Byte) : Mapped (zext16 b) := by simp [Mapped, classify_zero_page]

/-- A page-zero byte is its RAM cell (R41). -/
theorem byteAt_zero_page (s : State) (b : Byte) : byteAt s (zext16 b) = readCell s.mem (ramCell (zext16 b)) := by
  simp [byteAt, State.peek, cellOf, regionCell, classify_zero_page]

/-- The pointer reads of (zp,X) and (zp),Y never fault: page zero is RAM (R97, R98). -/
theorem zeroPagePointer_next (z : Byte) (s : State) :
    zeroPagePointer z s = .next (pointerAt s z, afterRead (afterRead s (zext16 z)) (zext16 (z + 1))) := by
  simp [zeroPagePointer, memRead_mapped _ (mapped_zero_page _), pointerAt, byteAt_zero_page]

/-- Every address form resolves to its effective address (R87, R91 to R98). -/
theorem resolve_address {o : Operand} (h : isAddressForm o = true) (s : State) :
    resolve o s = .next (.address (effectiveAddress o s) (addressCrosses o s), afterPointer o s) := by
  cases o <;>
    first
    | rfl
    | (simp only [resolve, zeroPagePointer_next, andThen_next]
       simp [effectiveAddress, addressCrosses, afterPointer, indexedAddress, pagesDiffer]
       done)
    | exact absurd h (by simp [isAddressForm])

/-- Where the operand has a value, reading it completes exactly when it is readable (R102, R44). -/
theorem resolve_read_next {o : Operand} {s : State} (hv : isAddressForm o = true ∨ (∃ v, o = .imm v) ∨ o = .acc)
    (hr : Readable o s) :
    ∃ r, resolve o s = .next (r, afterPointer o s) ∧ crossedOf r = addressCrosses o s ∧
      readOperand r (afterPointer o s) = .next (operandValue o s, afterOperand o s) := by
  rcases hv with h | ⟨v, rfl⟩ | rfl
  · refine ⟨_, resolve_address h s, rfl, ?_⟩
    have hm : Mapped (effectiveAddress o s) := hr h
    simp only [readOperand, memRead_mapped _ hm]
    cases o <;> first | rfl | exact absurd h (by simp [isAddressForm])
  · exact ⟨_, rfl, rfl, rfl⟩
  · exact ⟨_, rfl, rfl, rfl⟩

theorem afterPointer_regs (o : Operand) (s : State) :
    (afterPointer o s).a = s.a ∧ (afterPointer o s).x = s.x ∧ (afterPointer o s).y = s.y ∧
      (afterPointer o s).p = s.p ∧ (afterPointer o s).sp = s.sp ∧ (afterPointer o s).pc = s.pc ∧
      (afterPointer o s).cyc = s.cyc ∧ (afterPointer o s).fault = s.fault ∧ (afterPointer o s).mem = s.mem ∧
      (afterPointer o s).irq = s.irq ∧ (afterPointer o s).nmiEdge = s.nmiEdge := by
  cases o <;> simp [afterPointer]

theorem afterOperand_regs (o : Operand) (s : State) :
    (afterOperand o s).a = s.a ∧ (afterOperand o s).x = s.x ∧ (afterOperand o s).y = s.y ∧
      (afterOperand o s).p = s.p ∧ (afterOperand o s).sp = s.sp ∧ (afterOperand o s).pc = s.pc ∧
      (afterOperand o s).cyc = s.cyc ∧ (afterOperand o s).fault = s.fault ∧ (afterOperand o s).mem = s.mem ∧
      (afterOperand o s).irq = s.irq ∧ (afterOperand o s).nmiEdge = s.nmiEdge := by
  unfold afterOperand
  have := afterPointer_regs o s
  split <;> simp_all

/-- The forms of every reading instruction have an operand value (R71). -/
theorem form_has_value {forms : List Mode} (hf : ∀ m ∈ forms, m ≠ .imp ∧ m ≠ .ind ∧ m ≠ .rel) {o : Operand}
    (h : forms.contains o.mode = true) : isAddressForm o = true ∨ (∃ v, o = .imm v) ∨ o = .acc := by
  have hm : o.mode ∈ forms := by simpa using h
  have := hf _ hm
  cases o <;> simp_all [isAddressForm, Operand.mode]

/-- A reading instruction on a readable operand completes: its update from the operand value, then PC and CYC. -/
theorem readInstr_next {i : Instr} {o : Operand} {update : Byte → State → State} {s : State}
    (hw : i.wellFormed = true) (hv : isAddressForm o = true ∨ (∃ v, o = .imm v) ∨ o = .acc) (hr : Readable o s) :
    readInstr i o update s =
      .next ((update (operandValue o s) (afterOperand o s)).advance i (addressCrosses o s)) := by
  obtain ⟨r, h1, h2, h3⟩ := resolve_read_next hv hr
  simp [readInstr, ifWellFormed, hw, h1, h2, h3]

/-- A storing instruction on a storable address completes: one write, then PC and CYC. -/
theorem storeInstr_next {i : Instr} {o : Operand} {v : Byte} {s : State} (hw : i.wellFormed = true)
    (ha : isAddressForm o = true) (hs : Writable (effectiveAddress o s)) :
    storeInstr i o v s =
      .next ((afterWrite (afterPointer o s) (effectiveAddress o s) v).advance i (addressCrosses o s)) := by
  simp [storeInstr, ifWellFormed, hw, resolve_address ha, storeBack, memWrite_writable _ _ hs, crossedOf]

/-- A read-modify-write instruction on a storable address completes: one read, the flags, one write, PC and CYC. -/
theorem modifyInstr_next_address {i : Instr} {o : Operand} {f : Byte → Byte → Byte × Byte} {s : State}
    (hw : i.wellFormed = true) (ha : isAddressForm o = true) (hs : Writable (effectiveAddress o s)) :
    modifyInstr i o f s =
      .next ((afterWrite ((afterOperand o s).setP (f s.p (operandValue o s)).2) (effectiveAddress o s)
        (f s.p (operandValue o s)).1).advance i (addressCrosses o s)) := by
  have hm : Mapped (effectiveAddress o s) := by
    rcases hs with h | h | h <;> simp [Mapped, h]
  obtain ⟨r, h1, h2, h3⟩ := resolve_read_next (.inl ha) (fun _ => hm)
  have hr : r = .address (effectiveAddress o s) (addressCrosses o s) := by
    rw [resolve_address ha] at h1
    simpa using h1.symm
  subst hr
  have hp : (afterOperand o s).p = s.p := (afterOperand_regs o s).2.2.2.1
  simp [modifyInstr, ifWellFormed, hw, h1, h3, storeBack, memWrite_writable _ _ hs, hp, crossedOf]

/-- The accumulator form of a read-modify-write instruction (R89). -/
theorem modifyInstr_next_acc {i : Instr} {f : Byte → Byte → Byte × Byte} {s : State} (hw : i.wellFormed = true) :
    modifyInstr i .acc f s = .next (((s.setP (f s.p s.a).2).setA (f s.p s.a).1).advance i false) := by
  simp [modifyInstr, ifWellFormed, hw, resolve, readOperand, storeBack, crossedOf]

end Sys2Proof.Machine
end

