-- ==== Sys2Proof/Laws/PerInstr.lean ====
section
/-! SUPPORT. The family of statements made per instruction: the encoding of a well-formed instruction has the length its
mode gives it, one to three bytes (30_encoding.md R63, R65). -/

namespace Sys2Proof.Laws.Length

/-- The encoding has the instruction's length, which is 1, 2 or 3 (R63). -/
def Statement (i : Instr) : Prop :=
  i.wellFormed = true → (encode i).length = instrLength i ∧ 1 ≤ instrLength i ∧ instrLength i ≤ 3

/-- An instruction with an opcode has the length of its opcode and operand bytes. -/
theorem of_opcode {i : Instr} (h : i.wellFormed = true → (opcodeOf i).isSome = true) : Statement i := by
  intro hw
  obtain ⟨op, hop⟩ := Option.isSome_iff_exists.1 (h hw)
  simp only [encode, hop, List.length_cons, operandBytes_length, instrLength]
  cases i.form.mode <;> decide

theorem adc (o : Operand) : Statement (.adc o) := of_opcode (opcodeOf_isSome _)
theorem sbc (o : Operand) : Statement (.sbc o) := of_opcode (opcodeOf_isSome _)
theorem and (o : Operand) : Statement (.and o) := of_opcode (opcodeOf_isSome _)
theorem ora (o : Operand) : Statement (.ora o) := of_opcode (opcodeOf_isSome _)
theorem eor (o : Operand) : Statement (.eor o) := of_opcode (opcodeOf_isSome _)
theorem asl (o : Operand) : Statement (.asl o) := of_opcode (opcodeOf_isSome _)
theorem lsr (o : Operand) : Statement (.lsr o) := of_opcode (opcodeOf_isSome _)
theorem rol (o : Operand) : Statement (.rol o) := of_opcode (opcodeOf_isSome _)
theorem ror (o : Operand) : Statement (.ror o) := of_opcode (opcodeOf_isSome _)
theorem cmp (o : Operand) : Statement (.cmp o) := of_opcode (opcodeOf_isSome _)
theorem cpx (o : Operand) : Statement (.cpx o) := of_opcode (opcodeOf_isSome _)
theorem cpy (o : Operand) : Statement (.cpy o) := of_opcode (opcodeOf_isSome _)
theorem inc (o : Operand) : Statement (.inc o) := of_opcode (opcodeOf_isSome _)
theorem dec (o : Operand) : Statement (.dec o) := of_opcode (opcodeOf_isSome _)
theorem inx : Statement .inx := of_opcode (opcodeOf_isSome _)
theorem iny : Statement .iny := of_opcode (opcodeOf_isSome _)
theorem dex : Statement .dex := of_opcode (opcodeOf_isSome _)
theorem dey : Statement .dey := of_opcode (opcodeOf_isSome _)
theorem bcc (d : Byte) : Statement (.bcc d) := of_opcode (opcodeOf_isSome _)
theorem bcs (d : Byte) : Statement (.bcs d) := of_opcode (opcodeOf_isSome _)
theorem beq (d : Byte) : Statement (.beq d) := of_opcode (opcodeOf_isSome _)
theorem bne (d : Byte) : Statement (.bne d) := of_opcode (opcodeOf_isSome _)
theorem bmi (d : Byte) : Statement (.bmi d) := of_opcode (opcodeOf_isSome _)
theorem bpl (d : Byte) : Statement (.bpl d) := of_opcode (opcodeOf_isSome _)
theorem bvc (d : Byte) : Statement (.bvc d) := of_opcode (opcodeOf_isSome _)
theorem bvs (d : Byte) : Statement (.bvs d) := of_opcode (opcodeOf_isSome _)
theorem jmpAbs (w : Word) : Statement (.jmpAbs w) := of_opcode (opcodeOf_isSome _)
theorem jmpInd (w : Word) : Statement (.jmpInd w) := of_opcode (opcodeOf_isSome _)
theorem jsr (w : Word) : Statement (.jsr w) := of_opcode (opcodeOf_isSome _)
theorem rts : Statement .rts := of_opcode (opcodeOf_isSome _)
theorem lda (o : Operand) : Statement (.lda o) := of_opcode (opcodeOf_isSome _)
theorem ldx (o : Operand) : Statement (.ldx o) := of_opcode (opcodeOf_isSome _)
theorem ldy (o : Operand) : Statement (.ldy o) := of_opcode (opcodeOf_isSome _)
theorem sta (o : Operand) : Statement (.sta o) := of_opcode (opcodeOf_isSome _)
theorem stx (o : Operand) : Statement (.stx o) := of_opcode (opcodeOf_isSome _)
theorem sty (o : Operand) : Statement (.sty o) := of_opcode (opcodeOf_isSome _)
theorem pha : Statement .pha := of_opcode (opcodeOf_isSome _)
theorem php : Statement .php := of_opcode (opcodeOf_isSome _)
theorem pla : Statement .pla := of_opcode (opcodeOf_isSome _)
theorem plp : Statement .plp := of_opcode (opcodeOf_isSome _)
theorem tax : Statement .tax := of_opcode (opcodeOf_isSome _)
theorem tay : Statement .tay := of_opcode (opcodeOf_isSome _)
theorem txa : Statement .txa := of_opcode (opcodeOf_isSome _)
theorem tya : Statement .tya := of_opcode (opcodeOf_isSome _)
theorem tsx : Statement .tsx := of_opcode (opcodeOf_isSome _)
theorem txs : Statement .txs := of_opcode (opcodeOf_isSome _)
theorem bit (o : Operand) : Statement (.bit o) := of_opcode (opcodeOf_isSome _)
theorem brk : Statement .brk := of_opcode (opcodeOf_isSome _)
theorem rti : Statement .rti := of_opcode (opcodeOf_isSome _)
theorem clc : Statement .clc := of_opcode (opcodeOf_isSome _)
theorem sec : Statement .sec := of_opcode (opcodeOf_isSome _)
theorem cli : Statement .cli := of_opcode (opcodeOf_isSome _)
theorem sei : Statement .sei := of_opcode (opcodeOf_isSome _)
theorem cld : Statement .cld := of_opcode (opcodeOf_isSome _)
theorem sed : Statement .sed := of_opcode (opcodeOf_isSome _)
theorem clv : Statement .clv := of_opcode (opcodeOf_isSome _)
theorem nop : Statement .nop := of_opcode (opcodeOf_isSome _)
theorem nopStar (op : Byte) (o : Operand) : Statement (.nopStar op o) := of_opcode (opcodeOf_isSome _)
theorem unimp (op : Byte) : Statement (.unimp op) := of_opcode (opcodeOf_isSome _)

end Sys2Proof.Laws.Length
end

