-- ==== Sys2Proof/Laws/Run.lean ====
section
/-! SUPPORT. What harness writes keep, and how run calls chain. -/

namespace Sys2Proof.Machine

/-- j + k run calls are j and then k (R77). -/
theorem runCalls_add (P : Params) (j k : Nat) (s : State) :
    runCalls P (j + k) s = andThen (runCalls P j s) (runCalls P k) := by
  induction j generalizing s with
  | zero => simp [runCalls]
  | succ j ih =>
    rw [Nat.succ_add, runCalls, runCalls]
    cases stepWith P s with
    | next t => exact ih t
    | fault f => rfl
    | refused q => rfl

/-- After a fault no number of run calls leads to a next state (R169). -/
theorem runCalls_fault_stays {P : Params} {j k : Nat} {s : State} {f : Fault} (h : runCalls P j s = .fault f)
    (hjk : j ≤ k) : runCalls P k s = .fault f := by
  obtain ⟨n, rfl⟩ := Nat.exists_eq_add_of_le hjk
  rw [runCalls_add, h, andThen_fault]

/-- A harness write touches neither FAULT, nor the bus log, nor the optional inputs, and keeps memory canonical (R57). -/
theorem harnessWrite_keeps (s : State) (w : HarnessWrite) (P : Params) :
    (s.harnessWrite w P).fault = s.fault ∧ (s.harnessWrite w P).busLog = s.busLog ∧
      (s.harnessWrite w P).irq = s.irq ∧ (s.harnessWrite w P).nmiEdge = s.nmiEdge ∧
      (Memory.wf s.mem → Memory.wf (s.harnessWrite w P).mem) := by
  cases w with
  | ram addr v =>
    by_cases h : classify addr P = .ram ∨ classify addr P = .ramMirror
    · have hw : s.harnessWrite (.ram addr v) P = s.poke addr v P := if_pos h
      rw [hw]
      exact ⟨by simp, by simp, by simp, by simp, poke_keeps_wf addr v⟩
    · have hw : s.harnessWrite (.ram addr v) P = s := if_neg h
      rw [hw]
      exact ⟨rfl, rfl, rfl, rfl, id⟩
  | _ => exact ⟨rfl, rfl, rfl, rfl, id⟩

/-- So do harness writes in order. -/
theorem harnessWrites_keeps (s : State) (ws : List HarnessWrite) (P : Params) :
    (s.harnessWrites ws P).fault = s.fault ∧ (s.harnessWrites ws P).busLog = s.busLog ∧
      (s.harnessWrites ws P).irq = s.irq ∧ (s.harnessWrites ws P).nmiEdge = s.nmiEdge ∧
      (Memory.wf s.mem → Memory.wf (s.harnessWrites ws P).mem) := by
  induction ws generalizing s with
  | nil => exact ⟨rfl, rfl, rfl, rfl, id⟩
  | cons w ws ih =>
    obtain ⟨h1, h2, h3, h4, h5⟩ := harnessWrite_keeps s w P
    obtain ⟨k1, k2, k3, k4, k5⟩ := ih (s.harnessWrite w P)
    exact ⟨k1.trans h1, k2.trans h2, k3.trans h3, k4.trans h4, k5 ∘ h5⟩

end Sys2Proof.Machine
end

