-- ==== Sys2Proof/Laws/Step.lean ====
section
/-! SUPPORT. The cases of a run call, and the fetch, each said once. -/

namespace Sys2Proof.Machine

/-- The jump's pointer reads with both addresses mapped (R99). -/
theorem indirectTarget_mapped {ptr : Word} {P : Params} (s : State) (h : Mapped ptr P)
    (h' : Mapped (indirectHighAddress ptr) P) :
    indirectTarget ptr s P =
      .next (w16 (byteAt s ptr P) (byteAt (afterRead s ptr P) (indirectHighAddress ptr) P),
        afterRead (afterRead s ptr P) (indirectHighAddress ptr) P) := by
  rw [indirectTarget, memRead_mapped s h, andThen_next]
  simp only [memRead_mapped _ h', andThen_next]

/-- The operand fetch reads nothing for an instruction of one byte (R80). -/
theorem fetchOperands_one {d : Instr} {P : Params} (s : State) (h : instrLength d = 1) :
    fetchOperands d s P = .next (d, s) := by
  simp [fetchOperands, h]

/-- The operand fetch of an instruction of two bytes (R80). -/
theorem fetchOperands_two {d : Instr} {P : Params} (s : State) (h : instrLength d = 2) (hm : Mapped (s.pc + 1) P) :
    fetchOperands d s P = .next (fillInstr (byteAt s (s.pc + 1) P) 0 d, afterRead s (s.pc + 1) P) := by
  rw [fetchOperands, if_pos (by omega), memRead_mapped s hm, andThen_next]
  simp [h]

/-- The operand fetch of an instruction of three bytes, low byte first (R80). -/
theorem fetchOperands_three {d : Instr} {P : Params} (s : State) (h : instrLength d = 3) (hm : Mapped (s.pc + 1) P)
    (hm' : Mapped (s.pc + 2) P) :
    fetchOperands d s P =
      .next (fillInstr (byteAt s (s.pc + 1) P) (byteAt (afterRead s (s.pc + 1) P) (s.pc + 2) P) d,
        afterRead (afterRead s (s.pc + 1) P) (s.pc + 2) P) := by
  rw [fetchOperands, if_pos (by omega), memRead_mapped s hm, andThen_next]
  simp only [h, if_true, afterRead_pc, memRead_mapped _ hm', andThen_next]

/-- A run call is one of four: nothing on a faulted CORE, a decrement while CYC is not 0, an interrupt entry where the
instance has interrupt inputs and one is pending, and the instruction at PC otherwise (R77, R182). -/
theorem runCall_cases (run : Instr → State → Host.Outcome State Fault Refusal) (s : State) (P : Params) :
    (s.fault ≠ none ∧ runCall run s P = .next s) ∨
    (s.fault = none ∧ s.cyc ≠ 0 ∧ runCall run s P = .next (s.setCyc (s.cyc - 1))) ∨
    (s.fault = none ∧ s.cyc = 0 ∧ P.hasInterruptLines = true ∧
      ∃ vector, pendingVector s = some vector ∧ runCall run s P = enterInterrupt vector s P) ∨
    (s.fault = none ∧ s.cyc = 0 ∧ (P.hasInterruptLines = false ∨ pendingVector s = none) ∧
      runCall run s P = runInstruction run s P) := by
  unfold runCall
  cases hf : s.fault with
  | some r => exact .inl ⟨by simp, rfl⟩
  | none =>
    by_cases hc : s.cyc = 0
    · cases hl : P.hasInterruptLines with
      | false => exact .inr (.inr (.inr ⟨rfl, hc, .inl rfl, by simp [hc]⟩))
      | true =>
        cases hv : pendingVector s with
        | none => exact .inr (.inr (.inr ⟨rfl, hc, .inr rfl, by simp [hc]⟩))
        | some v => exact .inr (.inr (.inl ⟨rfl, hc, rfl, v, rfl, by simp [hc]⟩))
    · exact .inr (.inl ⟨rfl, hc, by rw [if_neg (by simp), if_pos hc]⟩)

/-- A run call of the default CORE is one of three (R77). -/
theorem step_cases (s : State) :
    (s.fault ≠ none ∧ step s = .next s) ∨
    (s.fault = none ∧ s.cyc ≠ 0 ∧ step s = .next (s.setCyc (s.cyc - 1))) ∨
    (s.fault = none ∧ s.cyc = 0 ∧ step s = runInstruction exec s) := by
  rcases runCall_cases exec s .default with h | h | ⟨-, -, h, -⟩ | ⟨hf, hc, -, h⟩
  · exact .inl h
  · exact .inr (.inl h)
  · exact absurd h (by simp)
  · exact .inr (.inr ⟨hf, hc, h⟩)

/-- A run call that would fetch is the instruction at PC (R77). -/
theorem step_fetching {s : State} (hf : s.fault = none) (hc : s.cyc = 0) : step s = runInstruction exec s := by
  rcases step_cases s with ⟨h, -⟩ | ⟨-, h, -⟩ | ⟨-, -, h⟩
  · exact absurd hf h
  · exact absurd hc h
  · exact h

/-- Running the instruction at PC is its fetch and then its meaning; what it answers next comes from both (R77 to R81). -/
theorem runInstruction_eq_next {run : Instr → State → Host.Outcome State Fault Refusal} {s t : State} {P : Params} :
    runInstruction run s P = .next t ↔ ∃ i u, fetch s P = .next (i, u) ∧ run i u = .next t := by
  simp [runInstruction, andThen_eq_next]

end Sys2Proof.Machine
end

