-- ==== Sys2Proof/Tests/Slice0.lean ====
section
/-! SUPPORT. Tests. Expected results are the worked vectors of spec/95_test_vectors.md (or the rule named) and the tables
of 30_encoding.md and opcode_table.json; each witness theorem shows a concrete input meeting every hypothesis of the
statement it is named after. -/

namespace Sys2Proof.Tests

open Sys2Proof.Machine Sys2Proof.Claims

/-! ## Helpers -/

/-- The start of the vectors: P = $24, PC = $0200, the rest as after reset with every draw 0. -/
def base : State := { State.reset with p := 0x24, pc := 0x0200 }

/-- Put bytes into cells, as a test harness does (R57). -/
def placed (cells : List (Word × Byte)) (s : State) : State := cells.foldl (fun s c => s.poke c.1 c.2) s

/-- The registers as a vector lists them: A, X, Y, P, S, PC, CYC. -/
structure Regs where
  a   : Byte
  x   : Byte
  y   : Byte
  p   : Byte
  sp  : Byte
  pc  : Word
  cyc : Byte
  deriving DecidableEq, Repr

/-- What a vector lists: the registers, the bus log, FAULT, and the watched bytes. -/
structure Seen where
  regs    : Regs
  log     : List BusAccess
  fault   : Option FaultRecord
  watched : List (Option Byte)
  deriving DecidableEq, Repr

/-- The listed parts of the state an outcome holds. -/
def seen (watch : List Word) (o : Host.Outcome State Fault Refusal) : Option Seen :=
  (resultState o).map fun s =>
    ⟨⟨s.a, s.x, s.y, s.p, s.sp, s.pc, s.cyc⟩, s.busLog, s.fault, watch.map s.peek⟩

abbrev R (a : Word) (v : Byte) : BusAccess := ⟨.read, a, v⟩
abbrev W (a : Word) (v : Byte) : BusAccess := ⟨.write, a, v⟩

/-- Decode each opcode byte with the operand bytes $12 and $34. -/
def bytesDecode (ops : List Byte) : List Instr := ops.map fun op => decode op 0x12 0x34

/-! ## Well-formedness: what each check refuses (R71 to R73) -/

theorem test_illformed_alu :
    [Instr.adc .acc, .sbc (.zpy 0), .and .imp, .ora (.ind 0), .eor (.rel 0), .cmp .acc, .lda (.zpy 0)].all
      (fun i => !i.wellFormed) = true := by decide

theorem test_illformed_shift :
    [Instr.asl (.imm 0), .lsr (.absy 0), .rol (.indx 0), .ror .imp].all (fun i => !i.wellFormed) = true := by decide

theorem test_illformed_index :
    [Instr.cpx (.zpx 0), .cpy (.absx 0), .ldx (.zpx 0), .ldx (.absx 0), .ldy (.zpy 0), .ldy (.indy 0)].all
      (fun i => !i.wellFormed) = true := by decide

theorem test_illformed_memory :
    [Instr.inc .acc, .dec (.imm 0), .sta (.imm 0), .stx (.zpx 0), .sty (.absx 0), .bit (.imm 0)].all
      (fun i => !i.wellFormed) = true := by decide

/-- $EB is no unofficial NOP, $1A is one of the implied form only, and $EA is implemented. -/
theorem test_illformed_opcode_byte :
    [Instr.nopStar 0xEB .imp, .nopStar 0x1A (.zp 0), .unimp 0xEA].all (fun i => !i.wellFormed) = true := by decide

/-- A term with a form its mnemonic lacks is refused by name (log 10). -/
theorem test_illformed_refused :
    exec (.sta (.imm 0)) base = .refused .illFormed ∧ exec (.unimp 0xEA) base = .refused .illFormed ∧
    encode (.sta (.imm 0)) = [] := ⟨rfl, rfl, rfl⟩

/-! ## Decoding -/

/-- 30_encoding.md R71, R72: the bytes of the arith logic family, by mnemonic and mode. -/
theorem test_decode_arith_logic :
    bytesDecode [0x61, 0x65, 0x69, 0x6D, 0x71, 0x75, 0x79, 0x7D] =
      [.adc (.indx 0x12), .adc (.zp 0x12), .adc (.imm 0x12), .adc (.abs 0x3412), .adc (.indy 0x12),
       .adc (.zpx 0x12), .adc (.absy 0x3412), .adc (.absx 0x3412)] ∧
    bytesDecode [0xE1, 0xE5, 0xE9, 0xED, 0xF1, 0xF5, 0xF9, 0xFD] =
      [.sbc (.indx 0x12), .sbc (.zp 0x12), .sbc (.imm 0x12), .sbc (.abs 0x3412), .sbc (.indy 0x12),
       .sbc (.zpx 0x12), .sbc (.absy 0x3412), .sbc (.absx 0x3412)] ∧
    bytesDecode [0x21, 0x25, 0x29, 0x2D, 0x31, 0x35, 0x39, 0x3D] =
      [.and (.indx 0x12), .and (.zp 0x12), .and (.imm 0x12), .and (.abs 0x3412), .and (.indy 0x12),
       .and (.zpx 0x12), .and (.absy 0x3412), .and (.absx 0x3412)] ∧
    bytesDecode [0x01, 0x05, 0x09, 0x0D, 0x11, 0x15, 0x19, 0x1D] =
      [.ora (.indx 0x12), .ora (.zp 0x12), .ora (.imm 0x12), .ora (.abs 0x3412), .ora (.indy 0x12),
       .ora (.zpx 0x12), .ora (.absy 0x3412), .ora (.absx 0x3412)] ∧
    bytesDecode [0x41, 0x45, 0x49, 0x4D, 0x51, 0x55, 0x59, 0x5D] =
      [.eor (.indx 0x12), .eor (.zp 0x12), .eor (.imm 0x12), .eor (.abs 0x3412), .eor (.indy 0x12),
       .eor (.zpx 0x12), .eor (.absy 0x3412), .eor (.absx 0x3412)] := by
  decide

/-- 30_encoding.md R71, R72: the bytes of the shift rotate family, by mnemonic and mode. -/
theorem test_decode_shift_rotate :
    bytesDecode [0x06, 0x0A, 0x0E, 0x16, 0x1E] =
      [.asl (.zp 0x12), .asl .acc, .asl (.abs 0x3412), .asl (.zpx 0x12), .asl (.absx 0x3412)] ∧
    bytesDecode [0x46, 0x4A, 0x4E, 0x56, 0x5E] =
      [.lsr (.zp 0x12), .lsr .acc, .lsr (.abs 0x3412), .lsr (.zpx 0x12), .lsr (.absx 0x3412)] ∧
    bytesDecode [0x26, 0x2A, 0x2E, 0x36, 0x3E] =
      [.rol (.zp 0x12), .rol .acc, .rol (.abs 0x3412), .rol (.zpx 0x12), .rol (.absx 0x3412)] ∧
    bytesDecode [0x66, 0x6A, 0x6E, 0x76, 0x7E] =
      [.ror (.zp 0x12), .ror .acc, .ror (.abs 0x3412), .ror (.zpx 0x12), .ror (.absx 0x3412)] := by
  decide

/-- 30_encoding.md R71, R72: the bytes of the compare family, by mnemonic and mode. -/
theorem test_decode_compare :
    bytesDecode [0xC1, 0xC5, 0xC9, 0xCD, 0xD1, 0xD5, 0xD9, 0xDD] =
      [.cmp (.indx 0x12), .cmp (.zp 0x12), .cmp (.imm 0x12), .cmp (.abs 0x3412), .cmp (.indy 0x12),
       .cmp (.zpx 0x12), .cmp (.absy 0x3412), .cmp (.absx 0x3412)] ∧
    bytesDecode [0xE0, 0xE4, 0xEC] =
      [.cpx (.imm 0x12), .cpx (.zp 0x12), .cpx (.abs 0x3412)] ∧
    bytesDecode [0xC0, 0xC4, 0xCC] =
      [.cpy (.imm 0x12), .cpy (.zp 0x12), .cpy (.abs 0x3412)] := by
  decide

/-- 30_encoding.md R71, R72: the bytes of the inc dec family, by mnemonic and mode. -/
theorem test_decode_inc_dec :
    bytesDecode [0xE6, 0xEE, 0xF6, 0xFE] =
      [.inc (.zp 0x12), .inc (.abs 0x3412), .inc (.zpx 0x12), .inc (.absx 0x3412)] ∧
    bytesDecode [0xC6, 0xCE, 0xD6, 0xDE] =
      [.dec (.zp 0x12), .dec (.abs 0x3412), .dec (.zpx 0x12), .dec (.absx 0x3412)] ∧
    bytesDecode [0xE8] =
      [.inx] ∧
    bytesDecode [0xC8] =
      [.iny] ∧
    bytesDecode [0xCA] =
      [.dex] ∧
    bytesDecode [0x88] =
      [.dey] := by
  decide

/-- 30_encoding.md R71, R72: the bytes of the branch family, by mnemonic and mode. -/
theorem test_decode_branch :
    bytesDecode [0x90] =
      [.bcc 0x12] ∧
    bytesDecode [0xB0] =
      [.bcs 0x12] ∧
    bytesDecode [0xF0] =
      [.beq 0x12] ∧
    bytesDecode [0xD0] =
      [.bne 0x12] ∧
    bytesDecode [0x30] =
      [.bmi 0x12] ∧
    bytesDecode [0x10] =
      [.bpl 0x12] ∧
    bytesDecode [0x50] =
      [.bvc 0x12] ∧
    bytesDecode [0x70] =
      [.bvs 0x12] := by
  decide

/-- 30_encoding.md R71, R72: the bytes of the jump family, by mnemonic and mode. -/
theorem test_decode_jump :
    bytesDecode [0x4C] =
      [.jmpAbs 0x3412] ∧
    bytesDecode [0x6C] =
      [.jmpInd 0x3412] ∧
    bytesDecode [0x20] =
      [.jsr 0x3412] ∧
    bytesDecode [0x60] =
      [.rts] := by
  decide

/-- 30_encoding.md R71, R72: the bytes of the load family, by mnemonic and mode. -/
theorem test_decode_load :
    bytesDecode [0xA1, 0xA5, 0xA9, 0xAD, 0xB1, 0xB5, 0xB9, 0xBD] =
      [.lda (.indx 0x12), .lda (.zp 0x12), .lda (.imm 0x12), .lda (.abs 0x3412), .lda (.indy 0x12),
       .lda (.zpx 0x12), .lda (.absy 0x3412), .lda (.absx 0x3412)] ∧
    bytesDecode [0xA2, 0xA6, 0xAE, 0xB6, 0xBE] =
      [.ldx (.imm 0x12), .ldx (.zp 0x12), .ldx (.abs 0x3412), .ldx (.zpy 0x12), .ldx (.absy 0x3412)] ∧
    bytesDecode [0xA0, 0xA4, 0xAC, 0xB4, 0xBC] =
      [.ldy (.imm 0x12), .ldy (.zp 0x12), .ldy (.abs 0x3412), .ldy (.zpx 0x12), .ldy (.absx 0x3412)] := by
  decide

/-- 30_encoding.md R71, R72: the bytes of the store family, by mnemonic and mode. -/
theorem test_decode_store :
    bytesDecode [0x81, 0x85, 0x8D, 0x91, 0x95, 0x99, 0x9D] =
      [.sta (.indx 0x12), .sta (.zp 0x12), .sta (.abs 0x3412), .sta (.indy 0x12), .sta (.zpx 0x12),
       .sta (.absy 0x3412), .sta (.absx 0x3412)] ∧
    bytesDecode [0x86, 0x8E, 0x96] =
      [.stx (.zp 0x12), .stx (.abs 0x3412), .stx (.zpy 0x12)] ∧
    bytesDecode [0x84, 0x8C, 0x94] =
      [.sty (.zp 0x12), .sty (.abs 0x3412), .sty (.zpx 0x12)] := by
  decide

/-- 30_encoding.md R71, R72: the bytes of the stack transfer family, by mnemonic and mode. -/
theorem test_decode_stack_transfer :
    bytesDecode [0x48] =
      [.pha] ∧
    bytesDecode [0x08] =
      [.php] ∧
    bytesDecode [0x68] =
      [.pla] ∧
    bytesDecode [0x28] =
      [.plp] ∧
    bytesDecode [0xAA] =
      [.tax] ∧
    bytesDecode [0xA8] =
      [.tay] ∧
    bytesDecode [0x8A] =
      [.txa] ∧
    bytesDecode [0x98] =
      [.tya] ∧
    bytesDecode [0xBA] =
      [.tsx] ∧
    bytesDecode [0x9A] =
      [.txs] := by
  decide

/-- 30_encoding.md R71, R72: the bytes of the misc family, by mnemonic and mode. -/
theorem test_decode_misc :
    bytesDecode [0x24, 0x2C] =
      [.bit (.zp 0x12), .bit (.abs 0x3412)] ∧
    bytesDecode [0x00] =
      [.brk] ∧
    bytesDecode [0x40] =
      [.rti] ∧
    bytesDecode [0x18] =
      [.clc] ∧
    bytesDecode [0x38] =
      [.sec] ∧
    bytesDecode [0x58] =
      [.cli] ∧
    bytesDecode [0x78] =
      [.sei] ∧
    bytesDecode [0xD8] =
      [.cld] ∧
    bytesDecode [0xF8] =
      [.sed] ∧
    bytesDecode [0xB8] =
      [.clv] ∧
    bytesDecode [0xEA] =
      [.nop] := by
  decide

/-- 30_encoding.md R71, R72: the bytes of the nop star family, by mnemonic and mode. -/
theorem test_decode_nop_star :
    bytesDecode [0x04, 0x0C, 0x14, 0x1A, 0x1C, 0x34, 0x3A, 0x3C, 0x44, 0x54, 0x5A, 0x5C, 0x64, 0x74, 0x7A, 0x7C,
      0x80, 0x82, 0x89, 0xC2, 0xD4, 0xDA, 0xDC, 0xE2, 0xF4, 0xFA, 0xFC] =
      [.nopStar 0x04 (.zp 0x12), .nopStar 0x0C (.abs 0x3412), .nopStar 0x14 (.zpx 0x12), .nopStar 0x1A .imp,
       .nopStar 0x1C (.absx 0x3412), .nopStar 0x34 (.zpx 0x12), .nopStar 0x3A .imp, .nopStar 0x3C (.absx 0x3412),
       .nopStar 0x44 (.zp 0x12), .nopStar 0x54 (.zpx 0x12), .nopStar 0x5A .imp, .nopStar 0x5C (.absx 0x3412),
       .nopStar 0x64 (.zp 0x12), .nopStar 0x74 (.zpx 0x12), .nopStar 0x7A .imp, .nopStar 0x7C (.absx 0x3412),
       .nopStar 0x80 (.imm 0x12), .nopStar 0x82 (.imm 0x12), .nopStar 0x89 (.imm 0x12),
       .nopStar 0xC2 (.imm 0x12), .nopStar 0xD4 (.zpx 0x12), .nopStar 0xDA .imp, .nopStar 0xDC (.absx 0x3412),
       .nopStar 0xE2 (.imm 0x12), .nopStar 0xF4 (.zpx 0x12), .nopStar 0xFA .imp, .nopStar 0xFC (.absx 0x3412)] := by
  decide

/-- 30_encoding.md R73: the unimplemented bytes. -/
theorem test_decode_unimplemented : ∀ op ∈ unimplementedBytes, decode op 0x12 0x34 = .unimp op := by decide

/-- 30_encoding.md R64's pattern and R65's lengths on words written bit by bit, with the bytes that follow left over. -/
theorem test_decode_bytes :
    decodeBytes [0b10111101, 0x34, 0x12, 0xEA] = .ok (.lda (.absx 0x1234), [0xEA]) ∧
    decodeBytes [0b11010000, 0xFB] = .ok (.bne 0xFB, []) ∧
    decodeBytes [0b10001101, 0x00] = .error (.missingOperand 0x8D) ∧
    decodeBytes [] = .error .noOpcode := ⟨rfl, rfl, rfl, rfl⟩

theorem test_encode :
    encode (.jmpInd 0x02FF) = [0x6C, 0xFF, 0x02] ∧ encode (.stx (.zpy 0x10)) = [0x96, 0x10] ∧
    encode (.nopStar 0x1C (.absx 0x20FF)) = [0x1C, 0xFF, 0x20] := by decide

theorem test_table_word :
    decodeTableWord 8 0x69 = some (.adc (.imm 0)) ∧ decodeTableWord 24 0x12346C = some (.jmpInd 0x1234) := by decide

/-! ## Costs: the columns of spec/opcode_table.json -/

/-- The `cycles` and `page_cross_penalty` fields of spec/opcode_table.json, as `baseCosts` and `penaltyBytes` write them out. -/
theorem test_base_cycles :
    (List.range 256).map (fun n => baseCycles (decodeOpcode (BitVec.ofNat 8 n))) = baseCosts.flatten := by decide +kernel

theorem test_page_cross_penalties :
    (List.range 256).filterMap (fun n =>
      if pageCrossPenalty (decodeOpcode (BitVec.ofNat 8 n)) then some (BitVec.ofNat 8 n) else none) =
      penaltyBytes := by decide +kernel

/-! ## Reset, the run step and the host's helpers -/

/-- 10_state.md R33 and 70_reset_and_hazards.md R189, with P = $34 for draws of 0. -/
theorem test_reset :
    State.reset.sp = 0xFD ∧ State.reset.p = 0x34 ∧ State.reset.cyc = 0 ∧ State.reset.fault = none ∧
    State.reset.busLog = [] ∧ State.reset.pc = 0 := ⟨rfl, rfl, rfl, rfl, rfl, rfl⟩

theorem test_reset_memory_wf : Memory.wf State.reset.mem := by decide

/-- R189: the drawn flags pass the mask %11001011 and I, B, U are set. -/
theorem test_reset_draws :
    ({ Launch.blank with p := 0xFF, a := 0x11, ram := [0x22] }.reset.p = 0xFF) ∧
    ({ Launch.blank with p := 0x00 }.reset.p = 0x34) ∧
    ({ Launch.blank with ram := [0x00, 0x22] }.reset.peek 0x1801 = some 0x22) := by decide

/-- R77: a positive countdown is decremented and nothing else. -/
theorem test_countdown : step { base with cyc := 2 } = .next { base with cyc := 1 } := rfl

/-- R77, R169: a faulted CORE takes no step. -/
theorem test_faulted_stops :
    step { base with fault := some ⟨.unmappedAccess 0x2008 .read, 0x0200⟩ } =
      .next { base with fault := some ⟨.unmappedAccess 0x2008 .read, 0x0200⟩ } := rfl

/-- R171, R176: an unmapped PC faults at the opcode fetch. -/
theorem test_fetch_unmapped :
    seen [] (step { base with pc := 0x4020 }) =
      some ⟨⟨0, 0, 0, 0x24, 0xFD, 0x4020, 0⟩, [], some ⟨.unmappedAccess 0x4020 .read, 0x4020⟩, []⟩ := by decide

/-- R21: an instruction at $FFFF takes its operand bytes from $0000 and $0001. -/
theorem test_fetch_wraps :
    seen [] (step (placed [(0xFFFF, 0x4C), (0x0000, 0x34), (0x0001, 0x12)] { base with pc := 0xFFFF })) =
      some ⟨⟨0, 0, 0, 0x24, 0xFD, 0x1234, 3⟩, [R 0xFFFF 0x4C, R 0x0000 0x34, R 0x0001 0x12], none, []⟩ := by decide

/-- R43, R156: `BIT $2002` takes N and V from the draw, whatever it is, and logs the access. -/
theorem test_ppu_read :
    step (placed [(0x0200, 0xAD), (0x0201, 0x02), (0x0202, 0x20)] base) =
      .next { placed [(0x0200, 0xAD), (0x0201, 0x02), (0x0202, 0x20)] base with
        a := Config.ppuRead 0, p := setZN 0x24 (Config.ppuRead 0), pc := 0x0203, cyc := 4, ppuDraws := 1,
        busLog := [R 0x0200 0xAD, R 0x0201 0x02, R 0x0202 0x20, R 0x2002 (Config.ppuRead 0)] } := rfl

/-- R43, R145: a PPU write changes the log alone. -/
theorem test_ppu_write :
    memWrite 0x2000 0x09 base = .next { base with busLog := [W 0x2000 0x09] } := rfl

/-- R47: the host takes the log, and finds the PPU accesses in it. -/
theorem test_bus_log_consumed :
    ppuAccesses ({ base with busLog := [R 0x0200 0x8D, W 0x2007 0x01] } : State).consumeBusLog.1 = [W 0x2007 0x01] ∧
    ({ base with busLog := [R 0x0200 0x8D] } : State).consumeBusLog.2 = base := by decide

/-- The host's words run as the first instruction after reset: `LDA #$80`, and `JMP $1234`. -/
theorem test_with_fetch_word :
    seen [] (step (State.reset.withFetchWord 16 0x80A9)) =
      some ⟨⟨0x80, 0, 0, 0xB4, 0xFD, 0x0002, 2⟩, [R 0x0000 0xA9, R 0x0001 0x80], none, []⟩ ∧
    seen [] (step (State.reset.withFetchWord 24 0x12344C)) =
      some ⟨⟨0, 0, 0, 0x34, 0xFD, 0x1234, 3⟩, [R 0x0000 0x4C, R 0x0001 0x34, R 0x0002 0x12], none, []⟩ := by decide

/-- The default instance with interrupt lines (R8, R182). -/
def withLines : Params := { Params.default with hasInterruptLines := true }

/-- R182, R183 (optional): IRQ enters at the vector $FFFE with B = 0 in the pushed copy; masked by I it does not. -/
theorem test_irq :
    seen [0x01FD, 0x01FC, 0x01FB]
        (stepWith withLines (placed [(0xFFFF, 0x90)] { base with irq := true, p := 0x30, pc := 0x8001 })) =
      some ⟨⟨0, 0, 0, 0x34, 0xFA, 0x9000, 7⟩,
        [W 0x01FD 0x80, W 0x01FC 0x01, W 0x01FB 0x20, R 0xFFFE 0x00, R 0xFFFF 0x90], none,
        [some 0x80, some 0x01, some 0x20]⟩ ∧
    pendingVector { base with irq := true } = none ∧
    pendingVector { base with irq := true, nmiEdge := true } = some 0xFFFA := by decide

/-! ## Other hardware instances (R8) -/

/-- A `MEMORY_MAP` with RAM mirrored up to $7FFF (D11 leaves the map to the parameter). -/
def moreRam : Params :=
  { Params.default with memoryMap := fun a => if a.toNat < 0x8000 then .ram else defaultMemoryMap a }

/-- R8, R40, R44: the instance's map decides what is mapped: `LDA $4012` faults by the default map and reads by the other. -/
theorem test_other_map :
    seen [] (step (placed [(0x0200, 0xAD), (0x0201, 0x12), (0x0202, 0x40), (0x0012, 0x77)] base)) =
      some ⟨⟨0, 0, 0, 0x24, 0xFD, 0x0200, 0⟩, [R 0x0200 0xAD, R 0x0201 0x12, R 0x0202 0x40],
        some ⟨.unmappedAccess 0x4012 .read, 0x0200⟩, []⟩ ∧
    seen [] (stepWith moreRam (placed [(0x0200, 0xAD), (0x0201, 0x12), (0x0202, 0x40), (0x0012, 0x77)] base)) =
      some ⟨⟨0x77, 0, 0, 0x24, 0xFD, 0x0203, 4⟩, [R 0x0200 0xAD, R 0x0201 0x12, R 0x0202 0x40, R 0x4012 0x77], none, []⟩ := by
  decide

/-- R8, R72, R79: with `UNOFFICIAL_NOPS` one other byte, that byte is a NOP of its mode's length and $1A is unimplemented. -/
theorem test_other_nops :
    decode 0x02 0x34 0x12 [(0x02, .abs)] = .nopStar 0x02 (.abs 0x1234) ∧ decode 0x1A 0 0 [(0x02, .abs)] = .unimp 0x1A ∧
    decode 0xEA 0 0 [(0xEA, .abs)] = .nop ∧
    seen [] (stepWith { Params.default with unofficialNops := [(0x02, .abs)] } (placed [(0x0200, 0x02)] base)) =
      some ⟨⟨0, 0, 0, 0x24, 0xFD, 0x0203, 0⟩, [R 0x0200 0x02, R 0x0201 0x00, R 0x0202 0x00], none, []⟩ := by decide

/-- R8, R85: `CYCLES` decides CYC from the opcode byte, `crossed`, `taken` and `branch_crossed`: `LDA $02FF,X` with a page
cross, and `BCC` taken. -/
theorem test_other_cycles :
    seen [] (stepWith
        { Params.default with cycles := fun op c t b => op + (if c then 1 else 0) + (if t then 2 else 0) + (if b then 4 else 0) }
        (placed [(0x0200, 0xBD), (0x0201, 0xFF), (0x0202, 0x02)] { base with x := 0x01 })) =
      some ⟨⟨0, 0x01, 0, 0x26, 0xFD, 0x0203, 0xBE⟩, [R 0x0200 0xBD, R 0x0201 0xFF, R 0x0202 0x02, R 0x0300 0x00], none, []⟩ ∧
    seen [] (stepWith
        { Params.default with cycles := fun op c t b => op + (if c then 1 else 0) + (if t then 2 else 0) + (if b then 4 else 0) }
        (placed [(0x0200, 0x90), (0x0201, 0x10)] base)) =
      some ⟨⟨0, 0, 0, 0x24, 0xFD, 0x0212, 0x92⟩, [R 0x0200 0x90, R 0x0201 0x10], none, []⟩ := by decide

/-- R192, R40: the default map has the vectors in ROM. -/
theorem test_vectors_in_rom {a : Word} (h : 0xFFFA ≤ a.toNat) : InRom a := .inr (by
  show defaultMemoryMap a = .romTwo
  unfold defaultMemoryMap
  repeat' split
  all_goals first | rfl | omega)

theorem test_reset_is_clean_launch : CleanLaunch State.reset :=
  ⟨⟨.blank, [], rfl⟩, rfl, rfl, rfl, rfl, fun _ => test_vectors_in_rom⟩

/-- A launch of `NOP` and then a `JMP` to itself, set up in RAM by harness writes (R57). -/
def nopLaunch : State :=
  Launch.blank.reset.harnessWrites
    [.pc 0x0200, .ram 0x0200 0xEA, .ram 0x0201 0x4C, .ram 0x0202 0x01, .ram 0x0203 0x02, .ram 0x8000 0xFF]

theorem test_harness_writes :
    nopLaunch.pc = 0x0200 ∧ nopLaunch.peek 0x0A01 = some 0x4C ∧ nopLaunch.peek 0x8000 = some 0x00 ∧
    nopLaunch.busLog = [] := by decide

theorem test_nop_clean_launch : CleanLaunch nopLaunch :=
  ⟨⟨.blank, _, rfl⟩, rfl, by decide, by decide, by decide, fun _ => test_vectors_in_rom⟩

/-- Whether k run calls of the default instance lead to a state with the end marker. -/
def endsIn (k : Nat) (s : State) : Bool :=
  match runCalls .default k s with
  | .next u => decide (AtEnd u)
  | .fault _ | .refused _ => false

/-- R199, R86: a run of `NOP` (cost 2) and the end marker ends after three run calls, at the marker's address. -/
theorem test_end_of_run : ∃ t, EndsAt nopLaunch 3 t ∧ t.pc = 0x0201 := by
  have notYet : ∀ j u, runCalls .default j nopLaunch = .next u → endsIn j nopLaunch = false → ¬ AtEnd u := by
    intro j u hu he
    simpa only [endsIn, hu, decide_eq_false_iff_not] using he
  refine ⟨_, ⟨test_nop_clean_launch, rfl, by decide, fun j u hj hu => notYet j u hu ?_⟩, by decide⟩
  have : j = 0 ∨ j = 1 ∨ j = 2 := by omega
  rcases this with rfl | rfl | rfl <;> decide

/-! ## Vectors of 95_test_vectors.md -/

/-- 95_test_vectors.md A3: `LDA $12FF,X` (R41, R95, R101, R85). -/
theorem test_A3_lda :
    seen [] (step (placed [(0x0200, 0xBD), (0x0201, 0xFF), (0x0202, 0x12), (0x0300, 0x55)] { base with x := 0x01 })) =
      some ⟨⟨0x55, 0x01, 0x00, 0x24, 0xFD, 0x0203, 0x05⟩,
        [R 0x0200 0xBD, R 0x0201 0xFF, R 0x0202 0x12, R 0x1300 0x55], none, []⟩ := by
  decide

/-- 95_test_vectors.md A7: `LDA ($FF),Y` (R98, R101). -/
theorem test_A7_lda :
    seen []
      (step (placed [(0x0200, 0xB1), (0x0201, 0xFF), (0x0000, 0x02), (0x00FF, 0xF8), (0x0308, 0x11)]
        { base with y := 0x10 })) =
      some ⟨⟨0x11, 0x00, 0x10, 0x24, 0xFD, 0x0202, 0x06⟩,
        [R 0x0200 0xB1, R 0x0201 0xFF, R 0x00FF 0xF8, R 0x0000 0x02, R 0x0308 0x11], none, []⟩ := by
  decide

/-- 95_test_vectors.md A2: `LDX $FF,Y` (R93, R141). -/
theorem test_A2_ldx :
    seen [] (step (placed [(0x0200, 0xB6), (0x0201, 0xFF), (0x0001, 0x7F)] { base with y := 0x02 })) =
      some ⟨⟨0x00, 0x7F, 0x02, 0x24, 0xFD, 0x0202, 0x04⟩, [R 0x0200 0xB6, R 0x0201 0xFF, R 0x0001 0x7F], none, []⟩ := by
  decide

/-- 95_test_vectors.md L3: `LDX #$7F` (R141). -/
theorem test_L3_ldx :
    seen [] (step (placed [(0x0200, 0xA2), (0x0201, 0x7F)] { base with p := 0xA6 })) =
      some ⟨⟨0x00, 0x7F, 0x00, 0x24, 0xFD, 0x0202, 0x02⟩, [R 0x0200 0xA2, R 0x0201 0x7F], none, []⟩ := by
  decide

/-- 95_test_vectors.md A10: `STA $1801` (R41, R143). -/
theorem test_A10_sta :
    seen [0x0001] (step (placed [(0x0200, 0x8D), (0x0201, 0x01), (0x0202, 0x18)] { base with a := 0x77 })) =
      some ⟨⟨0x77, 0x00, 0x00, 0x24, 0xFD, 0x0203, 0x04⟩,
        [R 0x0200 0x8D, R 0x0201 0x01, R 0x0202 0x18, W 0x1801 0x77], none, [some 0x77]⟩ := by
  decide

/-- 95_test_vectors.md L4: `STA $8000` (R143, R172). -/
theorem test_L4_sta :
    seen [] (step (placed [(0x0200, 0x8D), (0x0201, 0x00), (0x0202, 0x80)] { base with a := 0x5A })) =
      some ⟨⟨0x5A, 0x00, 0x00, 0x24, 0xFD, 0x0200, 0x00⟩,
        [R 0x0200 0x8D, R 0x0201 0x00, R 0x0202 0x80], some ⟨.romWrite 0x8000 0x5A, 0x0200⟩, []⟩ := by
  decide

/-- 95_test_vectors.md L7: `STX $FF,Y` (R144, R93). -/
theorem test_L7_stx :
    seen [0x0001] (step (placed [(0x0200, 0x96), (0x0201, 0xFF)] { base with x := 0xAA, y := 0x02 })) =
      some ⟨⟨0x00, 0xAA, 0x02, 0x24, 0xFD, 0x0202, 0x04⟩,
        [R 0x0200 0x96, R 0x0201 0xFF, W 0x0001 0xAA], none, [some 0xAA]⟩ := by
  decide

/-- 95_test_vectors.md L8: `STY $10,X` (R145 (no flag)). -/
theorem test_L8_sty :
    seen [0x0011] (step (placed [(0x0200, 0x94), (0x0201, 0x10), (0x0011, 0xEE)] { base with x := 0x01 })) =
      some ⟨⟨0x00, 0x01, 0x00, 0x24, 0xFD, 0x0202, 0x04⟩,
        [R 0x0200 0x94, R 0x0201 0x10, W 0x0011 0x00], none, [some 0x00]⟩ := by
  decide

/-- 95_test_vectors.md B1: `ADC #$50` (R109, R105). -/
theorem test_B1_adc :
    seen [] (step (placed [(0x0200, 0x69), (0x0201, 0x50)] { base with a := 0x50 })) =
      some ⟨⟨0xA0, 0x00, 0x00, 0xE4, 0xFD, 0x0202, 0x02⟩, [R 0x0200 0x69, R 0x0201 0x50], none, []⟩ := by
  decide

/-- 95_test_vectors.md B4: `ADC #$00` (R109). -/
theorem test_B4_adc :
    seen [] (step (placed [(0x0200, 0x69), (0x0201, 0x00)] { base with a := 0x7F, p := 0x25 })) =
      some ⟨⟨0x80, 0x00, 0x00, 0xE4, 0xFD, 0x0202, 0x02⟩, [R 0x0200 0x69, R 0x0201 0x00], none, []⟩ := by
  decide

/-- 95_test_vectors.md B8: `SBC #$B0` (R110). -/
theorem test_B8_sbc :
    seen [] (step (placed [(0x0200, 0xE9), (0x0201, 0xB0)] { base with a := 0x50, p := 0x25 })) =
      some ⟨⟨0xA0, 0x00, 0x00, 0xE4, 0xFD, 0x0202, 0x02⟩, [R 0x0200 0xE9, R 0x0201 0xB0], none, []⟩ := by
  decide

/-- 95_test_vectors.md B10: `SBC #$01` (R110). -/
theorem test_B10_sbc :
    seen [] (step (placed [(0x0200, 0xE9), (0x0201, 0x01)] { base with a := 0x80, p := 0x25 })) =
      some ⟨⟨0x7F, 0x00, 0x00, 0x65, 0xFD, 0x0202, 0x02⟩, [R 0x0200 0xE9, R 0x0201 0x01], none, []⟩ := by
  decide

/-- 95_test_vectors.md B13: `AND #$0F` (R111, R107 (C, V kept)). -/
theorem test_B13_and :
    seen [] (step (placed [(0x0200, 0x29), (0x0201, 0x0F)] { base with a := 0xF0, p := 0x65 })) =
      some ⟨⟨0x00, 0x00, 0x00, 0x67, 0xFD, 0x0202, 0x02⟩, [R 0x0200 0x29, R 0x0201 0x0F], none, []⟩ := by
  decide

/-- 95_test_vectors.md B14: `ORA #$01` (R112). -/
theorem test_B14_ora :
    seen [] (step (placed [(0x0200, 0x09), (0x0201, 0x01)] { base with a := 0x80 })) =
      some ⟨⟨0x81, 0x00, 0x00, 0xA4, 0xFD, 0x0202, 0x02⟩, [R 0x0200 0x09, R 0x0201 0x01], none, []⟩ := by
  decide

/-- 95_test_vectors.md B15: `EOR #$FF` (R113). -/
theorem test_B15_eor :
    seen [] (step (placed [(0x0200, 0x49), (0x0201, 0xFF)] { base with a := 0xFF })) =
      some ⟨⟨0x00, 0x00, 0x00, 0x26, 0xFD, 0x0202, 0x02⟩, [R 0x0200 0x49, R 0x0201 0xFF], none, []⟩ := by
  decide

/-- 95_test_vectors.md S1: `ASL A` (R114). -/
theorem test_S1_asl :
    seen [] (step (placed [(0x0200, 0x0A)] { base with a := 0x80 })) =
      some ⟨⟨0x00, 0x00, 0x00, 0x27, 0xFD, 0x0201, 0x02⟩, [R 0x0200 0x0A], none, []⟩ := by
  decide

/-- 95_test_vectors.md S8: `ASL $10` (R114, R102 (one read, one write)). -/
theorem test_S8_asl :
    seen [0x0010] (step (placed [(0x0200, 0x06), (0x0201, 0x10), (0x0010, 0x40)] base)) =
      some ⟨⟨0x00, 0x00, 0x00, 0xA4, 0xFD, 0x0202, 0x05⟩,
        [R 0x0200 0x06, R 0x0201 0x10, R 0x0010 0x40, W 0x0010 0x80], none, [some 0x80]⟩ := by
  decide

/-- 95_test_vectors.md S3: `LSR A` (R115 (N always 0)). -/
theorem test_S3_lsr :
    seen [] (step (placed [(0x0200, 0x4A)] { base with a := 0xFF })) =
      some ⟨⟨0x7F, 0x00, 0x00, 0x25, 0xFD, 0x0201, 0x02⟩, [R 0x0200 0x4A], none, []⟩ := by
  decide

/-- 95_test_vectors.md S2: `LSR A` (R115). -/
theorem test_S2_lsr :
    seen [] (step (placed [(0x0200, 0x4A)] { base with a := 0x01 })) =
      some ⟨⟨0x00, 0x00, 0x00, 0x27, 0xFD, 0x0201, 0x02⟩, [R 0x0200 0x4A], none, []⟩ := by
  decide

/-- 95_test_vectors.md S5: `ROL A` (R116). -/
theorem test_S5_rol :
    seen [] (step (placed [(0x0200, 0x2A)] { base with p := 0x25 })) =
      some ⟨⟨0x01, 0x00, 0x00, 0x24, 0xFD, 0x0201, 0x02⟩, [R 0x0200 0x2A], none, []⟩ := by
  decide

/-- 95_test_vectors.md S4: `ROL A` (R116). -/
theorem test_S4_rol :
    seen [] (step (placed [(0x0200, 0x2A)] { base with a := 0x80 })) =
      some ⟨⟨0x00, 0x00, 0x00, 0x27, 0xFD, 0x0201, 0x02⟩, [R 0x0200 0x2A], none, []⟩ := by
  decide

/-- 95_test_vectors.md S9: `ROR $10,X` (R117, R92). -/
theorem test_S9_ror :
    seen [0x0011] (step (placed [(0x0200, 0x76), (0x0201, 0x10), (0x0011, 0x01)] { base with x := 0x01, p := 0x25 })) =
      some ⟨⟨0x00, 0x01, 0x00, 0xA5, 0xFD, 0x0202, 0x06⟩,
        [R 0x0200 0x76, R 0x0201 0x10, R 0x0011 0x01, W 0x0011 0x80], none, [some 0x80]⟩ := by
  decide

/-- 95_test_vectors.md S7: `ROR A` (R117). -/
theorem test_S7_ror :
    seen [] (step (placed [(0x0200, 0x6A)] { base with p := 0x25 })) =
      some ⟨⟨0x80, 0x00, 0x00, 0xA4, 0xFD, 0x0201, 0x02⟩, [R 0x0200 0x6A], none, []⟩ := by
  decide

/-- 95_test_vectors.md K1: `CMP #$80` (R118). -/
theorem test_K1_cmp :
    seen [] (step (placed [(0x0200, 0xC9), (0x0201, 0x80)] { base with a := 0x80 })) =
      some ⟨⟨0x80, 0x00, 0x00, 0x27, 0xFD, 0x0202, 0x02⟩, [R 0x0200 0xC9, R 0x0201 0x80], none, []⟩ := by
  decide

/-- 95_test_vectors.md K2: `CMP #$80` (R118). -/
theorem test_K2_cmp :
    seen [] (step (placed [(0x0200, 0xC9), (0x0201, 0x80)] { base with a := 0x05 })) =
      some ⟨⟨0x05, 0x00, 0x00, 0xA4, 0xFD, 0x0202, 0x02⟩, [R 0x0200 0xC9, R 0x0201 0x80], none, []⟩ := by
  decide

/-- 95_test_vectors.md K5: `CPX #$00` (R119). -/
theorem test_K5_cpx :
    seen [] (step (placed [(0x0200, 0xE0), (0x0201, 0x00)] base)) =
      some ⟨⟨0x00, 0x00, 0x00, 0x27, 0xFD, 0x0202, 0x02⟩, [R 0x0200 0xE0, R 0x0201 0x00], none, []⟩ := by
  decide

/-- 95_test_vectors.md K6: `CPY #$10` (R120 (V kept)). -/
theorem test_K6_cpy :
    seen [] (step (placed [(0x0200, 0xC0), (0x0201, 0x10)] { base with y := 0x20, p := 0x64 })) =
      some ⟨⟨0x00, 0x00, 0x20, 0x65, 0xFD, 0x0202, 0x02⟩, [R 0x0200 0xC0, R 0x0201 0x10], none, []⟩ := by
  decide

/-- 95_test_vectors.md K7: `INC $10` (R121 (C kept)). -/
theorem test_K7_inc :
    seen [0x0010] (step (placed [(0x0200, 0xE6), (0x0201, 0x10), (0x0010, 0xFF)] { base with p := 0x25 })) =
      some ⟨⟨0x00, 0x00, 0x00, 0x27, 0xFD, 0x0202, 0x05⟩,
        [R 0x0200 0xE6, R 0x0201 0x10, R 0x0010 0xFF, W 0x0010 0x00], none, [some 0x00]⟩ := by
  decide

/-- 95_test_vectors.md K8: `DEC $10` (R122). -/
theorem test_K8_dec :
    seen [0x0010] (step (placed [(0x0200, 0xC6), (0x0201, 0x10), (0x0010, 0x00)] base)) =
      some ⟨⟨0x00, 0x00, 0x00, 0xA4, 0xFD, 0x0202, 0x05⟩,
        [R 0x0200 0xC6, R 0x0201 0x10, R 0x0010 0x00, W 0x0010 0xFF], none, [some 0xFF]⟩ := by
  decide

/-- 95_test_vectors.md K9: `INX` (R123). -/
theorem test_K9_inx :
    seen [] (step (placed [(0x0200, 0xE8)] { base with x := 0xFF })) =
      some ⟨⟨0x00, 0x00, 0x00, 0x26, 0xFD, 0x0201, 0x02⟩, [R 0x0200 0xE8], none, []⟩ := by
  decide

/-- 95_test_vectors.md K10: `INY` (R124). -/
theorem test_K10_iny :
    seen [] (step (placed [(0x0200, 0xC8)] { base with y := 0x7F })) =
      some ⟨⟨0x00, 0x00, 0x80, 0xA4, 0xFD, 0x0201, 0x02⟩, [R 0x0200 0xC8], none, []⟩ := by
  decide

/-- 95_test_vectors.md K11: `DEX` (R125). -/
theorem test_K11_dex :
    seen [] (step (placed [(0x0200, 0xCA)] { base with x := 0x01 })) =
      some ⟨⟨0x00, 0x00, 0x00, 0x26, 0xFD, 0x0201, 0x02⟩, [R 0x0200 0xCA], none, []⟩ := by
  decide

/-- 95_test_vectors.md K12: `DEY` (R126). -/
theorem test_K12_dey :
    seen [] (step (placed [(0x0200, 0x88)] base)) =
      some ⟨⟨0x00, 0x00, 0xFF, 0xA4, 0xFD, 0x0201, 0x02⟩, [R 0x0200 0x88], none, []⟩ := by
  decide

/-- 95_test_vectors.md J9: `BCC -12` (R128). -/
theorem test_J9_bcc :
    seen [] (step (placed [(0x0100, 0x90), (0x0101, 0xF4)] { base with pc := 0x0100 })) =
      some ⟨⟨0x00, 0x00, 0x00, 0x24, 0xFD, 0x00F6, 0x04⟩, [R 0x0100 0x90, R 0x0101 0xF4], none, []⟩ := by
  decide

/-- 95_test_vectors.md J11: `BCS -12` (R129 (source example, C = 1)). -/
theorem test_J11_bcs :
    seen [] (step (placed [(0x0100, 0xB0), (0x0101, 0xF4)] { base with p := 0x25, pc := 0x0100 })) =
      some ⟨⟨0x00, 0x00, 0x00, 0x25, 0xFD, 0x00F6, 0x04⟩, [R 0x0100 0xB0, R 0x0101 0xF4], none, []⟩ := by
  decide

/-- 95_test_vectors.md J10: `BCS -12` (R129 (source example, C = 0)). -/
theorem test_J10_bcs :
    seen [] (step (placed [(0x0100, 0xB0), (0x0101, 0xF4)] { base with pc := 0x0100 })) =
      some ⟨⟨0x00, 0x00, 0x00, 0x24, 0xFD, 0x0102, 0x02⟩, [R 0x0100 0xB0, R 0x0101 0xF4], none, []⟩ := by
  decide

/-- 95_test_vectors.md J4: `BEQ +$7F` (R130, R85 (taken, page crossed)). -/
theorem test_J4_beq :
    seen [] (step (placed [(0x02F0, 0xF0), (0x02F1, 0x7F)] { base with p := 0x26, pc := 0x02F0 })) =
      some ⟨⟨0x00, 0x00, 0x00, 0x26, 0xFD, 0x0371, 0x04⟩, [R 0x02F0 0xF0, R 0x02F1 0x7F], none, []⟩ := by
  decide

/-- 95_test_vectors.md J3: `BNE -2` (R131). -/
theorem test_J3_bne :
    seen [] (step (placed [(0x0200, 0xD0), (0x0201, 0xFE)] base)) =
      some ⟨⟨0x00, 0x00, 0x00, 0x24, 0xFD, 0x0200, 0x03⟩, [R 0x0200 0xD0, R 0x0201 0xFE], none, []⟩ := by
  decide

/-- 95_test_vectors.md J5: `BMI -$80` (R132). -/
theorem test_J5_bmi :
    seen [] (step (placed [(0x0280, 0x30), (0x0281, 0x80)] { base with p := 0xA4, pc := 0x0280 })) =
      some ⟨⟨0x00, 0x00, 0x00, 0xA4, 0xFD, 0x0202, 0x03⟩, [R 0x0280 0x30, R 0x0281 0x80], none, []⟩ := by
  decide

/-- 95_test_vectors.md J6: `BPL +$10` (R133 (wraps past $FFFF)). -/
theorem test_J6_bpl :
    seen [] (step (placed [(0xFFF0, 0x10), (0xFFF1, 0x10)] { base with pc := 0xFFF0 })) =
      some ⟨⟨0x00, 0x00, 0x00, 0x24, 0xFD, 0x0002, 0x04⟩, [R 0xFFF0 0x10, R 0xFFF1 0x10], none, []⟩ := by
  decide

/-- 95_test_vectors.md J7: `BVC +2` (R134). -/
theorem test_J7_bvc :
    seen [] (step (placed [(0x0200, 0x50), (0x0201, 0x02)] base)) =
      some ⟨⟨0x00, 0x00, 0x00, 0x24, 0xFD, 0x0204, 0x03⟩, [R 0x0200 0x50, R 0x0201 0x02], none, []⟩ := by
  decide

/-- 95_test_vectors.md J8: `BVS +2` (R135 (not taken)). -/
theorem test_J8_bvs :
    seen [] (step (placed [(0x0200, 0x70), (0x0201, 0x02)] base)) =
      some ⟨⟨0x00, 0x00, 0x00, 0x24, 0xFD, 0x0202, 0x02⟩, [R 0x0200 0x70, R 0x0201 0x02], none, []⟩ := by
  decide

/-- 95_test_vectors.md JS1: `JMP $C000` (R136). -/
theorem test_JS1_jmp :
    seen [] (step (placed [(0x0200, 0x4C), (0x0201, 0x00), (0x0202, 0xC0)] base)) =
      some ⟨⟨0x00, 0x00, 0x00, 0x24, 0xFD, 0xC000, 0x03⟩, [R 0x0200 0x4C, R 0x0201 0x00, R 0x0202 0xC0], none, []⟩ := by
  decide

/-- 95_test_vectors.md JS2: `JMP ($02FF)` (R137 (page-wrap bug)). -/
theorem test_JS2_jmp :
    seen []
      (step (placed [(0x0400, 0x6C), (0x0401, 0xFF), (0x0402, 0x02), (0x0200, 0x12), (0x02FF, 0x34),
        (0x0300, 0x56)] { base with pc := 0x0400 })) =
      some ⟨⟨0x00, 0x00, 0x00, 0x24, 0xFD, 0x1234, 0x05⟩,
        [R 0x0400 0x6C, R 0x0401 0xFF, R 0x0402 0x02, R 0x02FF 0x34, R 0x0200 0x12], none, []⟩ := by
  decide

/-- 95_test_vectors.md JS4: `JSR $0300` (R138, R52). -/
theorem test_JS4_jsr :
    seen [0x01FD, 0x01FC] (step (placed [(0x0200, 0x20), (0x0201, 0x00), (0x0202, 0x03)] base)) =
      some ⟨⟨0x00, 0x00, 0x00, 0x24, 0xFB, 0x0300, 0x06⟩,
        [R 0x0200 0x20, R 0x0201 0x00, R 0x0202 0x03, W 0x01FD 0x02, W 0x01FC 0x02], none, [some 0x02, some 0x02]⟩ := by
  decide

/-- 95_test_vectors.md JS6: `JSR $0300` (R138, R173, R177 (partial effect kept)). -/
theorem test_JS6_jsr :
    seen [0x0101] (step (placed [(0x0200, 0x20), (0x0201, 0x00), (0x0202, 0x03)] { base with sp := 0x01 })) =
      some ⟨⟨0x00, 0x00, 0x00, 0x24, 0x00, 0x0200, 0x00⟩,
        [R 0x0200 0x20, R 0x0201 0x00, R 0x0202 0x03, W 0x0101 0x02],
        some ⟨.stackOverflow 0x00, 0x0200⟩, [some 0x02]⟩ := by
  decide

/-- 95_test_vectors.md JS5: `RTS` (R139, R53). -/
theorem test_JS5_rts :
    seen [] (step (placed [(0x0300, 0x60), (0x01FC, 0x02), (0x01FD, 0x02)] { base with sp := 0xFB, pc := 0x0300 })) =
      some ⟨⟨0x00, 0x00, 0x00, 0x24, 0xFD, 0x0203, 0x06⟩, [R 0x0300 0x60, R 0x01FC 0x02, R 0x01FD 0x02], none, []⟩ := by
  decide

/-- 95_test_vectors.md JS9: `RTS` (R139, R174, R177). -/
theorem test_JS9_rts :
    seen [] (step (placed [(0x0200, 0x60), (0x01FF, 0x11)] { base with sp := 0xFE })) =
      some ⟨⟨0x00, 0x00, 0x00, 0x24, 0xFF, 0x0200, 0x00⟩,
        [R 0x0200 0x60, R 0x01FF 0x11], some ⟨.stackUnderflow 0xFF, 0x0200⟩, []⟩ := by
  decide

/-- 95_test_vectors.md T1: `PHA` (R146, R50). -/
theorem test_T1_pha :
    seen [0x01FD] (step (placed [(0x0200, 0x48)] { base with a := 0x5A })) =
      some ⟨⟨0x5A, 0x00, 0x00, 0x24, 0xFC, 0x0201, 0x03⟩, [R 0x0200 0x48, W 0x01FD 0x5A], none, [some 0x5A]⟩ := by
  decide

/-- 95_test_vectors.md T2: `PHA` (R146, R173). -/
theorem test_T2_pha :
    seen [] (step (placed [(0x0200, 0x48)] { base with a := 0x01, sp := 0x00 })) =
      some ⟨⟨0x01, 0x00, 0x00, 0x24, 0x00, 0x0200, 0x00⟩, [R 0x0200 0x48], some ⟨.stackOverflow 0x00, 0x0200⟩, []⟩ := by
  decide

/-- 95_test_vectors.md T4: `PHP` (R147). -/
theorem test_T4_php :
    seen [0x01FD] (step (placed [(0x0200, 0x08)] { base with p := 0xC3 })) =
      some ⟨⟨0x00, 0x00, 0x00, 0xC3, 0xFC, 0x0201, 0x03⟩, [R 0x0200 0x08, W 0x01FD 0xF3], none, [some 0xF3]⟩ := by
  decide

/-- 95_test_vectors.md T5: `PHP` (R147 (bits 4, 5 forced in the copy)). -/
theorem test_T5_php :
    seen [0x01FD] (step (placed [(0x0200, 0x08)] { base with p := 0x00 })) =
      some ⟨⟨0x00, 0x00, 0x00, 0x00, 0xFC, 0x0201, 0x03⟩, [R 0x0200 0x08, W 0x01FD 0x30], none, [some 0x30]⟩ := by
  decide

/-- 95_test_vectors.md T7: `PLA` (R148). -/
theorem test_T7_pla :
    seen [] (step (placed [(0x0200, 0x68), (0x01FD, 0x80)] { base with sp := 0xFC })) =
      some ⟨⟨0x80, 0x00, 0x00, 0xA4, 0xFD, 0x0201, 0x04⟩, [R 0x0200 0x68, R 0x01FD 0x80], none, []⟩ := by
  decide

/-- 95_test_vectors.md T3: `PLA` (R148, R174). -/
theorem test_T3_pla :
    seen [] (step (placed [(0x0200, 0x68)] { base with sp := 0xFF })) =
      some ⟨⟨0x00, 0x00, 0x00, 0x24, 0xFF, 0x0200, 0x00⟩,
        [R 0x0200 0x68], some ⟨.stackUnderflow 0xFF, 0x0200⟩, []⟩ := by
  decide

/-- 95_test_vectors.md T6: `PLP` (R149 (bit 5 not forced)). -/
theorem test_T6_plp :
    seen [] (step (placed [(0x0200, 0x28), (0x01FD, 0x00)] { base with p := 0xFF, sp := 0xFC })) =
      some ⟨⟨0x00, 0x00, 0x00, 0x00, 0xFD, 0x0201, 0x04⟩, [R 0x0200 0x28, R 0x01FD 0x00], none, []⟩ := by
  decide

/-- 95_test_vectors.md T8: `TAX` (R150). -/
theorem test_T8_tax :
    seen [] (step (placed [(0x0200, 0xAA)] { base with x := 0x05, p := 0xA4 })) =
      some ⟨⟨0x00, 0x00, 0x00, 0x26, 0xFD, 0x0201, 0x02⟩, [R 0x0200 0xAA], none, []⟩ := by
  decide

/-- 95_test_vectors.md T9: `TAY` (R151). -/
theorem test_T9_tay :
    seen [] (step (placed [(0x0200, 0xA8)] { base with a := 0xFF })) =
      some ⟨⟨0xFF, 0x00, 0xFF, 0xA4, 0xFD, 0x0201, 0x02⟩, [R 0x0200 0xA8], none, []⟩ := by
  decide

/-- 95_test_vectors.md T10: `TXA` (R152). -/
theorem test_T10_txa :
    seen [] (step (placed [(0x0200, 0x8A)] { base with x := 0x80, p := 0x26 })) =
      some ⟨⟨0x80, 0x80, 0x00, 0xA4, 0xFD, 0x0201, 0x02⟩, [R 0x0200 0x8A], none, []⟩ := by
  decide

/-- 95_test_vectors.md T11: `TYA` (R153). -/
theorem test_T11_tya :
    seen [] (step (placed [(0x0200, 0x98)] { base with a := 0x11 })) =
      some ⟨⟨0x00, 0x00, 0x00, 0x26, 0xFD, 0x0201, 0x02⟩, [R 0x0200 0x98], none, []⟩ := by
  decide

/-- 95_test_vectors.md T12: `TSX` (R154). -/
theorem test_T12_tsx :
    seen [] (step (placed [(0x0200, 0xBA)] base)) =
      some ⟨⟨0x00, 0xFD, 0x00, 0xA4, 0xFD, 0x0201, 0x02⟩, [R 0x0200 0xBA], none, []⟩ := by
  decide

/-- 95_test_vectors.md T13: `TXS` (R155 (no flag)). -/
theorem test_T13_txs :
    seen [] (step (placed [(0x0200, 0x9A)] { base with p := 0xA4 })) =
      some ⟨⟨0x00, 0x00, 0x00, 0xA4, 0x00, 0x0201, 0x02⟩, [R 0x0200 0x9A], none, []⟩ := by
  decide

/-- 95_test_vectors.md M1: `BIT $10` (R156). -/
theorem test_M1_bit :
    seen [] (step (placed [(0x0200, 0x24), (0x0201, 0x10), (0x0010, 0xC0)] { base with a := 0x01 })) =
      some ⟨⟨0x01, 0x00, 0x00, 0xE6, 0xFD, 0x0202, 0x03⟩, [R 0x0200 0x24, R 0x0201 0x10, R 0x0010 0xC0], none, []⟩ := by
  decide

/-- 95_test_vectors.md M2: `BIT $10` (R156 (N, V from M)). -/
theorem test_M2_bit :
    seen [] (step (placed [(0x0200, 0x24), (0x0201, 0x10), (0x0010, 0x01)] { base with a := 0xFF, p := 0xE6 })) =
      some ⟨⟨0xFF, 0x00, 0x00, 0x24, 0xFD, 0x0202, 0x03⟩, [R 0x0200 0x24, R 0x0201 0x10, R 0x0010 0x01], none, []⟩ := by
  decide

/-- 95_test_vectors.md M4: `BRK` (R157). -/
theorem test_M4_brk :
    seen [0x01FD, 0x01FC, 0x01FB]
      (step (placed [(0x0200, 0x00), (0xFFFE, 0x00), (0xFFFF, 0x90)] { base with p := 0x20 })) =
      some ⟨⟨0x00, 0x00, 0x00, 0x24, 0xFA, 0x9000, 0x07⟩,
        [R 0x0200 0x00, W 0x01FD 0x02, W 0x01FC 0x02, W 0x01FB 0x30, R 0xFFFE 0x00, R 0xFFFF 0x90],
        none, [some 0x02, some 0x02, some 0x30]⟩ := by
  decide

/-- 95_test_vectors.md M5: `BRK` (R157, R173, R177). -/
theorem test_M5_brk :
    seen [0x0102, 0x0101] (step (placed [(0x0200, 0x00)] { base with p := 0x20, sp := 0x02 })) =
      some ⟨⟨0x00, 0x00, 0x00, 0x20, 0x00, 0x0200, 0x00⟩,
        [R 0x0200 0x00, W 0x0102 0x02, W 0x0101 0x02], some ⟨.stackOverflow 0x00, 0x0200⟩, [some 0x02, some 0x02]⟩ := by
  decide

/-- 95_test_vectors.md M6: `RTI` (R158 (bit 5 forced)). -/
theorem test_M6_rti :
    seen [] (step (placed [(0x0200, 0x40), (0x01FB, 0x00), (0x01FC, 0x02), (0x01FD, 0x80)] { base with sp := 0xFA })) =
      some ⟨⟨0x00, 0x00, 0x00, 0x20, 0xFD, 0x8002, 0x06⟩,
        [R 0x0200 0x40, R 0x01FB 0x00, R 0x01FC 0x02, R 0x01FD 0x80], none, []⟩ := by
  decide

/-- 95_test_vectors.md M8: `RTI` (R158, R174). -/
theorem test_M8_rti :
    seen [] (step (placed [(0x0200, 0x40)] { base with sp := 0xFE })) =
      some ⟨⟨0x00, 0x00, 0x00, 0x20, 0xFF, 0x0200, 0x00⟩,
        [R 0x0200 0x40, R 0x01FF 0x00], some ⟨.stackUnderflow 0xFF, 0x0200⟩, []⟩ := by
  decide

/-- 95_test_vectors.md M9: `CLC` (R159). -/
theorem test_M9_clc :
    seen [] (step (placed [(0x0200, 0x18)] { base with p := 0xFF })) =
      some ⟨⟨0x00, 0x00, 0x00, 0xFE, 0xFD, 0x0201, 0x02⟩, [R 0x0200 0x18], none, []⟩ := by
  decide

/-- 95_test_vectors.md M10: `SEC` (R160). -/
theorem test_M10_sec :
    seen [] (step (placed [(0x0200, 0x38)] { base with p := 0x00 })) =
      some ⟨⟨0x00, 0x00, 0x00, 0x01, 0xFD, 0x0201, 0x02⟩, [R 0x0200 0x38], none, []⟩ := by
  decide

/-- 95_test_vectors.md M11: `CLI` (R161). -/
theorem test_M11_cli :
    seen [] (step (placed [(0x0200, 0x58)] { base with p := 0xFF })) =
      some ⟨⟨0x00, 0x00, 0x00, 0xFB, 0xFD, 0x0201, 0x02⟩, [R 0x0200 0x58], none, []⟩ := by
  decide

/-- 95_test_vectors.md M12: `SEI` (R162). -/
theorem test_M12_sei :
    seen [] (step (placed [(0x0200, 0x78)] { base with p := 0x00 })) =
      some ⟨⟨0x00, 0x00, 0x00, 0x04, 0xFD, 0x0201, 0x02⟩, [R 0x0200 0x78], none, []⟩ := by
  decide

/-- 95_test_vectors.md M13: `CLD` (R163). -/
theorem test_M13_cld :
    seen [] (step (placed [(0x0200, 0xD8)] { base with p := 0xFF })) =
      some ⟨⟨0x00, 0x00, 0x00, 0xF7, 0xFD, 0x0201, 0x02⟩, [R 0x0200 0xD8], none, []⟩ := by
  decide

/-- 95_test_vectors.md M14: `SED` (R164). -/
theorem test_M14_sed :
    seen [] (step (placed [(0x0200, 0xF8)] { base with p := 0x00 })) =
      some ⟨⟨0x00, 0x00, 0x00, 0x08, 0xFD, 0x0201, 0x02⟩, [R 0x0200 0xF8], none, []⟩ := by
  decide

/-- 95_test_vectors.md M15: `CLV` (R165). -/
theorem test_M15_clv :
    seen [] (step (placed [(0x0200, 0xB8)] { base with p := 0xFF })) =
      some ⟨⟨0x00, 0x00, 0x00, 0xBF, 0xFD, 0x0201, 0x02⟩, [R 0x0200 0xB8], none, []⟩ := by
  decide

/-- 95_test_vectors.md M16: `NOP` (R166). -/
theorem test_M16_nop :
    seen [] (step (placed [(0x0200, 0xEA)] base)) =
      some ⟨⟨0x00, 0x00, 0x00, 0x24, 0xFD, 0x0201, 0x02⟩, [R 0x0200 0xEA], none, []⟩ := by
  decide

/-- 95_test_vectors.md M20: `NOP* $4000` (R167 (unmapped target, no fault)). -/
theorem test_M20_nop_star :
    seen [] (step (placed [(0x0200, 0x0C), (0x0201, 0x00), (0x0202, 0x40)] base)) =
      some ⟨⟨0x00, 0x00, 0x00, 0x24, 0xFD, 0x0203, 0x04⟩, [R 0x0200 0x0C, R 0x0201 0x00, R 0x0202 0x40], none, []⟩ := by
  decide

/-- 95_test_vectors.md M21: `NOP* $20FF,X` (R167, R198 (page-cross penalty)). -/
theorem test_M21_nop_star :
    seen [] (step (placed [(0x0200, 0x1C), (0x0201, 0xFF), (0x0202, 0x20)] { base with x := 0x01 })) =
      some ⟨⟨0x00, 0x01, 0x00, 0x24, 0xFD, 0x0203, 0x05⟩, [R 0x0200 0x1C, R 0x0201 0xFF, R 0x0202 0x20], none, []⟩ := by
  decide

/-- 95_test_vectors.md M23: `.byte $02` (R168, R175). -/
theorem test_M23_unimp :
    seen [] (step (placed [(0x0200, 0x02)] base)) =
      some ⟨⟨0x00, 0x00, 0x00, 0x24, 0xFD, 0x0200, 0x00⟩,
        [R 0x0200 0x02], some ⟨.unimplementedOpcode 0x02, 0x0200⟩, []⟩ := by
  decide

/-- 95_test_vectors.md M25: `.byte $EB, $10` (R168). -/
theorem test_M25_unimp :
    seen [] (step (placed [(0x0200, 0xEB), (0x0201, 0x10)] base)) =
      some ⟨⟨0x00, 0x00, 0x00, 0x24, 0xFD, 0x0200, 0x00⟩,
        [R 0x0200 0xEB], some ⟨.unimplementedOpcode 0xEB, 0x0200⟩, []⟩ := by
  decide

/-! ## Witnesses: every hypothesis of every statement, met by concrete values, at the ends of its range -/

theorem witness_ResetBuildsLaunchState :
    ((List.replicate 16384 (0x77 : Byte))[0]? = some 0x77 ∧ (List.replicate 16384 (0x77 : Byte))[16383]? = some 0x77) ∧
    (List.replicate 2048 (0x66 : Byte))[2047]? = some 0x66 ∧
    Launch.blank.reset.peek 0xFFFC = some 0x00 ∧ Launch.blank.reset.peek 0xFFFD = some 0x00 := by
  refine ⟨⟨?_, ?_⟩, ?_, by decide, by decide⟩ <;> exact (List.getElem?_replicate ..).trans (if_pos (by decide))

/-- The ends of each region of R40. -/
theorem witness_MemoryMapGivesCells :
    [0x0000, 0x07FF, 0x0800, 0x1FFF, 0x2000, 0x2007, 0x2008, 0x7FFF, 0x8000, 0xBFFF, 0xC000, 0xFFFF].map classify =
      [.ram, .ram, .ramMirror, .ramMirror, .ppu, .ppu, .unmapped, .unmapped, .romOne, .romOne, .romTwo, .romTwo] := by
  decide

theorem witness_BusReadRule :
    ¬ Mapped 0x2008 ∧ ¬ Mapped 0x7FFF ∧ (placed [(0x0000, 0x55)] base).peek 0x1800 = some 0x55 ∧
    base.peek 0x8000 = some 0x00 ∧ classify 0x2000 = .ppu ∧ classify 0x2007 = .ppu ∧
    base.peek 0x7FFF moreRam = some 0x00 := by decide

theorem witness_BusWriteRule :
    Memory.wf (placed [(0x0000, 0x55)] base).mem ∧ ¬ Mapped 0x2008 ∧ InRom 0x8000 ∧ InRom 0xFFFF ∧
    classify 0x2007 = .ppu ∧ classify 0x0000 = .ram ∧ classify 0x1FFF = .ramMirror ∧ classify 0x7FFF moreRam = .ram ∧
    cellOf 0x1FFE ≠ cellOf 0x1FFF := by decide

theorem witness_WordRoundTripLittleEndian :
    Memory.wf base.mem ∧ (0x1FFE : Word).toNat + 1 < 0x2000 ∧ (0x0000 : Word).toNat + 1 < 0x2000 := by decide

theorem witness_PushPullRules :
    ({ base with sp := 0x00 } : State).sp = 0x00 ∧ ({ base with sp := 0x01 } : State).sp ≠ 0x00 ∧
    ({ base with sp := 0xFF } : State).sp = 0xFF ∧ ({ base with sp := 0xFE } : State).sp ≠ 0xFF := by decide

theorem witness_StackRoundTrip :
    Memory.wf base.mem ∧ 2 ≤ ({ base with sp := 0x02 } : State).sp.toNat ∧
    1 ≤ ({ base with sp := 0x01 } : State).sp.toNat := by decide

theorem witness_AluAddRule :
    (256 : Nat) = (0xFF : Byte).toNat + (0x00 : Byte).toNat + (if testFlag 0x25 .C then 1 else 0) := by decide

theorem witness_AluSubtractRule :
    (-1 : Int) = ((0x00 : Byte).toNat : Int) - (0x01 : Byte).toNat - (1 - (if testFlag 0x25 .C then 1 else 0)) := by
  decide

/-- The hypotheses of `Reads` for a mnemonic with an absolute form: an operand that can be read (the last PPU register, and
RAM) and one that cannot (the first unmapped address). -/
theorem witness_reads (mk : Operand → Instr) (h : ∀ w, (mk (.abs w)).wellFormed = true) :
    ((mk (.abs 0x2007)).wellFormed = true ∧ Readable (.abs 0x2007) base) ∧
    ((mk (.abs 0x2008)).wellFormed = true ∧ ¬ Readable (.abs 0x2008) base) := by
  refine ⟨⟨h _, fun _ => by decide⟩, h _, fun hr => absurd (hr rfl) (by decide)⟩

theorem witness_AdcRule :
    ((0x69, imm) ∈ ([(0x69, imm), (0x65, zp)] : List (Byte × (Byte → Byte → Operand)))) ∧
    ((Instr.adc (.abs 0x2007)).wellFormed = true ∧ Readable (.abs 0x2007) base) ∧
    ((Instr.adc (.abs 0x2008)).wellFormed = true ∧ ¬ Readable (.abs 0x2008) base) :=
  ⟨.head _, witness_reads .adc fun _ => rfl⟩

theorem witness_SbcRule :
    ((Instr.sbc (.abs 0x2007)).wellFormed = true ∧ Readable (.abs 0x2007) base) ∧
    ((Instr.sbc (.abs 0x2008)).wellFormed = true ∧ ¬ Readable (.abs 0x2008) base) :=
  witness_reads .sbc fun _ => rfl

theorem witness_LogicRules : ∀ mk ∈ [Instr.and, Instr.ora, Instr.eor],
    ((mk (.abs 0x2007)).wellFormed = true ∧ Readable (.abs 0x2007) base) ∧
    ((mk (.abs 0x2008)).wellFormed = true ∧ ¬ Readable (.abs 0x2008) base) := by
  intro mk hm
  refine witness_reads mk fun w => ?_
  simp only [List.mem_cons, List.not_mem_nil, or_false] at hm
  rcases hm with rfl | rfl | rfl <;> rfl

theorem witness_CompareRules : ∀ mk ∈ [Instr.cmp, Instr.cpx, Instr.cpy],
    ((mk (.abs 0x2007)).wellFormed = true ∧ Readable (.abs 0x2007) base) ∧
    ((mk (.abs 0x2008)).wellFormed = true ∧ ¬ Readable (.abs 0x2008) base) := by
  intro mk hm
  refine witness_reads mk fun w => ?_
  simp only [List.mem_cons, List.not_mem_nil, or_false] at hm
  rcases hm with rfl | rfl | rfl <;> rfl

theorem witness_LoadRules : ∀ mk ∈ [Instr.lda, Instr.ldx, Instr.ldy],
    ((mk (.abs 0x2007)).wellFormed = true ∧ Readable (.abs 0x2007) base) ∧
    ((mk (.abs 0x2008)).wellFormed = true ∧ ¬ Readable (.abs 0x2008) base) := by
  intro mk hm
  refine witness_reads mk fun w => ?_
  simp only [List.mem_cons, List.not_mem_nil, or_false] at hm
  rcases hm with rfl | rfl | rfl <;> rfl

theorem witness_BitRule :
    ((Instr.bit (.abs 0x2007)).wellFormed = true ∧ Readable (.abs 0x2007) base) ∧
    ((Instr.bit (.abs 0x2008)).wellFormed = true ∧ ¬ Readable (.abs 0x2008) base) :=
  witness_reads .bit fun _ => rfl

/-- The hypotheses of `ModifiesMemory` at the ends of the writable, ROM and unmapped regions. -/
theorem witness_modifies (mk : Operand → Instr) (h : ∀ w, (mk (.abs w)).wellFormed = true) :
    ∀ w : Word, (mk (.abs w)).wellFormed = true ∧ isAddressForm (.abs w) = true ∧
      Writable (effectiveAddress (.abs 0x2007) base) ∧ InRom (effectiveAddress (.abs 0x8000) base) ∧
      InRom (effectiveAddress (.abs 0xFFFF) base) ∧ classify (effectiveAddress (.abs 0x7FFF) base) = .unmapped :=
  fun w => ⟨h w, rfl, by decide, by decide, by decide, by decide⟩

theorem witness_ShiftRules : ∀ mk ∈ [Instr.asl, Instr.lsr],
    (mk (.abs 0x1FFF)).wellFormed = true ∧ isAddressForm (.abs 0x1FFF) = true ∧
      Writable (effectiveAddress (.abs 0x2007) base) ∧ InRom (effectiveAddress (.abs 0x8000) base) ∧
      InRom (effectiveAddress (.abs 0xFFFF) base) ∧ classify (effectiveAddress (.abs 0x7FFF) base) = .unmapped := by
  intro mk hm
  refine witness_modifies mk (fun w => ?_) _
  simp only [List.mem_cons, List.not_mem_nil, or_false] at hm
  rcases hm with rfl | rfl <;> rfl

theorem witness_RotateRules : ∀ mk ∈ [Instr.rol, Instr.ror],
    (mk (.abs 0x1FFF)).wellFormed = true ∧ isAddressForm (.abs 0x1FFF) = true ∧
      Writable (effectiveAddress (.abs 0x2007) base) ∧ InRom (effectiveAddress (.abs 0x8000) base) ∧
      InRom (effectiveAddress (.abs 0xFFFF) base) ∧ classify (effectiveAddress (.abs 0x7FFF) base) = .unmapped := by
  intro mk hm
  refine witness_modifies mk (fun w => ?_) _
  simp only [List.mem_cons, List.not_mem_nil, or_false] at hm
  rcases hm with rfl | rfl <;> rfl

theorem witness_IncDecMemoryRules : ∀ mk ∈ [Instr.inc, Instr.dec],
    (mk (.abs 0x1FFF)).wellFormed = true ∧ isAddressForm (.abs 0x1FFF) = true ∧
      Writable (effectiveAddress (.abs 0x2007) base) ∧ InRom (effectiveAddress (.abs 0x8000) base) ∧
      InRom (effectiveAddress (.abs 0xFFFF) base) ∧ classify (effectiveAddress (.abs 0x7FFF) base) = .unmapped := by
  intro mk hm
  refine witness_modifies mk (fun w => ?_) _
  simp only [List.mem_cons, List.not_mem_nil, or_false] at hm
  rcases hm with rfl | rfl <;> rfl

theorem witness_StoreRules : ∀ mk ∈ [Instr.sta, Instr.stx, Instr.sty],
    (mk (.abs 0x1FFF)).wellFormed = true ∧ isAddressForm (.abs 0x1FFF) = true ∧
      Writable (effectiveAddress (.abs 0x2007) base) ∧ InRom (effectiveAddress (.abs 0x8000) base) ∧
      InRom (effectiveAddress (.abs 0xFFFF) base) ∧ classify (effectiveAddress (.abs 0x7FFF) base) = .unmapped := by
  intro mk hm
  refine witness_modifies mk (fun w => ?_) _
  simp only [List.mem_cons, List.not_mem_nil, or_false] at hm
  rcases hm with rfl | rfl | rfl <;> rfl

/-- 45_branch.md R129 and R130: the targets of the spec's two examples meet the equation. -/
theorem witness_BranchRules :
    (0x00F6 : Word) = BitVec.ofInt 16 ((({ base with pc := 0x0100 } : State).pc.toNat : Int) + 2 + (0xF4 : Byte).toInt) ∧
    (0x0012 : Word) = BitVec.ofInt 16 ((({ base with pc := 0xFFF0 } : State).pc.toNat : Int) + 2 + (0x20 : Byte).toInt) := by
  decide

theorem witness_JumpRules :
    (Mapped (w16 0xFF 0x1F) ∧ Mapped (w16 (0xFF + 1) 0x1F)) ∧ ¬ Mapped (w16 0x08 0x20) ∧
    (Mapped (w16 0x07 0x20) ∧ ¬ Mapped (w16 (0x07 + 1) 0x20)) := by decide

theorem witness_JsrRule :
    2 ≤ ({ base with sp := 0x02 } : State).sp.toNat ∧ ({ base with sp := 0x01 } : State).sp = 0x01 ∧
    ({ base with sp := 0x00 } : State).sp = 0x00 := by decide

theorem witness_RtsRule :
    ({ base with sp := 0xFD } : State).sp.toNat ≤ 0xFD ∧ ({ base with sp := 0xFE } : State).sp = 0xFE ∧
    ({ base with sp := 0xFF } : State).sp = 0xFF := by decide

theorem witness_JsrThenRtsReturns : Memory.wf base.mem ∧ 2 ≤ ({ base with sp := 0x02 } : State).sp.toNat := by decide

theorem witness_PushInstructionRules :
    ({ base with sp := 0x01 } : State).sp ≠ 0x00 ∧ ({ base with sp := 0x00 } : State).sp = 0x00 := by decide

theorem witness_PullInstructionRules :
    ({ base with sp := 0xFE } : State).sp ≠ 0xFF ∧ ({ base with sp := 0xFF } : State).sp = 0xFF := by decide

theorem witness_PhpThenPlpRestores : Memory.wf base.mem ∧ ({ base with sp := 0x01 } : State).sp ≠ 0x00 := by decide

theorem witness_BrkRule : ∀ sp : Byte, ∃ s s1 s2 s3 : State, s.sp = sp ∧ s1 = pushed (hiByte (s.pc + 2)) s ∧
    s2 = pushed (loByte (s.pc + 2)) s1 ∧ s3 = { pushed (s.p ||| 0x30) s2 with p := flagsSet s.p [(.I, true)] } :=
  fun sp => ⟨{ base with sp := sp }, _, _, _, rfl, rfl, rfl, rfl⟩

theorem witness_RtiRule : ∀ sp : Byte, ∃ s s1 : State, s.sp = sp ∧ s1 = { pulled s with p := pulledByte s ||| 0x20 } :=
  fun sp => ⟨{ base with sp := sp }, _, rfl, rfl⟩

theorem witness_BrkThenRtiReturns : Memory.wf base.mem ∧ 3 ≤ ({ base with sp := 0x03 } : State).sp.toNat := by decide

theorem witness_NopRules :
    [0xFA, 0xE2, 0x64, 0xF4, 0x0C, 0xFC].all (fun op : Byte => (unofficialNops.map Prod.fst).contains op) = true := by decide

theorem witness_UnimplementedBytesFault : (0x02 : Byte) ∈ unimplementedBytes ∧ 0xFF ∈ unimplementedBytes := by decide

theorem witness_CostsAreTheTables :
    ((0x00 : Byte) ∉ branchBytes ∧ 0x00 ∉ unimplementedBytes) ∧ ((0xFE : Byte) ∉ branchBytes ∧ 0xFE ∉ unimplementedBytes) ∧
    ((0xFD : Byte) ∈ penaltyBytes ∧ 0xFE ∉ penaltyBytes) ∧ (0x10 : Byte) ∈ branchBytes ∧ 0xF0 ∈ branchBytes ∧
    (0x02 : Byte) ∈ unimplementedBytes ∧ 0xFF ∈ unimplementedBytes := by decide

theorem witness_OpcodeClassesPartition : (0xFC : Byte) ∈ unofficialNops.map Prod.fst := by decide

theorem witness_DecodeOfEncode :
    (Instr.lda (.absx 0xFFFF)).wellFormed = true ∧ (Instr.rts).wellFormed = true ∧ (Instr.bne 0x80).wellFormed = true ∧
    (Instr.nopStar 0x1C (.absx 0)).wellFormed = true ∧ (Instr.unimp 0xEB).wellFormed = true ∧
    (Instr.nopStar 0x02 (.abs 0x1234)).wellFormed [(0x02, .abs)] = true := by decide

/-- `JMP $1234` in the last byte of ROM and the first two of RAM. -/
def jumpAcrossTop : State :=
  placed [(0xFFFF, 0x4C), (0x0000, 0x34), (0x0001, 0x12)] { base with pc := 0xFFFF }

theorem witness_StepRunsDecodedInstruction :
    jumpAcrossTop.fault = none ∧ jumpAcrossTop.cyc = 0 ∧
    (Params.default.hasInterruptLines = false ∧ withLines.hasInterruptLines = true ∧ pendingVector jumpAcrossTop = none) ∧
    Mapped jumpAcrossTop.pc ∧
    0x4C = byteAt jumpAcrossTop jumpAcrossTop.pc ∧
    0x34 = byteAt (afterRead jumpAcrossTop 0xFFFF) (jumpAcrossTop.pc + 1) ∧
    0x12 = byteAt (afterRead (afterRead jumpAcrossTop 0xFFFF) 0x0000) (jumpAcrossTop.pc + 2) ∧
    Instr.jmpAbs 0x1234 = decode 0x4C 0x34 0x12 ∧ instrLength (.jmpAbs 0x1234) = 3 ∧
    Mapped (jumpAcrossTop.pc + 1) ∧ Mapped (jumpAcrossTop.pc + 2) := by decide

theorem witness_FetchFaults :
    (base.fault = none ∧ base.cyc = 0) ∧ ¬ Mapped ({ base with pc := 0x2008 } : State).pc ∧
    (Mapped base.pc ∧ byteAt (placed [(0x0200, 0x02)] base) 0x0200 ∈ unimplementedBytes) ∧
    (2 ≤ instrLength (.lda (.imm 0)) ∧ ¬ Mapped (({ base with pc := 0x2007 } : State).pc + 1)) ∧
    (instrLength (.lda (.abs 0)) = 3 ∧ Mapped (({ base with pc := 0x2006 } : State).pc + 1) ∧
      ¬ Mapped (({ base with pc := 0x2006 } : State).pc + 2)) := by decide

theorem witness_CountdownTakesCycCalls : ({ base with cyc := 7 } : State).fault = none := rfl

theorem witness_FaultedCoreStaysStopped :
    ({ base with fault := some ⟨.stackOverflow 0x00, 0x0200⟩ } : State).fault ≠ none := by decide

/-- A run call that faults: an unmapped PC. -/
theorem witness_StepAnswersOrFaults : ∃ f : Fault, step { base with pc := 0x2008 } = .fault f := ⟨_, rfl⟩

theorem test_base_meets_invariant : Inv base :=
  ⟨by decide, by decide, fun e he => by simp [base, State.reset, Launch.reset] at he, fun r hr => by
    simp [base, State.reset, Launch.reset] at hr⟩

theorem test_reset_meets_invariant : Inv State.reset :=
  ⟨by decide, by decide, fun e he => by simp [State.reset, Launch.reset] at he, fun r hr => by
    simp [State.reset, Launch.reset] at hr⟩

theorem witness_StepKeepsInvariant :
    (Inv base ∧ ∃ t, step base = .next t) ∧
    Inv { base with sp := 0x00 } ∧ ∃ f, step { base with sp := 0x00 } = .fault f :=
  ⟨⟨test_base_meets_invariant, _, rfl⟩,
    ⟨by decide, by decide, fun e he => by simp [base, State.reset, Launch.reset] at he, fun r hr => by
      simp [base, State.reset, Launch.reset] at hr⟩, _, rfl⟩

theorem witness_RomNeverChanges :
    ((∃ t, resultState (stepWith moreRam base) = some t) ∧ InRom 0x8000 moreRam ∧ InRom 0xFFFF moreRam) ∧
    (∃ t, resultState (step base) = some t) ∧ 0x8000 ≤ (0x8000 : Word).toNat ∧ 0x8000 ≤ (0xFFFF : Word).toNat :=
  ⟨⟨⟨_, rfl⟩, by decide, by decide⟩, ⟨_, rfl⟩, by decide, by decide⟩

theorem witness_BusLogOnlyGrows : ∃ t, resultState (step base) = some t := ⟨_, rfl⟩

theorem witness_BreakBitsUnobservable : (0x04 : Byte) ||| 0x30 = base.p ||| 0x30 ∧ (0x04 : Byte) ≠ base.p := by decide

theorem witness_FlagsChangeOnlyByOwner :
    (∃ t, exec .clc base = .next t) ∧ Machine.Flag.V ∉ flagsWritten .clc := ⟨⟨_, rfl⟩, by decide⟩

theorem witness_RegistersChangeOnlyByOwner :
    (∃ t, exec (.sta (.zp 0xFF)) base = .next t) ∧ writesA (.sta (.zp 0xFF)) = false ∧
    writesX (.sta (.zp 0xFF)) = false ∧ writesY (.sta (.zp 0xFF)) = false ∧ writesS (.sta (.zp 0xFF)) = false :=
  ⟨⟨_, rfl⟩, rfl, rfl, rfl, rfl⟩

theorem witness_NonStoringFrame :
    (∃ t, exec (.asl .acc) base = .next t) ∧ storesMemory (.asl .acc) = false ∧
    (∃ t, exec (.cmp (.zp 0xFF)) base = .next t) ∧ storesMemory (.cmp (.zp 0xFF)) = false :=
  ⟨⟨_, rfl⟩, rfl, ⟨_, rfl⟩, rfl⟩

/-- A store to the last RAM mirror byte, and a memory shift in page zero. -/
theorem witness_StoringFrame :
    ((∃ t, exec (.sta (.abs 0x1FFF)) base = .next t) ∧
      (∃ s1, resolve (Instr.sta (.abs 0x1FFF)).form base = .next (.address 0x1FFF false, s1)) ∧
      cellOf 0x1FFE ≠ cellOf 0x1FFF) ∧
    (∃ t, exec (.asl (.zpx 0xFF)) base = .next t) ∧
      ∃ s1, resolve (Instr.asl (.zpx 0xFF)).form base = .next (.address 0x00FF false, s1) :=
  ⟨⟨⟨_, rfl⟩, ⟨_, rfl⟩, by decide⟩, ⟨_, rfl⟩, ⟨_, rfl⟩⟩

/-- The outcome is a next state. -/
def completes : Host.Outcome State Fault Refusal → Bool
  | .next _ => true
  | .fault _ => false
  | .refused _ => false

theorem next_of_completes {r : Host.Outcome State Fault Refusal} (h : completes r = true) : ∃ t, r = .next t := by
  cases r <;> simp_all [completes]

theorem witness_PushingFrame :
    (∃ t, exec .pha { base with sp := 0x01 } = .next t) ∧ (∃ t, exec .php { base with sp := 0x01 } = .next t) ∧
    (∃ t, exec (.jsr 0x0300) { base with sp := 0x02 } = .next t) ∧
    ∃ t, exec .brk { base with sp := 0x03 } = .next t :=
  ⟨next_of_completes (by decide), next_of_completes (by decide), next_of_completes (by decide),
    next_of_completes (by decide)⟩

/-- The other half of the hypotheses of `PushingFrame`: the byte below the last push of BRK is outside the pushed ones. -/
theorem witness_PushingFrame_address :
    (pushAddresses .brk { base with sp := 0x03 }).map cellOf = [some 0x103, some 0x102, some 0x101] ∧
    cellOf 0x0100 = some 0x100 := by decide

theorem witness_InterruptSampling :
    withLines.hasInterruptLines = true ∧ (base.fault = none ∧ base.cyc = 0) ∧ ({ base with nmiEdge := true } : State).nmiEdge = true ∧
    (base.nmiEdge = false ∧ ({ base with irq := true } : State).irq = true ∧
      testFlag ({ base with p := 0x20 } : State).p .I = false) ∧
    (base.irq = false ∧ testFlag base.p .I = true) ∧ ({ base with cyc := 1 } : State).cyc ≠ 0 := by decide

theorem witness_InterruptEntry : ∀ sp : Byte, ∃ s s0 s1 s2 s3 : State,
    (withLines.memoryMap = defaultMemoryMap ∧ withLines.hasInterruptLines = true) ∧ s.sp = sp ∧ s0 = { s with nmiEdge := false } ∧
    s1 = pushed (hiByte s.pc) s0 ∧ s2 = pushed (loByte s.pc) s1 ∧
    s3 = { pushed ((s.p &&& 0xEF) ||| 0x20) s2 with p := flagsSet s.p [(.I, true)] } :=
  fun sp => ⟨{ base with sp := sp, nmiEdge := true }, _, _, _, _, ⟨rfl, rfl⟩, rfl, rfl, rfl, rfl, rfl⟩

/-- A run that fails: the one from reset with S = $00 and blank memory, whose `BRK` overflows at once. -/
theorem witness_EndMarkerLoops_fails : RunFails (Launch.blank.reset.harnessWrites [.sp 0x00]) :=
  ⟨⟨⟨.blank, _, rfl⟩, rfl, by decide, by decide, by decide, fun _ => test_vectors_in_rom⟩, 1, _, rfl, fun j u hj hu => by
    obtain rfl : j = 0 := by omega
    cases hu
    exact fun h => absurd h.2.2.1 (by decide)⟩

/-- The marker; that a run ends at one is `test_end_of_run`. -/
theorem witness_EndMarkerLoops :
    AtEnd (placed [(0x0345, 0x4C), (0x0346, 0x45), (0x0347, 0x03)] { base with pc := 0x0345 }) := by
  refine ⟨rfl, rfl, by decide, by decide, by decide⟩

end Sys2Proof.Tests
end

/-! # Proofs: the family of 10_state.md -/

/-! ## Status bytes that agree off a list of flags (R22, R30) -/

namespace Sys2Proof.Machine

/-- q has every flag and bit of p but those of the list. -/
def FlagsKept (l : List Flag) (p q : Byte) : Prop := ∀ f, f ∉ l → testFlag q f = testFlag p f

namespace FlagsKept

variable {l : List Flag} {p q r : Byte}

theorem refl (l : List Flag) (p : Byte) : FlagsKept l p p := fun _ _ => rfl

theorem trans (h : FlagsKept l p q) (h' : FlagsKept l q r) : FlagsKept l p r :=
  fun f hf => (h' f hf).trans (h f hf)

/-- Writing a listed flag keeps the others. -/
theorem writeFlag (h : FlagsKept l p q) {f : Flag} (hf : f ∈ l) (v : Bool) : FlagsKept l p (writeFlag q f v) :=
  fun g hg => (testFlag_writeFlag_ne q v (ne_of_mem_of_not_mem hf hg)).trans (h g hg)

/-- The flag that CLC, SEC and the like write is the only one they change (R159 to R165). -/
theorem writeFlag_single (p : Byte) (f : Flag) (v : Bool) : FlagsKept [f] p (Machine.writeFlag p f v) :=
  (refl _ p).writeFlag (List.mem_singleton_self f) v

theorem setZN (p v : Byte) : FlagsKept [.N, .Z] p (setZN p v) :=
  ((refl _ p).writeFlag (by simp) _).writeFlag (by simp) _

/-- The flags of the shifts and rotates: C, then Z and N of the result (R114 to R117). -/
theorem carry_setZN (p : Byte) (c : Bool) (r : Byte) :
    FlagsKept [.N, .Z, .C] p (Machine.setZN (Machine.writeFlag p .C c) r) :=
  (((refl _ p).writeFlag (by simp) _).writeFlag (by simp) _).writeFlag (by simp) _

theorem alu_arithmetic {kind : AluKind} (hk : kind = .add ∨ kind = .subtract) (p a m : Byte) :
    FlagsKept [.N, .V, .Z, .C] p (alu kind p a m).2 := fun f hf =>
  alu_arithmetic_keeps_flags hk p a m f (by cases f <;> simp_all)

theorem alu_logical {kind : AluKind} (hk : kind = .and ∨ kind = .eor ∨ kind = .or) (p a m : Byte) :
    FlagsKept [.N, .Z] p (alu kind p a m).2 := fun f hf =>
  alu_logical_keeps_flags hk p a m f (fun e => by simp [e] at hf) (fun e => by simp [e] at hf)

theorem compareFlags (p r m : Byte) : FlagsKept [.N, .Z, .C] p (compareFlags p r m) :=
  (((refl _ p).writeFlag (by simp) _).writeFlag (by simp) _).writeFlag (by simp) _

theorem bitTestFlags (p a m : Byte) : FlagsKept [.N, .V, .Z] p (bitTestFlags p a m) :=
  (((refl _ p).writeFlag (by simp) _).writeFlag (by simp) _).writeFlag (by simp) _

/-! Flag functions of two status bytes that agree off the list agree off the list. -/

theorem writeFlag_congr (h : FlagsKept l p q) (f : Flag) (v : Bool) :
    FlagsKept l (Machine.writeFlag p f v) (Machine.writeFlag q f v) := fun g hg => by
  simp only [testFlag_writeFlag, h g hg]

theorem setZN_congr (h : FlagsKept l p q) (v : Byte) : FlagsKept l (Machine.setZN p v) (Machine.setZN q v) :=
  (h.writeFlag_congr _ _).writeFlag_congr _ _

theorem compareFlags_congr (h : FlagsKept l p q) (r m : Byte) :
    FlagsKept l (Machine.compareFlags p r m) (Machine.compareFlags q r m) :=
  ((h.writeFlag_congr _ _).writeFlag_congr _ _).writeFlag_congr _ _

theorem bitTestFlags_congr (h : FlagsKept l p q) (a m : Byte) :
    FlagsKept l (Machine.bitTestFlags p a m) (Machine.bitTestFlags q a m) :=
  ((h.writeFlag_congr _ _).writeFlag_congr _ _).writeFlag_congr _ _

/-- The result of the ALU depends on no flag but C, and its flags are written over those of P (R104 to R107). -/
theorem alu_congr (h : FlagsKept l p q) (hc : .C ∉ l) (kind : AluKind) (a m : Byte) :
    (alu kind q a m).1 = (alu kind p a m).1 ∧ FlagsKept l (alu kind p a m).2 (alu kind q a m).2 := by
  have hcarry := h .C hc
  refine ⟨by simp only [alu_result_eq_aluNoFlags, hcarry], ?_⟩
  cases kind with
  | add =>
    simp only [alu, aluAdd, hcarry]
    exact ((h.writeFlag_congr _ _).writeFlag_congr _ _).setZN_congr _
  | subtract =>
    simp only [alu, aluSubtract, hcarry]
    exact ((h.writeFlag_congr _ _).writeFlag_congr _ _).setZN_congr _
  | and => exact h.setZN_congr _
  | eor => exact h.setZN_congr _
  | or => exact h.setZN_congr _

end FlagsKept

/-- What a read-modify-write function answers depends on no flag of the list but through the flags it passes on. -/
def IgnoresFlags (l : List Flag) (f : Byte → Byte → Byte × Byte) : Prop :=
  ∀ p q v : Byte, FlagsKept l p q → (f q v).1 = (f p v).1 ∧ FlagsKept l (f p v).2 (f q v).2

/-! The shifts, rotates and increments read no flag but C (R114 to R117, R121, R122). -/

theorem shiftLeft_ignores (l : List Flag) : IgnoresFlags l shiftLeft :=
  fun _ _ _ h => ⟨rfl, (h.writeFlag_congr _ _).setZN_congr _⟩

theorem shiftRight_ignores (l : List Flag) : IgnoresFlags l shiftRight :=
  fun _ _ _ h => ⟨rfl, (h.writeFlag_congr _ _).setZN_congr _⟩

theorem rotateLeft_ignores {l : List Flag} (hc : .C ∉ l) : IgnoresFlags l rotateLeft := fun p q v h => by
  simp only [rotateLeft, h .C hc, true_and]
  exact (h.writeFlag_congr _ _).setZN_congr _

theorem rotateRight_ignores {l : List Flag} (hc : .C ∉ l) : IgnoresFlags l rotateRight := fun p q v h => by
  simp only [rotateRight, h .C hc, true_and]
  exact (h.writeFlag_congr _ _).setZN_congr _

theorem incrementByte_ignores (l : List Flag) : IgnoresFlags l incrementByte := fun _ _ _ h => ⟨rfl, h.setZN_congr _⟩

theorem decrementByte_ignores (l : List Flag) : IgnoresFlags l decrementByte := fun _ _ _ h => ⟨rfl, h.setZN_congr _⟩

/-- The pushed copy of P, flag by flag (R27). -/
theorem testFlag_pushedStatus (p : Byte) (f : Flag) :
    testFlag (pushedStatus p) f = if f = .B ∨ f = .U then true else testFlag p f := by
  cases f <;> simp [testFlag, pushedStatus, flagBit]

/-- Status bytes that differ in B and U alone are those that are pushed alike (R27). -/
theorem pushedStatus_eq_iff {p q : Byte} : pushedStatus q = pushedStatus p ↔ FlagsKept [.B, .U] p q := by
  constructor
  · intro h f hf
    have := congrArg (testFlag · f) h
    simp only [List.mem_cons, List.not_mem_nil, or_false] at hf
    simpa [testFlag_pushedStatus, hf] using this
  · intro h
    refine status_ext fun f => ?_
    by_cases hf : f ∈ [Flag.B, Flag.U] <;> simp_all [testFlag_pushedStatus, h f]

end Sys2Proof.Machine

/-! ## Outcomes that match: two runs of one operation from related states -/

namespace Sys2Proof.Machine

/-- Two outcomes of one kind: next values related by R, or the same fault with states related by S, or the same
refusal. -/
inductive OutcomesMatch (S : State → State → Prop) {α : Type} (R : α → α → Prop) : Result α → Result α → Prop
  | next {v w : α} (h : R v w) : OutcomesMatch S R (.next v) (.next w)
  | fault (kind : FaultKind) {s t : State} (h : S s t) :
      OutcomesMatch S R (.fault (faultOf kind s)) (.fault (faultOf kind t))
  | refused (q : Refusal) : OutcomesMatch S R (.refused q) (.refused q)

/-- Equal values with related states. -/
def SameValue (S : State → State → Prop) {α : Type} (u v : α × State) : Prop := u.1 = v.1 ∧ S u.2 v.2

section Sequencing

variable {S : State → State → Prop} {α β : Type} {Q : β → β → Prop}

/-- Sequencing matches where the first operation matches and related answers are continued by matching ones. -/
theorem OutcomesMatch.andThen {R : α → α → Prop} {r r' : Result α} {k k' : α → Result β} (h : OutcomesMatch S R r r')
    (hk : ∀ v w, R v w → OutcomesMatch S Q (k v) (k' w)) : OutcomesMatch S Q (andThen r k) (andThen r' k') := by
  cases h with
  | next h => exact hk _ _ h
  | fault kind h => exact .fault kind h
  | refused q => exact .refused q

/-- The same for an operation that answers a value with its state. -/
theorem OutcomesMatch.andThen_value {r r' : Result (α × State)} {k k' : α × State → Result β}
    (h : OutcomesMatch S (SameValue S) r r') (hk : ∀ v s t, S s t → OutcomesMatch S Q (k (v, s)) (k' (v, t))) :
    OutcomesMatch S Q (Machine.andThen r k) (Machine.andThen r' k') :=
  h.andThen fun ⟨v, s⟩ ⟨_, t⟩ ⟨hv, hs⟩ => by
    cases hv
    exact hk v s t hs

theorem OutcomesMatch.ifWellFormed {r r' : Result β} (h : OutcomesMatch S Q r r') (i : Instr) (P : Params) :
    OutcomesMatch S Q (ifWellFormed i r P) (ifWellFormed i r' P) := by
  unfold Machine.ifWellFormed
  split
  · exact h
  · exact .refused _

end Sequencing

/-! ## O51: no run call observes the live bits B and U (R27) -/

/-- t is s with other live bits B and U of P. -/
def SameButBreak (s t : State) : Prop := ∃ q, FlagsKept [.B, .U] s.p q ∧ t = s.setP q

/-- Outcomes with states that differ in B and U alone. -/
abbrev BreakMatch : Result State → Result State → Prop := OutcomesMatch SameButBreak SameButBreak

/-- Outcomes with equal values, and states that differ in B and U alone. -/
abbrev BreakMatchValue {α : Type} : Result (α × State) → Result (α × State) → Prop :=
  OutcomesMatch SameButBreak (SameValue SameButBreak)

section BreakBits

variable {s t : State} {P : Params}

/-- An update that neither reads nor writes P. -/
theorem SameButBreak.update (h : SameButBreak s t) (f : State → State) (hf : ∀ u q, f (u.setP q) = (f u).setP q)
    (hp : ∀ u, (f u).p = u.p) : SameButBreak (f s) (f t) := by
  obtain ⟨q, hq, rfl⟩ := h
  exact ⟨q, (hp s).symm ▸ hq, hf s q⟩

theorem SameButBreak.setP (h : SameButBreak s t) {p q : Byte} (hq : FlagsKept [.B, .U] p q) :
    SameButBreak (s.setP p) (t.setP q) := by
  obtain ⟨_, -, rfl⟩ := h
  exact ⟨q, hq, rfl⟩

theorem SameButBreak.advance (h : SameButBreak s t) (i : Instr) (crossed : Bool) :
    SameButBreak (s.advance i crossed P) (t.advance i crossed P) :=
  h.update (·.advance i crossed P) (fun _ _ => rfl) (fun _ => rfl)

theorem SameButBreak.jump (h : SameButBreak s t) (i : Instr) (target : Word) :
    SameButBreak (s.jump i target P) (t.jump i target P) :=
  h.update (·.jump i target P) (fun _ _ => rfl) (fun _ => rfl)

theorem SameButBreak.charge (h : SameButBreak s t) (cost : Nat) : SameButBreak (s.charge cost) (t.charge cost) :=
  h.update (·.charge cost) (fun _ _ => rfl) (fun _ => rfl)

theorem SameButBreak.setPc (h : SameButBreak s t) (w : Word) : SameButBreak (s.setPc w) (t.setPc w) :=
  h.update (·.setPc w) (fun _ _ => rfl) (fun _ => rfl)

theorem SameButBreak.setSp (h : SameButBreak s t) (v : Byte) : SameButBreak (s.setSp v) (t.setSp v) :=
  h.update (·.setSp v) (fun _ _ => rfl) (fun _ => rfl)

theorem SameButBreak.setA (h : SameButBreak s t) (v : Byte) : SameButBreak (s.setA v) (t.setA v) :=
  h.update (·.setA v) (fun _ _ => rfl) (fun _ => rfl)

/-! The bus and the stack. -/

theorem raise_match {α : Type} {R : α → α → Prop} (kind : FaultKind) (h : SameButBreak s t) :
    OutcomesMatch SameButBreak R (raise kind s) (raise kind t) := by
  obtain ⟨q, hq, rfl⟩ := h
  exact .fault kind ⟨q, hq, rfl⟩

theorem memRead_match (a : Word) (h : SameButBreak s t) : BreakMatchValue (memRead a s P) (memRead a t P) := by
  by_cases ha : classify a P = .unmapped
  · simpa only [memRead_unmapped _ ha] using raise_match _ h
  · simp only [memRead_mapped _ ha]
    refine .next ⟨?_, h.update (afterRead · a P) (fun u q => ?_) (afterRead_p · a P)⟩
    · obtain ⟨q, -, rfl⟩ := h
      rfl
    · unfold afterRead
      split <;> rfl

theorem memWrite_match (a : Word) (v : Byte) (h : SameButBreak s t) : BreakMatch (memWrite a v s P) (memWrite a v t P) := by
  obtain ⟨q, hq, rfl⟩ := h
  unfold memWrite
  cases classify a P with
  | ram => exact .next ⟨q, hq, rfl⟩
  | ramMirror => exact .next ⟨q, hq, rfl⟩
  | ppu => exact .next ⟨q, hq, rfl⟩
  | unmapped => exact raise_match _ ⟨q, hq, rfl⟩
  | romOne => exact raise_match _ ⟨q, hq, rfl⟩
  | romTwo => exact raise_match _ ⟨q, hq, rfl⟩

theorem memRead16_match (a : Word) (h : SameButBreak s t) : BreakMatchValue (memRead16 a s P) (memRead16 a t P) :=
  (memRead_match a h).andThen_value fun _ _ _ h =>
  (memRead_match (a + 1) h).andThen_value fun _ _ _ h => .next ⟨rfl, h⟩

theorem SameButBreak.sp_eq (h : SameButBreak s t) : t.sp = s.sp := by
  obtain ⟨_, -, rfl⟩ := h
  rfl

theorem push_match (v : Byte) (h : SameButBreak s t) : BreakMatch (push v s P) (push v t P) := by
  unfold push
  rw [h.sp_eq]
  split
  · exact raise_match _ h
  · exact (memWrite_match _ v h).andThen fun s t h => .next (h.sp_eq ▸ h.setSp _)

theorem pull_match (h : SameButBreak s t) : BreakMatchValue (pull s P) (pull t P) := by
  unfold pull
  rw [h.sp_eq]
  split
  · exact raise_match _ h
  · exact memRead_match _ (h.setSp _)

theorem push16_match (w : Word) (h : SameButBreak s t) : BreakMatch (push16 w s P) (push16 w t P) :=
  (push_match _ h).andThen fun _ _ h => push_match _ h

theorem pull16_match (h : SameButBreak s t) : BreakMatchValue (pull16 s P) (pull16 t P) :=
  (pull_match h).andThen_value fun _ _ _ h => (pull_match h).andThen_value fun _ _ _ h => .next ⟨rfl, h⟩

theorem enterException_match (ret : Word) (status : Byte) (vector : Word) (h : SameButBreak s t) :
    BreakMatch (enterException ret status vector s P) (enterException ret status vector t P) := by
  refine (push16_match ret h).andThen fun _ _ h => (push_match status h).andThen fun s t h => ?_
  have hp : FlagsKept [.B, .U] s.p t.p := by
    obtain ⟨q, hq, rfl⟩ := h
    exact hq
  exact (memRead16_match vector (h.setP (hp.writeFlag_congr .I true))).andThen_value fun _ _ _ h => .next (h.setPc _)

theorem returnFromException_match (h : SameButBreak s t) :
    BreakMatch (returnFromException s P) (returnFromException t P) :=
  (pull_match h).andThen_value fun _ _ _ h =>
  (pull16_match (h.setP (.refl _ _))).andThen_value fun _ _ _ h => .next (h.setPc _)

/-! The resolver and the shapes of instruction. -/

theorem zeroPagePointer_match (z : Byte) (h : SameButBreak s t) :
    BreakMatchValue (zeroPagePointer z s P) (zeroPagePointer z t P) :=
  (memRead_match _ h).andThen_value fun _ _ _ h => (memRead_match _ h).andThen_value fun _ _ _ h => .next ⟨rfl, h⟩

theorem indirectTarget_match (ptr : Word) (h : SameButBreak s t) :
    BreakMatchValue (indirectTarget ptr s P) (indirectTarget ptr t P) :=
  (memRead_match _ h).andThen_value fun _ _ _ h => (memRead_match _ h).andThen_value fun _ _ _ h => .next ⟨rfl, h⟩

theorem resolve_match (o : Operand) (h : SameButBreak s t) : BreakMatchValue (resolve o s P) (resolve o t P) := by
  obtain ⟨q, hq, rfl⟩ := h
  have h : SameButBreak s (s.setP q) := ⟨q, hq, rfl⟩
  cases o with
  | indx b => exact (zeroPagePointer_match _ h).andThen_value fun _ _ _ h => .next ⟨rfl, h⟩
  | indy b =>
    refine (zeroPagePointer_match b h).andThen_value fun _ s t h => .next ?_
    obtain ⟨q, hq, rfl⟩ := h
    exact ⟨rfl, q, hq, rfl⟩
  | ind w => exact (indirectTarget_match w h).andThen_value fun _ _ _ h => .next ⟨rfl, h⟩
  | _ => exact .next ⟨rfl, h⟩

theorem readOperand_match (r : Resolved) (h : SameButBreak s t) :
    BreakMatchValue (readOperand r s P) (readOperand r t P) := by
  cases r with
  | immediate v => exact .next ⟨rfl, h⟩
  | accumulator =>
    obtain ⟨q, hq, rfl⟩ := h
    exact .next ⟨rfl, q, hq, rfl⟩
  | address ea crossed => exact memRead_match ea h
  | _ => exact .refused _

theorem storeBack_match (r : Resolved) (v : Byte) (h : SameButBreak s t) :
    BreakMatch (storeBack r v s P) (storeBack r v t P) := by
  cases r with
  | accumulator => exact .next (h.setA v)
  | address ea crossed => exact memWrite_match ea v h
  | _ => exact .refused _

theorem readInstr_match (i : Instr) (o : Operand) {update : Byte → State → State} (h : SameButBreak s t)
    (hu : ∀ m s t, SameButBreak s t → SameButBreak (update m s) (update m t)) :
    BreakMatch (readInstr i o update s P) (readInstr i o update t P) := by
  refine ((resolve_match o h).andThen_value fun r _ _ h =>
    (readOperand_match r h).andThen_value fun m s t h => ?_).ifWellFormed i P
  exact .next ((hu m s t h).advance i _)

theorem modifyInstr_match (i : Instr) (o : Operand) {f : Byte → Byte → Byte × Byte} (h : SameButBreak s t)
    (hf : IgnoresFlags [.B, .U] f) : BreakMatch (modifyInstr i o f s P) (modifyInstr i o f t P) := by
  refine ((resolve_match o h).andThen_value fun r _ _ h =>
    (readOperand_match r h).andThen_value fun v s t h => ?_).ifWellFormed i P
  obtain ⟨q, hq, rfl⟩ := h
  obtain ⟨hbyte, hflags⟩ := hf s.p q v hq
  simp only [setP_p, hbyte]
  exact (storeBack_match r _ ⟨_, hflags, rfl⟩).andThen fun _ _ h => .next (h.advance i _)

theorem storeInstr_match (i : Instr) (o : Operand) (v : Byte) (h : SameButBreak s t) :
    BreakMatch (storeInstr i o v s P) (storeInstr i o v t P) :=
  ((resolve_match o h).andThen_value fun r _ _ h =>
    (storeBack_match r v h).andThen fun _ _ h => .next (h.advance i _)).ifWellFormed i P

theorem branchInstr_match (i : Instr) (d : Byte) (cond : Bool) (h : SameButBreak s t) :
    BreakMatch (branchInstr i d cond s P) (branchInstr i d cond t P) := by
  obtain ⟨q, hq, rfl⟩ := h
  unfold branchInstr
  cases cond
  · exact .next ⟨q, hq, rfl⟩
  · exact .next ⟨q, hq, rfl⟩

/-! The updates of the reading instructions. -/

theorem accumulate_match (kind : AluKind) (m : Byte) (h : SameButBreak s t) :
    SameButBreak (accumulate kind m s) (accumulate kind m t) := by
  obtain ⟨q, hq, rfl⟩ := h
  obtain ⟨hbyte, hflags⟩ := hq.alu_congr (by decide) kind s.a m
  simp only [accumulate, setP_p, setP_a, hbyte]
  exact ⟨_, hflags, rfl⟩

theorem compareWith_match (reg m : Byte) (h : SameButBreak s t) :
    SameButBreak (compareWith reg m s) (compareWith reg m t) := by
  obtain ⟨q, hq, rfl⟩ := h
  exact ⟨_, hq.compareFlags_congr reg m, rfl⟩

theorem bitTest_match (m : Byte) (h : SameButBreak s t) :
    SameButBreak (s.setP (bitTestFlags s.p s.a m)) (t.setP (bitTestFlags t.p t.a m)) := by
  obtain ⟨q, hq, rfl⟩ := h
  exact ⟨_, hq.bitTestFlags_congr s.a m, rfl⟩

/-- A byte into a register, and Z and N from it (R140 to R142, R148). -/
theorem SameButBreak.load (h : SameButBreak s t) (m : Byte) (set : State → State)
    (hset : ∀ u q, set (u.setP q) = (set u).setP q) :
    SameButBreak ((set s).setP (setZN s.p m)) ((set t).setP (setZN t.p m)) := by
  obtain ⟨q, hq, rfl⟩ := h
  exact ⟨_, hq.setZN_congr m, by rw [hset]; rfl⟩

/-- From states that differ in B and U alone, an instruction leads to outcomes that differ in them alone. -/
theorem exec_match (i : Instr) (h : SameButBreak s t) : BreakMatch (exec i s) (exec i t) := by
  obtain ⟨q, hq, rfl⟩ := h
  have h : SameButBreak s (s.setP q) := ⟨q, hq, rfl⟩
  have flag : ∀ f ∉ [Flag.B, Flag.U], testFlag (s.setP q).p f = testFlag s.p f := hq
  have zn (v : Byte) : FlagsKept [.B, .U] (setZN s.p v) (setZN q v) := hq.setZN_congr v
  have pushes : pushedStatus q = pushedStatus s.p := pushedStatus_eq_iff.2 hq
  have branch (i d) {c c' : Bool} (hc : c' = c) : BreakMatch (branchInstr i d c s) (branchInstr i d c' (s.setP q)) :=
    hc ▸ branchInstr_match i d c h
  cases i with
  | adc o => exact readInstr_match _ o h fun m _ _ => accumulate_match .add m
  | sbc o => exact readInstr_match _ o h fun m _ _ => accumulate_match .subtract m
  | and o => exact readInstr_match _ o h fun m _ _ => accumulate_match .and m
  | ora o => exact readInstr_match _ o h fun m _ _ => accumulate_match .or m
  | eor o => exact readInstr_match _ o h fun m _ _ => accumulate_match .eor m
  | asl o => exact modifyInstr_match _ o h (shiftLeft_ignores _)
  | lsr o => exact modifyInstr_match _ o h (shiftRight_ignores _)
  | rol o => exact modifyInstr_match _ o h (rotateLeft_ignores (by decide))
  | ror o => exact modifyInstr_match _ o h (rotateRight_ignores (by decide))
  | cmp o => exact readInstr_match _ o h fun m _ _ => compareWith_match s.a m
  | cpx o => exact readInstr_match _ o h fun m _ _ => compareWith_match s.x m
  | cpy o => exact readInstr_match _ o h fun m _ _ => compareWith_match s.y m
  | inc o => exact modifyInstr_match _ o h (incrementByte_ignores _)
  | dec o => exact modifyInstr_match _ o h (decrementByte_ignores _)
  | inx => exact .next ⟨_, zn (s.x + 1), rfl⟩
  | iny => exact .next ⟨_, zn (s.y + 1), rfl⟩
  | dex => exact .next ⟨_, zn (s.x - 1), rfl⟩
  | dey => exact .next ⟨_, zn (s.y - 1), rfl⟩
  | bcc d => exact branch _ d (congrArg _ (flag .C (by decide)))
  | bcs d => exact branch _ d (flag .C (by decide))
  | beq d => exact branch _ d (flag .Z (by decide))
  | bne d => exact branch _ d (congrArg _ (flag .Z (by decide)))
  | bmi d => exact branch _ d (flag .N (by decide))
  | bpl d => exact branch _ d (congrArg _ (flag .N (by decide)))
  | bvc d => exact branch _ d (congrArg _ (flag .V (by decide)))
  | bvs d => exact branch _ d (flag .V (by decide))
  | jmpAbs target => exact .next (h.jump _ target)
  | jmpInd ptr => exact (indirectTarget_match ptr h).andThen_value fun _ _ _ h => .next (h.jump _ _)
  | jsr target => exact (push16_match _ h).andThen fun _ _ h => .next (h.jump _ target)
  | rts => exact (pull16_match h).andThen_value fun _ _ _ h => .next (h.jump _ _)
  | lda o => exact readInstr_match _ o h fun m _ _ h => h.load m (·.setA m) fun _ _ => rfl
  | ldx o => exact readInstr_match _ o h fun m _ _ h => h.load m (·.setX m) fun _ _ => rfl
  | ldy o => exact readInstr_match _ o h fun m _ _ h => h.load m (·.setY m) fun _ _ => rfl
  | sta o => exact storeInstr_match _ o s.a h
  | stx o => exact storeInstr_match _ o s.x h
  | sty o => exact storeInstr_match _ o s.y h
  | pha => exact (push_match s.a h).andThen fun _ _ h => .next (h.advance _ _)
  | php =>
    simp only [exec, execPhp, setP_p, pushes]
    exact (push_match _ h).andThen fun _ _ h => .next (h.advance _ _)
  | pla => exact (pull_match h).andThen_value fun v _ _ h => .next ((h.load v (·.setA v) fun _ _ => rfl).advance _ _)
  | plp => exact (pull_match h).andThen_value fun v _ _ h => .next ((h.setP (.refl _ v)).advance _ _)
  | tax => exact .next ⟨_, zn s.a, rfl⟩
  | tay => exact .next ⟨_, zn s.a, rfl⟩
  | txa => exact .next ⟨_, zn s.x, rfl⟩
  | tya => exact .next ⟨_, zn s.y, rfl⟩
  | tsx => exact .next ⟨_, zn s.sp, rfl⟩
  | txs => exact .next ⟨q, hq, rfl⟩
  | bit o => exact readInstr_match _ o h fun m _ _ => bitTest_match m
  | brk =>
    simp only [exec, execBrk, setP_p, setP_pc, pushes]
    exact (enterException_match _ _ _ h).andThen fun _ _ h => .next (h.charge _)
  | rti => exact (returnFromException_match h).andThen fun _ _ h => .next (h.charge _)
  | clc => exact .next ⟨_, hq.writeFlag_congr .C false, rfl⟩
  | sec => exact .next ⟨_, hq.writeFlag_congr .C true, rfl⟩
  | cli => exact .next ⟨_, hq.writeFlag_congr .I false, rfl⟩
  | sei => exact .next ⟨_, hq.writeFlag_congr .I true, rfl⟩
  | cld => exact .next ⟨_, hq.writeFlag_congr .D false, rfl⟩
  | sed => exact .next ⟨_, hq.writeFlag_congr .D true, rfl⟩
  | clv => exact .next ⟨_, hq.writeFlag_congr .V false, rfl⟩
  | nop => exact .next ⟨q, hq, rfl⟩
  | nopStar op o => exact (OutcomesMatch.next ⟨q, hq, rfl⟩).ifWellFormed _ _
  | unimp op => exact (raise_match _ h).ifWellFormed _ _

theorem fetchOperands_match (d : Instr) (h : SameButBreak s t) :
    BreakMatchValue (fetchOperands d s P) (fetchOperands d t P) := by
  obtain ⟨q, hq, rfl⟩ := h
  have h : SameButBreak s (s.setP q) := ⟨q, hq, rfl⟩
  unfold fetchOperands
  split
  · refine (memRead_match _ h).andThen_value fun b1 u _ h => ?_
    obtain ⟨q, hq, rfl⟩ := h
    have h : SameButBreak u (u.setP q) := ⟨q, hq, rfl⟩
    dsimp only
    split
    · exact (memRead_match _ h).andThen_value fun _ _ _ h => .next ⟨rfl, h⟩
    · exact .next ⟨rfl, h⟩
  · exact .next ⟨rfl, h⟩

theorem fetch_match (h : SameButBreak s t) : BreakMatchValue (fetch s P) (fetch t P) := by
  obtain ⟨q, hq, rfl⟩ := h
  exact (memRead_match s.pc ⟨q, hq, rfl⟩).andThen_value fun _ _ _ h => fetchOperands_match _ h

/-- From states that differ in B and U alone, a run call leads to outcomes that differ in them alone. -/
theorem step_match (h : SameButBreak s t) : BreakMatch (step s) (step t) := by
  obtain ⟨q, hq, rfl⟩ := h
  have h : SameButBreak s (s.setP q) := ⟨q, hq, rfl⟩
  unfold step runCall
  simp only [setP_fault, setP_cyc, default_hasInterruptLines, Bool.false_eq_true, if_false]
  split
  · exact .next h
  · split
    · exact .next ⟨q, hq, rfl⟩
    · exact (fetch_match h).andThen_value fun i _ _ h => exec_match i h

end BreakBits

theorem SameButBreak.hideBreakBits_eq {s t : State} (h : SameButBreak s t) :
    Claims.hideBreakBits t = Claims.hideBreakBits s := by
  obtain ⟨q, hq, rfl⟩ := h
  exact congrArg s.setP (pushedStatus_eq_iff.2 hq)

/-- Outcomes that match are equal once B and U are hidden. -/
theorem BreakMatch.onState_hideBreakBits_eq {r r' : Result State} (h : BreakMatch r r') :
    Claims.onState Claims.hideBreakBits r' = Claims.onState Claims.hideBreakBits r := by
  cases h with
  | next h => exact congrArg Host.Outcome.next h.hideBreakBits_eq
  | fault kind h => cases kind <;> simp only [faultOf, Claims.onState, h.hideBreakBits_eq]
  | refused q => rfl

/-- Settles O51: every operation, from the bus up to the run call, takes states that differ in B and U alone to outcomes
that do, since none reads those bits but through the pushed copy of P, which has them set. -/
theorem breakBitsUnobservable : Obligations.BreakBitsUnobservable := by
  unfold Obligations.BreakBitsUnobservable
  intro s q hq
  exact (step_match ⟨q, pushedStatus_eq_iff.1 hq, rfl⟩).onState_hideBreakBits_eq

end Sys2Proof.Machine

/-! ## What an operation answers when it completes -/

namespace Sys2Proof.Machine

/-- Where the outcome is a next value, that value satisfies R. -/
def Answers {α : Type} (R : α → Prop) (r : Result α) : Prop := ∀ v, r = .next v → R v

section Sequencing

variable {α β : Type} {R : α → Prop} {Q : β → Prop}

theorem Answers.next {v : α} (h : R v) : Answers R (.next v) := by
  rintro _ ⟨⟩
  exact h

theorem Answers.raise (kind : FaultKind) (s : State) : Answers R (raise kind s) :=
  fun _ h => absurd h (raise_ne_next _ _ _)

theorem Answers.refused (q : Refusal) : Answers R (.refused q) := nofun

theorem Answers.andThen {r : Result α} {k : α → Result β} (h : Answers R r) (hk : ∀ v, R v → Answers Q (k v)) :
    Answers Q (andThen r k) := fun w hw => by
  obtain ⟨v, hv, hkv⟩ := andThen_eq_next.1 hw
  exact hk v (h v hv) w hkv

theorem Answers.ifWellFormed {r : Result α} {i : Instr} {P : Params}
    (h : i.wellFormed P.unofficialNops = true → Answers R r) : Answers R (ifWellFormed i r P) := by
  unfold Machine.ifWellFormed
  split
  · next hw => exact h hw
  · exact .refused _

end Sequencing

/-! ## O53, O54: the registers and flags an instruction leaves alone (R19, R30, R35) -/

open Claims

/-- t is s but for what the rows of R19 and R35 let the instruction i write, and for PC, CYC, memory and the bus. -/
structure OnlyOwned (i : Instr) (s t : State) : Prop where
  a : writesA i = false → t.a = s.a
  x : writesX i = false → t.x = s.x
  y : writesY i = false → t.y = s.y
  sp : writesS i = false → t.sp = s.sp
  flags : FlagsKept (flagsWritten i) s.p t.p
  fault : t.fault = s.fault
  irq : t.irq = s.irq
  nmiEdge : t.nmiEdge = s.nmiEdge

namespace OnlyOwned

variable {i : Instr} {s u t : State}

theorem refl (i : Instr) (s : State) : OnlyOwned i s s :=
  ⟨fun _ => rfl, fun _ => rfl, fun _ => rfl, fun _ => rfl, .refl _ _, rfl, rfl, rfl⟩

/-- A write to A, X, Y or S of an instruction whose row lists it. -/
theorem setA (h : OnlyOwned i s u) (hw : writesA i = true) (v : Byte) : OnlyOwned i s (u.setA v) :=
  { h with a := fun hn => absurd (hw.symm.trans hn) (by decide) }

theorem setX (h : OnlyOwned i s u) (hw : writesX i = true) (v : Byte) : OnlyOwned i s (u.setX v) :=
  { h with x := fun hn => absurd (hw.symm.trans hn) (by decide) }

theorem setY (h : OnlyOwned i s u) (hw : writesY i = true) (v : Byte) : OnlyOwned i s (u.setY v) :=
  { h with y := fun hn => absurd (hw.symm.trans hn) (by decide) }

theorem setSp (h : OnlyOwned i s u) (hw : writesS i = true) (v : Byte) : OnlyOwned i s (u.setSp v) :=
  { h with sp := fun hn => absurd (hw.symm.trans hn) (by decide) }

/-- A write to P that keeps the flags the instruction's rule does not list. -/
theorem setP (h : OnlyOwned i s u) {q : Byte} (hq : FlagsKept (flagsWritten i) u.p q) : OnlyOwned i s (u.setP q) :=
  { h with flags := h.flags.trans hq }

/-! PC and CYC are free. -/

theorem setPc (h : OnlyOwned i s u) (w : Word) : OnlyOwned i s (u.setPc w) := { h with }

theorem charge (h : OnlyOwned i s u) (cost : Nat) : OnlyOwned i s (u.charge cost) := { h with }

theorem advance (h : OnlyOwned i s u) (j : Instr) (crossed : Bool) (P : Params) :
    OnlyOwned i s (u.advance j crossed P) := { h with }

theorem jump (h : OnlyOwned i s u) (j : Instr) (target : Word) (P : Params) : OnlyOwned i s (u.jump j target P) :=
  { h with }

theorem afterRead (h : OnlyOwned i s u) (a : Word) (P : Params) : OnlyOwned i s (afterRead u a P) := by
  unfold Machine.afterRead
  split <;> exact { h with }

theorem afterWrite (h : OnlyOwned i s u) (a : Word) (v : Byte) (P : Params) : OnlyOwned i s (afterWrite u a v P) := by
  unfold Machine.afterWrite State.poke
  split <;> exact { h with }

end OnlyOwned

section OwnedEffects

variable {i : Instr} {s u : State} {P : Params}

/-- The operation writes nothing that i may not write, whatever value it answers with. -/
abbrev OwnedAnswers (i : Instr) (s : State) {α : Type} : Result (α × State) → Prop :=
  Answers fun r => OnlyOwned i s r.2

/-! The bus and the stack. -/

theorem memRead_owned (a : Word) (h : OnlyOwned i s u) : OwnedAnswers i s (memRead a u P) := fun r hr => by
  obtain ⟨-, rfl⟩ := memRead_eq_next.1 hr
  exact h.afterRead a P

theorem memWrite_owned (a : Word) (v : Byte) (h : OnlyOwned i s u) : Answers (OnlyOwned i s) (memWrite a v u P) :=
  fun t ht => by
    obtain ⟨-, rfl⟩ := memWrite_eq_next.1 ht
    exact h.afterWrite a v P

theorem memRead16_owned (a : Word) (h : OnlyOwned i s u) : OwnedAnswers i s (memRead16 a u P) :=
  (memRead_owned _ h).andThen fun _ h => (memRead_owned _ h).andThen fun _ h => .next h

theorem push_owned (hw : writesS i = true) (v : Byte) (h : OnlyOwned i s u) :
    Answers (OnlyOwned i s) (push v u P) := by
  unfold push
  split
  · exact .raise _ _
  · exact (memWrite_owned _ v h).andThen fun _ h => .next (h.setSp hw _)

theorem push16_owned (hw : writesS i = true) (w : Word) (h : OnlyOwned i s u) :
    Answers (OnlyOwned i s) (push16 w u P) :=
  (push_owned hw _ h).andThen fun _ h => push_owned hw _ h

theorem pull_owned (hw : writesS i = true) (h : OnlyOwned i s u) : OwnedAnswers i s (pull u P) := by
  unfold pull
  split
  · exact .raise _ _
  · exact memRead_owned _ (h.setSp hw _)

theorem pull16_owned (hw : writesS i = true) (h : OnlyOwned i s u) : OwnedAnswers i s (pull16 u P) :=
  (pull_owned hw h).andThen fun _ h => (pull_owned hw h).andThen fun _ h => .next h

theorem enterException_owned (hw : writesS i = true) (hf : .I ∈ flagsWritten i) (ret : Word) (status : Byte)
    (vector : Word) (h : OnlyOwned i s u) : Answers (OnlyOwned i s) (enterException ret status vector u P) :=
  (push16_owned hw ret h).andThen fun _ h => (push_owned hw status h).andThen fun v h =>
    (memRead16_owned vector (h.setP ((FlagsKept.refl _ v.p).writeFlag hf true))).andThen fun _ h => .next (h.setPc _)

theorem returnFromException_owned (hw : writesS i = true) (hf : ∀ f, f ∈ flagsWritten i) (h : OnlyOwned i s u) :
    Answers (OnlyOwned i s) (returnFromException u P) :=
  (pull_owned hw h).andThen fun _ h =>
    (pull16_owned hw (h.setP fun f hn => absurd (hf f) hn)).andThen fun _ h => .next (h.setPc _)

/-! The resolver and the shapes of instruction. -/

theorem zeroPagePointer_owned (z : Byte) (h : OnlyOwned i s u) : OwnedAnswers i s (zeroPagePointer z u P) :=
  (memRead_owned _ h).andThen fun _ h => (memRead_owned _ h).andThen fun _ h => .next h

theorem indirectTarget_owned (ptr : Word) (h : OnlyOwned i s u) : OwnedAnswers i s (indirectTarget ptr u P) :=
  (memRead_owned _ h).andThen fun _ h => (memRead_owned _ h).andThen fun _ h => .next h

/-- Resolving writes no register, and only the accumulator form resolves to the accumulator (R87, R89). -/
theorem resolve_owned (o : Operand) (h : OnlyOwned i s u) :
    Answers (fun r => (r.1 = .accumulator → o = .acc) ∧ OnlyOwned i s r.2) (resolve o u P) := by
  cases o with
  | acc => exact .next ⟨fun _ => rfl, h⟩
  | indx b => exact (zeroPagePointer_owned _ h).andThen fun _ h => .next ⟨nofun, h⟩
  | indy b => exact (zeroPagePointer_owned b h).andThen fun _ h => .next ⟨nofun, h⟩
  | ind w => exact (indirectTarget_owned w h).andThen fun _ h => .next ⟨nofun, h⟩
  | _ => exact .next ⟨nofun, h⟩

theorem readOperand_owned (r : Resolved) (h : OnlyOwned i s u) : OwnedAnswers i s (readOperand r u P) := by
  cases r with
  | immediate v => exact .next h
  | accumulator => exact .next h
  | address ea crossed => exact memRead_owned ea h
  | _ => exact .refused _

/-- A store-back writes A in the accumulator form and no register in any other (R102). -/
theorem storeBack_owned {r : Resolved} (hr : r = .accumulator → writesA i = true) (v : Byte) (h : OnlyOwned i s u) :
    Answers (OnlyOwned i s) (storeBack r v u P) := by
  cases r with
  | accumulator => exact .next (h.setA (hr rfl) v)
  | address ea crossed => exact memWrite_owned ea v h
  | _ => exact .refused _

theorem readInstr_owned (o : Operand) {update : Byte → State → State}
    (hu : ∀ m u, OnlyOwned i s u → OnlyOwned i s (update m u)) :
    Answers (OnlyOwned i s) (readInstr i o update s P) :=
  .ifWellFormed fun _ => (resolve_owned o (.refl i s)).andThen fun _ ⟨_, h⟩ =>
    (readOperand_owned _ h).andThen fun _ h => .next ((hu _ _ h).advance _ _ _)

/-! By the premise `hacc` of the two shapes that store back, the accumulator form is one of i's forms only where i's row
lists A. -/

theorem modifyInstr_owned (o : Operand) {f : Byte → Byte → Byte × Byte}
    (hacc : i.wellFormed P.unofficialNops = true → o = .acc → writesA i = true)
    (hf : ∀ p v, FlagsKept (flagsWritten i) p (f p v).2) : Answers (OnlyOwned i s) (modifyInstr i o f s P) :=
  .ifWellFormed fun hw => (resolve_owned o (.refl i s)).andThen fun _ ⟨hr, h⟩ =>
    (readOperand_owned _ h).andThen fun _ h =>
    (storeBack_owned (hacc hw ∘ hr) _ (h.setP (hf _ _))).andThen fun _ h => .next (h.advance _ _ _)

theorem storeInstr_owned (o : Operand) (v : Byte)
    (hacc : i.wellFormed P.unofficialNops = true → o = .acc → writesA i = true) :
    Answers (OnlyOwned i s) (storeInstr i o v s P) :=
  .ifWellFormed fun hw => (resolve_owned o (.refl i s)).andThen fun _ ⟨hr, h⟩ =>
    (storeBack_owned (hacc hw ∘ hr) v h).andThen fun _ h => .next (h.advance _ _ _)

theorem branchInstr_owned (d : Byte) (cond : Bool) : Answers (OnlyOwned i s) (branchInstr i d cond s P) := by
  cases cond <;> exact .next (((OnlyOwned.refl i s).setPc _).charge _)

end OwnedEffects

/-- PLP and RTI list all eight flags (R35), which are all bits of P. -/
theorem mem_flagsWritten_plp (f : Flag) : f ∈ flagsWritten .plp := by cases f <;> decide

/-- Every instruction that completes has written only what its rows list. -/
theorem exec_owned (i : Instr) (s : State) : Answers (OnlyOwned i s) (exec i s) := by
  have h : OnlyOwned i s s := .refl i s
  cases i with
  | adc o => exact readInstr_owned o fun m u h => (h.setA rfl _).setP (.alu_arithmetic (.inl rfl) u.p u.a m)
  | sbc o => exact readInstr_owned o fun m u h => (h.setA rfl _).setP (.alu_arithmetic (.inr rfl) u.p u.a m)
  | and o => exact readInstr_owned o fun m u h => (h.setA rfl _).setP (.alu_logical (.inl rfl) u.p u.a m)
  | ora o => exact readInstr_owned o fun m u h => (h.setA rfl _).setP (.alu_logical (.inr (.inr rfl)) u.p u.a m)
  | eor o => exact readInstr_owned o fun m u h => (h.setA rfl _).setP (.alu_logical (.inr (.inl rfl)) u.p u.a m)
  | asl o => exact modifyInstr_owned o (by rintro - rfl; rfl) fun p _ => .carry_setZN p _ _
  | lsr o => exact modifyInstr_owned o (by rintro - rfl; rfl) fun p _ => .carry_setZN p _ _
  | rol o => exact modifyInstr_owned o (by rintro - rfl; rfl) fun p _ => .carry_setZN p _ _
  | ror o => exact modifyInstr_owned o (by rintro - rfl; rfl) fun p _ => .carry_setZN p _ _
  | cmp o => exact readInstr_owned o fun m u h => h.setP (.compareFlags u.p s.a m)
  | cpx o => exact readInstr_owned o fun m u h => h.setP (.compareFlags u.p s.x m)
  | cpy o => exact readInstr_owned o fun m u h => h.setP (.compareFlags u.p s.y m)
  | inc o => exact modifyInstr_owned o (by rintro h rfl; cases h) fun p _ => .setZN p _
  | dec o => exact modifyInstr_owned o (by rintro h rfl; cases h) fun p _ => .setZN p _
  | inx => exact .next (((h.setX rfl (s.x + 1)).setP (.setZN s.p _)).advance _ _ _)
  | iny => exact .next (((h.setY rfl (s.y + 1)).setP (.setZN s.p _)).advance _ _ _)
  | dex => exact .next (((h.setX rfl (s.x - 1)).setP (.setZN s.p _)).advance _ _ _)
  | dey => exact .next (((h.setY rfl (s.y - 1)).setP (.setZN s.p _)).advance _ _ _)
  | bcc d => exact branchInstr_owned d _
  | bcs d => exact branchInstr_owned d _
  | beq d => exact branchInstr_owned d _
  | bne d => exact branchInstr_owned d _
  | bmi d => exact branchInstr_owned d _
  | bpl d => exact branchInstr_owned d _
  | bvc d => exact branchInstr_owned d _
  | bvs d => exact branchInstr_owned d _
  | jmpAbs target => exact .next (h.jump _ target _)
  | jmpInd ptr => exact (indirectTarget_owned ptr h).andThen fun _ h => .next (h.jump _ _ _)
  | jsr target => exact (push16_owned rfl _ h).andThen fun _ h => .next (h.jump _ target _)
  | rts => exact (pull16_owned rfl h).andThen fun _ h => .next (h.jump _ _ _)
  | lda o => exact readInstr_owned o fun m u h => (h.setA rfl m).setP (.setZN u.p m)
  | ldx o => exact readInstr_owned o fun m u h => (h.setX rfl m).setP (.setZN u.p m)
  | ldy o => exact readInstr_owned o fun m u h => (h.setY rfl m).setP (.setZN u.p m)
  | sta o => exact storeInstr_owned o s.a (by rintro h rfl; cases h)
  | stx o => exact storeInstr_owned o s.x (by rintro h rfl; cases h)
  | sty o => exact storeInstr_owned o s.y (by rintro h rfl; cases h)
  | pha => exact (push_owned rfl s.a h).andThen fun _ h => .next (h.advance _ _ _)
  | php => exact (push_owned rfl _ h).andThen fun _ h => .next (h.advance _ _ _)
  | pla => exact (pull_owned rfl h).andThen fun r h =>
      .next (((h.setA rfl r.1).setP (.setZN r.2.p _)).advance _ _ _)
  | plp => exact (pull_owned rfl h).andThen fun _ h =>
      .next ((h.setP fun f hf => absurd (mem_flagsWritten_plp f) hf).advance _ _ _)
  | tax => exact .next (((h.setX rfl s.a).setP (.setZN s.p _)).advance _ _ _)
  | tay => exact .next (((h.setY rfl s.a).setP (.setZN s.p _)).advance _ _ _)
  | txa => exact .next (((h.setA rfl s.x).setP (.setZN s.p _)).advance _ _ _)
  | tya => exact .next (((h.setA rfl s.y).setP (.setZN s.p _)).advance _ _ _)
  | tsx => exact .next (((h.setX rfl s.sp).setP (.setZN s.p _)).advance _ _ _)
  | txs => exact .next ((h.setSp rfl _).advance _ _ _)
  | bit o =>
    simp only [exec, execBit]
    exact readInstr_owned o fun m u h => h.setP (.bitTestFlags u.p u.a m)
  | brk => exact (enterException_owned rfl (by decide) _ _ _ h).andThen fun _ h => .next (h.charge _)
  | rti => exact (returnFromException_owned (i := .rti) rfl mem_flagsWritten_plp h).andThen fun _ h => .next (h.charge _)
  | clc => exact .next ((h.setP (.writeFlag_single s.p .C false)).advance _ _ _)
  | sec => exact .next ((h.setP (.writeFlag_single s.p .C true)).advance _ _ _)
  | cli => exact .next ((h.setP (.writeFlag_single s.p .I false)).advance _ _ _)
  | sei => exact .next ((h.setP (.writeFlag_single s.p .I true)).advance _ _ _)
  | cld => exact .next ((h.setP (.writeFlag_single s.p .D false)).advance _ _ _)
  | sed => exact .next ((h.setP (.writeFlag_single s.p .D true)).advance _ _ _)
  | clv => exact .next ((h.setP (.writeFlag_single s.p .V false)).advance _ _ _)
  | nop => exact .next (h.advance _ _ _)
  | nopStar op o => exact .ifWellFormed fun _ => .next (h.advance _ _ _)
  | unimp op => exact .ifWellFormed fun _ => .raise _ _

/-- Settles O53: what an instruction writes, it owns, and so every flag its rule does not list is kept. -/
theorem flagsChangeOnlyByOwner : Obligations.FlagsChangeOnlyByOwner := by
  unfold Obligations.FlagsChangeOnlyByOwner
  intro i s t f h hf
  exact (exec_owned i s t h).flags f hf

/-- Settles O54: what an instruction writes, it owns, and so every register its row does not list is kept. -/
theorem registersChangeOnlyByOwner : Obligations.RegistersChangeOnlyByOwner := by
  unfold Obligations.RegistersChangeOnlyByOwner
  intro i s t h
  obtain ⟨ha, hx, hy, hsp, -, hfault, hirq, hnmi⟩ := exec_owned i s t h
  exact ⟨ha, hx, hy, hsp, hfault, hirq, hnmi⟩

end Sys2Proof.Machine

/-! ## O1: the launch state (R33, R40, R41, R189) -/

namespace Sys2Proof.Machine

/-- Loading bytes changes no cell outside them. -/
theorem readCell_loadCells_outside (m : Memory) (base k : Nat) (vs : List Byte)
    (hk : k < base ∨ base + vs.length ≤ k) : readCell (loadCells m base vs) k = readCell m k := by
  induction vs generalizing m base with
  | nil => rfl
  | cons v vs ih =>
    simp only [List.length_cons] at hk
    rw [loadCells, ih _ _ (by omega), readCell_writeCell_ne _ _ _ _ (by omega)]

/-- Each loaded byte is read back from its cell. -/
theorem readCell_loadCells {m : Memory} {base i : Nat} {vs : List Byte} {v : Byte} (hm : Memory.wf m)
    (hcells : ∀ j, j < vs.length → isCell (base + j) = true) (hv : vs[i]? = some v) :
    readCell (loadCells m base vs) (base + i) = v := by
  induction vs generalizing m base i with
  | nil => cases hv
  | cons w ws ih =>
    have hbase : isCell base = true := hcells 0 (by simp)
    cases i with
    | zero =>
      cases hv
      rw [loadCells, readCell_loadCells_outside _ _ _ _ (by omega)]
      exact readCell_writeCell_same m base v hm.1
    | succ i =>
      have hrest : ∀ j, j < ws.length → isCell (base + 1 + j) = true := fun j hj => by
        have := hcells (j + 1) (by simpa using hj)
        rwa [show base + 1 + j = base + (j + 1) by omega]
      rw [show base + (i + 1) = base + 1 + i by omega]
      exact ih (writeCell_keeps_wf hm hbase) hrest (by simpa using hv)

/-- RAM and its mirrors: the cell is the address modulo 2048 (R40, R41). -/
theorem cellOf_ram {a : Word} (h : a.toNat < 0x2000) : cellOf a = some (a.toNat % 2048) := by
  rw [← ramCell_eq]
  unfold cellOf classify
  simp only [default_memoryMap, defaultMemoryMap, if_pos h]
  split <;> rfl

/-- ROM: the cell is the address (R40). -/
theorem cellOf_rom {a : Word} (h : 0x8000 ≤ a.toNat) : cellOf a = some a.toNat := by
  have ha := a.isLt
  unfold cellOf classify
  simp only [default_memoryMap, defaultMemoryMap]
  rw [if_neg (by omega), if_neg (by omega), if_neg (by omega), if_neg (by omega)]
  split
  · simp only [regionCell, romOneCell_eq, Option.some.injEq]
    omega
  · simp only [regionCell, romTwoCell_eq, Option.some.injEq]
    omega

/-! The three arrays of a launch stand in memory from their first cell on (R189, log 14, log 15). -/

section LaunchMemory

/-- The n numbers from base on are cells of RAM or of a ROM bank. -/
def IsBank (base n : Nat) : Prop := base + n ≤ 0x0800 ∨ 0x8000 ≤ base ∧ base + n ≤ 0x10000

variable {base n i : Nat} {m : Memory} {vs : List Byte} {v : Byte} {l : Launch}

theorem IsBank.isCell_take (hb : IsBank base n) (vs : List Byte) :
    ∀ j, j < (vs.take n).length → isCell (base + j) = true := fun j hj => by
  simp only [List.length_take] at hj
  simp only [IsBank] at hb
  simp [isCell]
  omega

theorem IsBank.wf_loadCells (hb : IsBank base n) (hm : Memory.wf m) (vs : List Byte) :
    Memory.wf (loadCells m base (vs.take n)) := loadCells_keeps_wf hm (hb.isCell_take vs)

theorem IsBank.readCell_loadCells (hb : IsBank base n) (hm : Memory.wf m) (hi : i < n) (hv : vs[i]? = some v) :
    readCell (loadCells m base (vs.take n)) (base + i) = v :=
  Machine.readCell_loadCells hm (hb.isCell_take vs) (by rw [List.getElem?_take_of_lt hi, hv])

theorem isBank_ram : IsBank 0 2048 := .inl (by decide)
theorem isBank_romOne : IsBank 0x8000 16384 := .inr (by decide)
theorem isBank_romTwo : IsBank 0xC000 16384 := .inr (by decide)

theorem launch_memory_ram (hi : i < 2048) (hv : l.ram[i]? = some v) : readCell l.memory i = v := by
  rw [Launch.memory, readCell_loadCells_outside _ _ _ _ (by omega), readCell_loadCells_outside _ _ _ _ (by omega)]
  simpa using isBank_ram.readCell_loadCells (m := []) (by simp [Memory.wf]) hi hv

theorem launch_memory_prgLo (hi : i < 16384) (hv : l.prgLo[i]? = some v) : readCell l.memory (0x8000 + i) = v := by
  rw [Launch.memory, readCell_loadCells_outside _ _ _ _ (by omega)]
  exact isBank_romOne.readCell_loadCells (isBank_ram.wf_loadCells (by simp [Memory.wf]) _) hi hv

theorem launch_memory_prgHi (hi : i < 16384) (hv : l.prgHi[i]? = some v) : readCell l.memory (0xC000 + i) = v :=
  isBank_romTwo.readCell_loadCells
    (isBank_romOne.wf_loadCells (isBank_ram.wf_loadCells (by simp [Memory.wf]) _) _) hi hv

end LaunchMemory

/-- What the harness reads at an address of a launch state, where the address has a cell (R57). -/
theorem peek_reset_of_cellOf {l : Launch} {a : Word} {k : Nat} (h : cellOf a = some k) :
    l.reset.peek a = some (readCell l.memory k) := by
  simp [State.peek, h]

/-- At reset I, B and U are 1 and the other flags are drawn (R33). -/
theorem testFlag_reset_p (l : Launch) (f : Flag) :
    testFlag l.reset.p f = if f = .I ∨ f = .B ∨ f = .U then true else testFlag l.p f := by
  cases f <;> simp [testFlag, Launch.reset, flagBit]

/-- Settles O1: the registers by the definition of reset, the three arrays because each bank is loaded into its own cells
and no later bank overwrites them. -/
theorem resetBuildsLaunchState : Obligations.ResetBuildsLaunchState := by
  unfold Obligations.ResetBuildsLaunchState
  intro l
  refine ⟨rfl, rfl, rfl, rfl, rfl, rfl, rfl, testFlag_reset_p l, fun i v hi hv => ?_, fun i v hi hv => ?_,
    fun i v hi hv => ?_, fun lo hi hlo hhi => ?_⟩
  · have ha : (BitVec.ofNat 16 i).toNat = i := by simp; omega
    rw [peek_reset_of_cellOf (cellOf_ram (by omega)), ha, Nat.mod_eq_of_lt hi, launch_memory_ram hi hv]
  · have ha : (BitVec.ofNat 16 (0x8000 + i)).toNat = 0x8000 + i := by simp; omega
    rw [peek_reset_of_cellOf (cellOf_rom (by omega)), ha, launch_memory_prgLo hi hv]
  · have ha : (BitVec.ofNat 16 (0xC000 + i)).toNat = 0xC000 + i := by simp; omega
    rw [peek_reset_of_cellOf (cellOf_rom (by omega)), ha, launch_memory_prgHi hi hv]
  · rw [peek_reset_of_cellOf (cellOf_rom (by decide)), Option.some.injEq] at hlo hhi
    exact hlo ▸ hhi ▸ rfl

end Sys2Proof.Machine

/-! # Proofs: the family of 20_memory.md -/

namespace Sys2Proof.Machine

/-! ## O3: the default memory map (R40, R41) -/

section Map

variable {P : Params} {a b : Word}

theorem Writable.mapped (h : Writable a P) : Mapped a P := by
  rcases h with h | h | h <;> simp [Mapped, h]

theorem InRom.mapped (h : InRom a P) : Mapped a P := by
  rcases h with h | h <;> simp [Mapped, h]

theorem InRom.not_writable (h : InRom a P) : ¬ Writable a P := by
  rcases h with h | h <;> simp [Writable, h]

theorem classify_ram_iff : classify a = .ram ∨ classify a = .ramMirror ↔ a.toNat < 0x2000 := by
  unfold classify
  simp only [default_memoryMap, defaultMemoryMap]
  split_ifs <;> simp <;> omega

theorem writable_ram (h : a.toNat < 0x2000) : Writable a := (classify_ram_iff.2 h).imp_right .inl

theorem classify_ppu (h : 0x2000 ≤ a.toNat) (h' : a.toNat < 0x2008) : classify a = .ppu := by
  unfold classify
  simp only [default_memoryMap, defaultMemoryMap]
  rw [if_neg (by omega), if_neg (by omega), if_pos h']

theorem classify_unmapped (h : 0x2008 ≤ a.toNat) (h' : a.toNat < 0x8000) : classify a = .unmapped := by
  unfold classify
  simp only [default_memoryMap, defaultMemoryMap]
  rw [if_neg (by omega), if_neg (by omega), if_neg (by omega), if_pos h']

/-- The default map has ROM from $8000 on (R40). -/
theorem inRom_default (h : 0x8000 ≤ a.toNat) : InRom a := by
  unfold InRom classify
  simp only [default_memoryMap, defaultMemoryMap]
  rw [if_neg (by omega), if_neg (by omega), if_neg (by omega), if_neg (by omega)]
  split
  · exact .inl rfl
  · exact .inr rfl

/-- The PPU block and the unmapped addresses have no cell (R40). -/
theorem cellOf_none (h : 0x2000 ≤ a.toNat) (h' : a.toNat < 0x8000) : cellOf a = none := by
  by_cases hp : a.toNat < 0x2008
  · rw [cellOf, classify_ppu h hp]
    rfl
  · rw [cellOf, classify_unmapped (by omega) h']
    rfl

/-- The addresses of one RAM cell are those that agree modulo 2048 (R41). -/
theorem cellOf_eq_ram_iff (ha : a.toNat < 0x2000) :
    cellOf b = cellOf a ↔ b.toNat < 0x2000 ∧ b.toNat % 2048 = a.toNat % 2048 := by
  rw [cellOf_ram ha]
  by_cases hb : b.toNat < 0x2000
  · simp [cellOf_ram hb, hb]
  · by_cases hrom : 0x8000 ≤ b.toNat
    · simp only [cellOf_rom hrom, hb, Option.some.injEq, false_and, iff_false]
      omega
    · simp [cellOf_none (by omega : 0x2000 ≤ b.toNat) (by omega), hb]

end Map

/-- Settles O3: one range of the map at a time. -/
theorem memoryMapGivesCells : Obligations.MemoryMapGivesCells := by
  unfold Obligations.MemoryMapGivesCells
  intro a
  refine ⟨fun h => ?_, fun h h' => ?_, fun h h' => ?_, fun h => ?_⟩
  · have hw := writable_ram h
    exact ⟨cellOf_ram h, hw.mapped, hw⟩
  · have hw : Writable a := .inr (.inr (classify_ppu h h'))
    exact ⟨cellOf_none h (by omega), hw.mapped, hw⟩
  · have hu : ¬ Mapped a := not_not.2 (classify_unmapped h h')
    exact ⟨cellOf_none (by omega) h', hu, mt Writable.mapped hu⟩
  · have hr : InRom a := inRom_default h
    exact ⟨cellOf_rom h, hr.mapped, hr.not_writable, hr⟩

/-! ## O4, O5: the bus (R44, R45) -/

section Bus

variable {P : Params} {s : State} {a : Word} {v : Byte}

/-- A PPU register has no cell (R40). -/
theorem cellOf_ppu (h : classify a P = .ppu) : cellOf a P = none := by
  rw [cellOf, h]
  rfl

/-- An address with a byte is mapped, and no PPU register (R40). -/
theorem classify_of_peek (h : s.peek a P = some v) : Mapped a P ∧ classify a P ≠ .ppu := by
  constructor <;> intro hc <;> simp [State.peek, cellOf, hc, regionCell] at h

theorem byteAt_of_peek (h : s.peek a P = some v) : byteAt s a P = v := by
  rw [byteAt, h]

theorem byteAt_ppu (h : classify a P = .ppu) : byteAt s a P = Config.ppuRead s.ppuDraws := by
  rw [byteAt, State.peek, cellOf_ppu h]
  rfl

/-- A read of a byte only enters the log (R44). -/
theorem afterRead_of_peek (h : s.peek a P = some v) : afterRead s a P = s.logAccess .read a v := by
  obtain ⟨-, hc⟩ := classify_of_peek h
  rw [afterRead, byteAt_of_peek h]
  split
  · contradiction
  all_goals rfl

theorem afterRead_ppu (h : classify a P = .ppu) :
    afterRead s a P = (s.logAccess .read a (Config.ppuRead s.ppuDraws)).nextDraw := by
  rw [afterRead, h, byteAt_ppu h]

/-- A write to a PPU register only enters the log (R43, R45). -/
theorem afterWrite_ppu (h : classify a P = .ppu) : afterWrite s a v P = s.logAccess .write a v := by
  rw [afterWrite, State.poke, cellOf_ppu h]

/-- A write changes the log and memory alone (R45). -/
theorem afterWrite_eq (s : State) (a : Word) (v : Byte) (P : Params) :
    afterWrite s a v P =
      { s with busLog := s.busLog ++ [⟨.write, a, v⟩], mem := (afterWrite s a v P).mem } := by
  unfold afterWrite State.poke
  split <;> rfl

/-- RAM has cells, whatever the map (R40, R41). -/
theorem cellOf_ram_region (h : classify a P = .ram ∨ classify a P = .ramMirror) : cellOf a P = some (ramCell a) := by
  rcases h with h | h <;> rw [cellOf, h] <;> rfl

/-- In the default map a write to RAM changes the bytes of one cell, at all its mirrors (R41). -/
theorem peek_afterWrite_ram (hm : Memory.wf s.mem) (ha : a.toNat < 0x2000) (b : Word) :
    (afterWrite s a v).peek b =
      if b.toNat < 0x2000 ∧ b.toNat % 2048 = a.toNat % 2048 then some v else s.peek b := by
  rw [if_congr (cellOf_eq_ram_iff ha).symm rfl rfl]
  split
  · next h => exact peek_afterWrite_same v hm (cellOf_ram ha) (h.trans (cellOf_ram ha))
  · next h => exact peek_afterWrite_ne v h

end Bus

/-- Settles O4: by the region of the address. -/
theorem busReadRule : Obligations.BusReadRule := by
  unfold Obligations.BusReadRule
  intro a s P
  refine ⟨fun h => memRead_unmapped s (not_not.1 h), fun v h => ?_, fun h => ?_⟩
  · rw [memRead_mapped s (classify_of_peek h).1, byteAt_of_peek h, afterRead_of_peek h]
    rfl
  · rw [memRead_mapped s (by simp [Mapped, h]), byteAt_ppu h, afterRead_ppu h]
    rfl

/-- Settles O5: by the region of the address; a write to RAM is read back, and no other cell changes. -/
theorem busWriteRule : Obligations.BusWriteRule := by
  unfold Obligations.BusWriteRule
  intro a v s P hm
  refine ⟨fun h => memWrite_unmapped v s (not_not.1 h), memWrite_rom v s, fun h => ?_, fun h => ?_⟩
  · rw [memWrite_writable v s (.inr (.inr h)), afterWrite_ppu h]
    rfl
  · have hcell := cellOf_ram_region h
    refine ⟨afterWrite s a v P, memWrite_writable v s (h.imp_right .inl), afterWrite_eq s a v P,
      peek_afterWrite_same v hm hcell hcell, fun b hb => peek_afterWrite_ne v hb, ?_⟩
    rintro rfl
    exact peek_afterWrite_ram hm (classify_ram_iff.1 h)

/-! ## O6: two bytes in RAM (R38) -/

/-- A 16-bit read of two addresses with bytes gives them, the low byte first (R38). -/
theorem memRead16_of_peek {P : Params} {s : State} {a : Word} {lo hi : Byte} (hlo : s.peek a P = some lo)
    (hhi : s.peek (a + 1) P = some hi) :
    memRead16 a s P = .next (w16 lo hi, afterRead (afterRead s a P) (a + 1) P) := by
  rw [memRead16_mapped s (classify_of_peek hlo).1 (classify_of_peek hhi).1, byteAt_of_peek hlo,
    byteAt_of_peek ((peek_afterRead s a _ P).trans hhi)]

/-- A 16-bit write to two writable addresses stores the low byte first (R38). -/
theorem memWrite16_writable {P : Params} {a : Word} (w : Word) (s : State) (h : Writable a P)
    (h' : Writable (a + 1) P) :
    memWrite16 a w s P = .next (afterWrite (afterWrite s a (loByte w) P) (a + 1) (hiByte w) P) := by
  rw [memWrite16, memWrite_writable _ _ h, andThen_next, memWrite_writable _ _ h']

/-- Settles O6: the two bytes have different cells, so both are read back. -/
theorem wordRoundTripLittleEndian : Obligations.WordRoundTripLittleEndian := by
  unfold Obligations.WordRoundTripLittleEndian
  intro a w s hm ha
  have hsucc : (a + 1).toNat = a.toNat + 1 := by bv_omega
  have ha0 : a.toNat < 0x2000 := by omega
  have ha1 : (a + 1).toNat < 0x2000 := by omega
  have hne : cellOf a ≠ cellOf (a + 1) := by
    rw [ne_eq, cellOf_eq_ram_iff ha1]
    omega
  have hlo := (peek_afterWrite_ne (s := afterWrite s a (loByte w)) (hiByte w) hne).trans
    (peek_afterWrite_same _ hm (cellOf_ram ha0) (cellOf_ram ha0))
  have hhi := peek_afterWrite_same (s := afterWrite s a (loByte w)) (hiByte w) (afterWrite_keeps_wf _ _ hm)
    (cellOf_ram ha1) (cellOf_ram ha1)
  have hread := memRead16_of_peek hlo hhi
  rw [w16_loByte_hiByte] at hread
  exact ⟨_, _, memWrite16_writable w s (writable_ram ha0) (writable_ram ha1), hlo, hhi, hread⟩

/-! ## O7, O8: the stack (R50 to R54) -/

/-- Settles O7: the check of S decides each case. -/
theorem pushPullRules : Obligations.PushPullRules := by
  unfold Obligations.PushPullRules
  intro v s
  refine ⟨fun h => ?_, push_next v, fun h => ?_, pull_next⟩
  · rw [push_overflow v h, h]
    rfl
  · rw [pull_underflow h, h]
    rfl

/-- A pull after a push gives the byte pushed (R54). -/
theorem pulledByte_pushed {s : State} (v : Byte) (hm : Memory.wf s.mem) : pulledByte (pushed v s) = v :=
  pulledByte_of_peek (by rw [pushed_sp, BitVec.sub_add_cancel, peek_pushed_same v hm])

/-- The second pull after two pushes gives the byte pushed first. -/
theorem pulledByte_pulled_pushed {s : State} (v w : Byte) (hm : Memory.wf s.mem) :
    pulledByte (pulled (pushed w (pushed v s))) = v := by
  refine pulledByte_of_peek ?_
  have hne : cellOf (stackAddress s.sp) ≠ cellOf (stackAddress (pushed v s).sp) := by
    rw [pushed_sp, cellOf_stackAddress, cellOf_stackAddress, ne_eq, Option.some.injEq]
    bv_omega
  rw [peek_pulled, pulled_sp, pushed_sp, pushed_sp, BitVec.sub_add_cancel, BitVec.sub_add_cancel,
    peek_pushed_ne w hne, peek_pushed_same v hm]

/-- Settles O8: each pull reads the stack byte that the matching push wrote last. -/
theorem stackRoundTrip : Obligations.StackRoundTrip := by
  unfold Obligations.StackRoundTrip
  intro w v s hm
  refine ⟨fun h => ⟨push16_next w h, ?_⟩, fun h => ?_⟩
  · refine ⟨pulled (pulled (pushed (loByte w) (pushed (hiByte w) s))), ?_, ?_⟩
    · rw [pull16_next (by rw [pushed_sp, pushed_sp]; bv_omega), pulledByte_pushed _ (pushed_keeps_wf _ hm),
        pulledByte_pulled_pushed _ _ hm, w16_loByte_hiByte]
    · simp only [pulled_sp, pushed_sp]
      bv_omega
  · refine ⟨pulled (pushed v s), ?_, ?_⟩
    · rw [pull_next (by rw [pushed_sp]; bv_omega), pulledByte_pushed v hm]
    · simp only [pulled_sp, pushed_sp, BitVec.sub_add_cancel]

end Sys2Proof.Machine

/-! ## How an operation may end -/

namespace Sys2Proof.Machine

/-- An operation ends with an answer that meets R, with a fault raised in a state that meets F, or with a refusal. -/
inductive Ends (F : State → Prop) {α : Type} (R : α → Prop) : Result α → Prop
  | next {v : α} (h : R v) : Ends F R (.next v)
  | raise (kind : FaultKind) {u : State} (h : F u) : Ends F R (raise kind u)
  | refused (q : Refusal) : Ends F R (.refused q)

section Sequencing

variable {F : State → Prop} {α β : Type} {R R' : α → Prop} {Q : β → Prop} {r : Result α}

theorem Ends.andThen {k : α → Result β} (h : Ends F R r) (hk : ∀ v, R v → Ends F Q (k v)) :
    Ends F Q (andThen r k) := by
  cases h with
  | next h => exact hk _ h
  | raise kind h => exact .raise kind h
  | refused q => exact .refused q

/-- An answer meets R and is what the operation answers. -/
theorem Ends.withAnswer (h : Ends F R r) : Ends F (fun v => r = .next v ∧ R v) r := by
  cases h with
  | next h => exact .next ⟨rfl, h⟩
  | raise kind h => exact .raise kind h
  | refused q => exact .refused q

theorem Ends.imp (h : Ends F R r) (hR : ∀ v, R v → R' v) : Ends F R' r := by
  cases h with
  | next h => exact .next (hR _ h)
  | raise kind h => exact .raise kind h
  | refused q => exact .refused q

theorem Ends.ifWellFormed (h : Ends F R r) (i : Instr) (P : Params) : Ends F R (ifWellFormed i r P) := by
  unfold Machine.ifWellFormed
  split
  · exact h
  · exact .refused _

theorem Ends.of_next {v : α} (h : Ends F R (.next v)) : R v := by
  cases h with
  | next h => exact h

theorem Ends.of_fault {f : Fault} (h : Ends F R (.fault f)) :
    ∃ kind u, F u ∧ faultState f = u.setFault ⟨kind, u.pc⟩ := by
  cases h with
  | raise kind h => exact ⟨kind, _, h, faultState_faultOf _ _⟩

end Sequencing

/-- The state an outcome holds is the next one, or that of a raise with FAULT set (R169, R177). -/
theorem Ends.of_resultState {F R : State → Prop} {r : Result State} {t : State} (h : Ends F R r)
    (ht : Claims.resultState r = some t) : R t ∨ ∃ kind u, F u ∧ t = u.setFault ⟨kind, u.pc⟩ := by
  cases r with
  | next v =>
    cases ht
    exact .inl h.of_next
  | fault f =>
    cases ht
    exact .inr h.of_fault
  | refused q => cases ht

/-! ## The states a run call passes through -/

/-- t has the bus log, memory, PC, CYC and FAULT of u, which no write to A, X, Y, P, S or an optional input touches. -/
structure SameButRegisters (u t : State) : Prop where
  log : t.busLog = u.busLog
  mem : t.mem = u.mem
  pc : t.pc = u.pc
  cyc : t.cyc = u.cyc
  fault : t.fault = u.fault

/-- u is a state that a run call from s passes through before it writes PC, CYC or FAULT: registers are written, mapped
addresses are read and writable addresses that meet W are written, and of the six accesses a run call may make (R48),
`left` are still free. -/
inductive Midway (P : Params) (W : Word → Prop) (s : State) : Nat → State → Prop
  | refl : Midway P W s 6 s
  | spare {left : Nat} {u : State} (h : Midway P W s (left + 1) u) : Midway P W s left u
  | registers {left : Nat} {u t : State} (h : Midway P W s left u) (hr : SameButRegisters u t) : Midway P W s left t
  | read {left : Nat} {u : State} {a : Word} (h : Midway P W s (left + 1) u) (ha : Mapped a P) :
      Midway P W s left (afterRead u a P)
  | write {left : Nat} {u : State} {a : Word} (h : Midway P W s (left + 1) u) (ha : Writable a P) (hW : W a)
      (v : Byte) : Midway P W s left (afterWrite u a v P)

/-- t is such a state with PC and CYC written, as a completed run call from s leaves it (R81, R85). -/
def Completed (P : Params) (W : Word → Prop) (s t : State) : Prop :=
  ∃ u pc cyc, Midway P W s 0 u ∧ t = (u.setPc pc).setCyc cyc

/-- c is a value of `CYCLES` (R85). -/
def IsCost (P : Params) (c : Byte) : Prop :=
  ∃ (op : Byte) (crossed taken branchCrossed : Bool), c = P.cycles op crossed taken branchCrossed

/-- t is a state that a completed instruction from s leads to: CYC holds its cost. -/
def Executed (P : Params) (W : Word → Prop) (s t : State) : Prop := Completed P W s t ∧ IsCost P t.cyc

section Midway

variable {P : Params} {W : Word → Prop} {s u t : State} {left : Nat}

theorem Midway.mono (h : Midway P W s left u) {k : Nat} (hk : k ≤ left) : Midway P W s k u := by
  induction left with
  | zero => exact Nat.le_zero.1 hk ▸ h
  | succ n ih =>
    rcases Nat.le_succ_iff.1 hk with hk | rfl
    · exact ih h.spare hk
    · exact h

theorem Midway.toZero (h : Midway P W s left u) : Midway P W s 0 u := h.mono left.zero_le

/-- PC, CYC and FAULT are written at the end alone (R21, R81, R85). -/
theorem Midway.keeps (h : Midway P W s left u) : u.pc = s.pc ∧ u.cyc = s.cyc ∧ u.fault = s.fault := by
  induction h with
  | refl => exact ⟨rfl, rfl, rfl⟩
  | spare _ ih => exact ih
  | registers _ hr ih => rwa [hr.pc, hr.cyc, hr.fault]
  | read _ _ ih => simpa using ih
  | write _ _ _ _ ih => simpa using ih

/-- The log is the old one and the accesses made (R47). -/
theorem Midway.busLog_eq (h : Midway P W s left u) :
    ∃ accesses : List BusAccess, u.busLog = s.busLog ++ accesses ∧ accesses.length + left ≤ 6 := by
  induction h with
  | refl => exact ⟨[], by simp⟩
  | spare _ ih =>
    obtain ⟨l, hl, hn⟩ := ih
    exact ⟨l, hl, by omega⟩
  | registers _ hr ih =>
    rw [hr.log]
    exact ih
  | read _ _ ih =>
    obtain ⟨l, hl, hn⟩ := ih
    exact ⟨l ++ [_], by rw [afterRead_busLog, hl, List.append_assoc], by simp; omega⟩
  | write _ _ _ _ ih =>
    obtain ⟨l, hl, hn⟩ := ih
    exact ⟨l ++ [_], by rw [afterWrite_busLog, hl, List.append_assoc], by simp; omega⟩

theorem Midway.wf_mem (h : Midway P W s left u) (hm : Memory.wf s.mem) : Memory.wf u.mem := by
  induction h with
  | refl => exact hm
  | spare _ ih => exact ih
  | registers _ hr ih => rwa [hr.mem]
  | read _ _ ih => rwa [afterRead_mem]
  | write _ _ _ _ ih => exact afterWrite_keeps_wf _ _ ih

/-- An address whose cell no written address has reads as before. -/
theorem Midway.peek_eq (h : Midway P W s left u) {a : Word}
    (ha : ∀ w, Writable w P → W w → cellOf a P ≠ cellOf w P) : u.peek a P = s.peek a P := by
  induction h with
  | refl => rfl
  | spare _ ih => exact ih
  | registers _ hr ih => rw [← ih, State.peek, State.peek, hr.mem]
  | read _ _ ih => rw [peek_afterRead, ih]
  | write _ hw hW v ih => rw [peek_afterWrite_ne v (ha _ hw hW), ih]

theorem Completed.setCyc (h : Completed P W s t) (c : Byte) : Completed P W s (t.setCyc c) := by
  obtain ⟨u, pc, cyc, h, rfl⟩ := h
  exact ⟨u, pc, c, h, rfl⟩

/-! The ends of an instruction (R81, R85). -/

theorem isCost_cycles (i : Instr) (crossed : Bool) : IsCost P (BitVec.ofNat 8 (cycles i crossed P)) :=
  ⟨_, _, _, _, BitVec.ofNat_toNat _ _⟩

theorem isCost_branchCycles (i : Instr) (taken branchCrossed : Bool) :
    IsCost P (BitVec.ofNat 8 (branchCycles i taken branchCrossed P)) :=
  ⟨_, _, _, _, BitVec.ofNat_toNat _ _⟩

theorem Midway.setPc (h : Midway P W s left u) (pc : Word) : Completed P W s (u.setPc pc) :=
  ⟨u, pc, u.cyc, h.toZero, rfl⟩

theorem Completed.charge (h : Completed P W s t) (i : Instr) (crossed : Bool) :
    Executed P W s (t.charge (cycles i crossed P)) := ⟨h.setCyc _, isCost_cycles i crossed⟩

theorem Midway.advance (h : Midway P W s left u) (i : Instr) (crossed : Bool) :
    Executed P W s (u.advance i crossed P) := (h.setPc _).charge i crossed

theorem Midway.jump (h : Midway P W s left u) (i : Instr) (target : Word) : Executed P W s (u.jump i target P) :=
  (h.setPc target).charge i false

/-! The registers an operation writes on its way. -/

theorem Midway.setA (h : Midway P W s left u) (v : Byte) : Midway P W s left (u.setA v) :=
  h.registers ⟨rfl, rfl, rfl, rfl, rfl⟩

theorem Midway.setP (h : Midway P W s left u) (v : Byte) : Midway P W s left (u.setP v) :=
  h.registers ⟨rfl, rfl, rfl, rfl, rfl⟩

theorem Midway.setSp (h : Midway P W s left u) (v : Byte) : Midway P W s left (u.setSp v) :=
  h.registers ⟨rfl, rfl, rfl, rfl, rfl⟩

end Midway

/-! ## Every operation passes through such states -/

section Passes

variable {P : Params} {W : Word → Prop} {s u : State} {left : Nat}

/-- The operation makes no more than the accesses left before it answers or faults; what it answers meets R. -/
abbrev Passes (P : Params) (W : Word → Prop) (s : State) {α : Type} (R : α → Prop) : Result α → Prop :=
  Ends (Midway P W s 0) R

theorem memRead_passes (a : Word) (h : Midway P W s (left + 1) u) :
    Passes P W s (fun r => Midway P W s left r.2) (memRead a u P) := by
  by_cases ha : classify a P = .unmapped
  · exact memRead_unmapped u ha ▸ .raise _ h.toZero
  · exact memRead_mapped u ha ▸ .next (h.read ha)

theorem memWrite_passes {a : Word} (hW : W a) (v : Byte) (h : Midway P W s (left + 1) u) :
    Passes P W s (Midway P W s left) (memWrite a v u P) := by
  by_cases ha : Writable a P
  · exact memWrite_writable v u ha ▸ .next (h.write ha hW v)
  · unfold memWrite
    cases hc : classify a P with
    | ram => exact absurd (.inl hc) ha
    | ramMirror => exact absurd (.inr (.inl hc)) ha
    | ppu => exact absurd (.inr (.inr hc)) ha
    | _ => exact .raise _ h.toZero

theorem memRead16_passes (a : Word) (h : Midway P W s (left + 2) u) :
    Passes P W s (fun r => Midway P W s left r.2) (memRead16 a u P) :=
  (memRead_passes a h).andThen fun _ h => (memRead_passes _ h).andThen fun _ h => .next h

/-! The stack (R50 to R53). -/

/-- A push writes the stack byte S names (R50). -/
theorem push_passes (v : Byte) (h : Midway P W s (left + 1) u) (hW : W (stackByte u.sp)) :
    Passes P W s (fun t => Midway P W s left t ∧ t.sp = u.sp - 1) (push v u P) := by
  unfold push
  split
  · exact .raise _ h.toZero
  · refine (memWrite_passes hW v h).withAnswer.andThen fun t ⟨ht, h⟩ => .next ⟨h.setSp _, ?_⟩
    obtain ⟨-, rfl⟩ := memWrite_eq_next.1 ht
    rw [setSp_sp, afterWrite_sp]

theorem push16_passes (w : Word) (h : Midway P W s (left + 2) u)
    (hW : ∀ a ∈ [stackByte u.sp, stackByte (u.sp - 1)], W a) :
    Passes P W s (fun t => Midway P W s left t ∧ t.sp = u.sp - 2) (push16 w u P) :=
  (push_passes _ h (hW _ (by simp))).andThen fun _ ⟨h, hsp⟩ =>
    (push_passes _ h (hW _ (by simp [hsp]))).imp fun _ ⟨h, hsp'⟩ => ⟨h, by rw [hsp', hsp]; bv_omega⟩

theorem pull_passes (h : Midway P W s (left + 1) u) : Passes P W s (fun r => Midway P W s left r.2) (pull u P) := by
  unfold pull
  split
  · exact .raise _ h.toZero
  · exact memRead_passes _ (h.setSp _)

theorem pull16_passes (h : Midway P W s (left + 2) u) : Passes P W s (fun r => Midway P W s left r.2) (pull16 u P) :=
  (pull_passes h).andThen fun _ h => (pull_passes h).andThen fun _ h => .next h

/-- Entering an exception makes five accesses, the three pushes first (R157, R183). -/
theorem enterException_passes (ret : Word) (status : Byte) (vector : Word) (h : Midway P W s (left + 5) u)
    (hW : ∀ a ∈ [stackByte u.sp, stackByte (u.sp - 1), stackByte (u.sp - 2)], W a) :
    Passes P W s (Completed P W s) (enterException ret status vector u P) :=
  (push16_passes ret h fun a ha => hW a (List.mem_append_left [_] ha)).andThen fun _ ⟨h, hsp⟩ =>
    (push_passes status h (hW _ (by simp [hsp]))).andThen fun _ ⟨h, _⟩ =>
    (memRead16_passes vector (h.setP _)).andThen fun _ h => .next (h.setPc _)

theorem returnFromException_passes (h : Midway P W s (left + 3) u) :
    Passes P W s (Completed P W s) (returnFromException u P) :=
  (pull_passes h).andThen fun _ h => (pull16_passes (h.setP _)).andThen fun _ h => .next (h.setPc _)

/-! The resolver and the shapes of instruction. -/

theorem zeroPagePointer_passes (z : Byte) (h : Midway P W s (left + 2) u) :
    Passes P W s (fun r => Midway P W s left r.2) (zeroPagePointer z u P) :=
  (memRead_passes _ h).andThen fun _ h => (memRead_passes _ h).andThen fun _ h => .next h

theorem indirectTarget_passes (ptr : Word) (h : Midway P W s (left + 2) u) :
    Passes P W s (fun r => Midway P W s left r.2) (indirectTarget ptr u P) :=
  (memRead_passes _ h).andThen fun _ h => (memRead_passes _ h).andThen fun _ h => .next h

/-- How many accesses are still free once an operand is resolved: the read and the write at an effective address, or one
for the other forms, of which the indirect jump's has spent two on three fetched bytes. -/
def operandAccesses : Resolved → Nat
  | .address _ _ => 2
  | _ => 1

/-- Resolving, after the fetch of the instruction's bytes, leaves those accesses free (R87, R97 to R99). -/
theorem resolve_passes (o : Operand) (h : Midway P W s (6 - modeLength o.mode) u) :
    Passes P W s (fun r => Midway P W s (operandAccesses r.1) r.2) (resolve o u P) := by
  cases o with
  | indx b => exact (zeroPagePointer_passes _ h).andThen fun _ h => .next h
  | indy b => exact (zeroPagePointer_passes b h).andThen fun _ h => .next h
  | ind w => exact (indirectTarget_passes w h).andThen fun _ h => .next h
  | _ => exact .next (h.mono (by simp [operandAccesses, Operand.mode, modeLength]))

theorem one_le_operandAccesses (r : Resolved) : 1 ≤ operandAccesses r := by cases r <;> simp [operandAccesses]

theorem readOperand_passes (r : Resolved) (h : Midway P W s (operandAccesses r) u) :
    Passes P W s (fun v => Midway P W s 1 v.2) (readOperand r u P) := by
  cases r with
  | immediate v => exact .next h
  | accumulator => exact .next h
  | address ea crossed => exact memRead_passes ea h
  | _ => exact .refused _

theorem storeBack_passes {r : Resolved} (hW : ∀ ea crossed, r = .address ea crossed → W ea) (v : Byte)
    (h : Midway P W s 1 u) : Passes P W s (Midway P W s 0) (storeBack r v u P) := by
  cases r with
  | accumulator => exact .next (h.toZero.setA v)
  | address ea crossed => exact memWrite_passes (hW ea crossed rfl) v h
  | _ => exact .refused _

/-- The operand resolves to the address a (R87). -/
def ResolvesTo (P : Params) (o : Operand) (s : State) (a : Word) : Prop :=
  ∃ crossed t, resolve o s P = .next (.address a crossed, t)

theorem readInstr_passes {i : Instr} (o : Operand) {update : Byte → State → State}
    (h : Midway P W s (6 - modeLength o.mode) u) (hu : ∀ m v, SameButRegisters v (update m v)) :
    Passes P W s (Executed P W s) (readInstr i o update u P) :=
  .ifWellFormed ((resolve_passes o h).andThen fun r h => (readOperand_passes r.1 h).andThen fun m h =>
    .next ((h.registers (hu m.1 m.2)).advance i _)) i P

theorem modifyInstr_passes (i : Instr) (o : Operand) (f : Byte → Byte → Byte × Byte)
    (h : Midway P W s (6 - modeLength o.mode) u) (hW : ∀ a, ResolvesTo P o u a → W a) :
    Passes P W s (Executed P W s) (modifyInstr i o f u P) :=
  .ifWellFormed ((resolve_passes o h).withAnswer.andThen fun r ⟨hr, h⟩ => (readOperand_passes r.1 h).andThen fun _ h =>
    (storeBack_passes (fun ea crossed he => hW ea ⟨crossed, r.2, he ▸ hr⟩) _ (h.setP _)).andThen fun _ h =>
    .next (h.advance i _)) i P

theorem storeInstr_passes (i : Instr) (o : Operand) (v : Byte) (h : Midway P W s (6 - modeLength o.mode) u)
    (hW : ∀ a, ResolvesTo P o u a → W a) : Passes P W s (Executed P W s) (storeInstr i o v u P) :=
  .ifWellFormed ((resolve_passes o h).withAnswer.andThen fun r ⟨hr, h⟩ =>
    (storeBack_passes (fun ea crossed he => hW ea ⟨crossed, r.2, he ▸ hr⟩) v
      (h.mono (one_le_operandAccesses r.1))).andThen fun _ h =>
    .next (h.advance i _)) i P

theorem branchInstr_passes (i : Instr) (d : Byte) (cond : Bool) (h : Midway P W s left u) :
    Passes P W s (Executed P W s) (branchInstr i d cond u P) := by
  cases cond
  · exact .next ⟨(h.setPc _).setCyc _, isCost_branchCycles ..⟩
  · exact .next ⟨(h.setPc _).setCyc _, isCost_branchCycles ..⟩

/-- An instruction that writes registers alone. -/
theorem implied_passes {t : State} {i : Instr} {crossed : Bool} (h : Midway P W s left u)
    (hr : SameButRegisters u t) : Passes P W s (Executed P W s) (.next (t.advance i crossed P)) :=
  .next ((h.registers hr).advance i crossed)

/-! Every instruction. -/

/-- The addresses an instruction may write: its effective address, where it stores there, or the stack bytes it pushes
to (R48). -/
def MayWrite (P : Params) (i : Instr) (s : State) : Word → Prop :=
  match i with
  | .sta o | .stx o | .sty o | .asl o | .lsr o | .rol o | .ror o | .inc o | .dec o => ResolvesTo P o s
  | i => (· ∈ Claims.pushAddresses i s)

/-- From the state after the fetch of its bytes, an instruction makes no access but those R48 allows it, and writes no
address but those it may write. -/
theorem execWith_passes (i : Instr) (h : Midway P W s (6 - instrLength i) u) (hW : ∀ a, MayWrite P i u a → W a) :
    Passes P W s (Executed P W s) (execWith i u P) := by
  cases i with
  | adc o | sbc o | and o | ora o | eor o | cmp o | cpx o | cpy o | lda o | ldx o | ldy o =>
    exact readInstr_passes o h fun _ _ => ⟨rfl, rfl, rfl, rfl, rfl⟩
  | bit o =>
    simp only [execWith, execBit]
    exact readInstr_passes o h fun _ _ => ⟨rfl, rfl, rfl, rfl, rfl⟩
  | asl o | lsr o | rol o | ror o | inc o | dec o => exact modifyInstr_passes _ o _ h hW
  | sta o | stx o | sty o => exact storeInstr_passes _ o _ h hW
  | bcc d | bcs d | beq d | bne d | bmi d | bpl d | bvc d | bvs d => exact branchInstr_passes _ d _ h
  | jmpAbs target => exact .next (h.jump _ target)
  | jmpInd ptr => exact (indirectTarget_passes ptr h).andThen fun _ h => .next (h.jump _ _)
  | jsr target => exact (push16_passes _ h hW).andThen fun _ ⟨h, _⟩ => .next (h.jump _ target)
  | rts => exact (pull16_passes h).andThen fun _ h => .next (h.jump _ _)
  | pha | php => exact (push_passes _ h (hW _ (.head _))).andThen fun _ ⟨h, _⟩ => .next (h.advance _ _)
  | pla => exact (pull_passes h).andThen fun r h => .next (((h.setA r.1).setP _).advance _ _)
  | plp => exact (pull_passes h).andThen fun r h => .next ((h.setP r.1).advance _ _)
  | brk => exact (enterException_passes _ _ _ h hW).andThen fun _ h => .next (h.charge _ _)
  | rti => exact (returnFromException_passes h).andThen fun _ h => .next (h.charge _ _)
  | nopStar op o => exact .ifWellFormed (.next (h.advance _ _)) _ _
  | unimp op => exact .ifWellFormed (.raise _ h.toZero) _ _
  | _ => exact implied_passes h ⟨rfl, rfl, rfl, rfl, rfl⟩

/-! The fetch and the run call. -/

theorem one_le_instrLength (i : Instr) : 1 ≤ instrLength i := by
  unfold instrLength
  cases i.form.mode <;> decide

theorem fetchOperands_passes (d : Instr) (h : Midway P W s 5 u) :
    Passes P W s (fun r => Midway P W s (6 - instrLength r.1) r.2) (fetchOperands d u P) := by
  unfold fetchOperands
  split
  · refine (memRead_passes _ h).andThen fun r h => ?_
    dsimp only
    split
    · next h3 => exact (memRead_passes _ h).andThen fun _ h => .next (h.mono (by simp [fillInstr_length, h3]))
    · next h3 => exact .next (h.mono (by simp only [fillInstr_length]; omega))
  · exact .next (h.mono (Nat.sub_le_sub_left (one_le_instrLength d) 6))

/-- Before its meaning, an instruction has made one access for each of its bytes (R78 to R80). -/
theorem fetch_passes (h : Midway P W s 6 u) :
    Passes P W s (fun r => Midway P W s (6 - instrLength r.1) r.2) (fetch u P) :=
  (memRead_passes _ h).andThen fun _ h => fetchOperands_passes _ h

end Passes

/-! The two ways a run call can access the bus (R77, R182). -/

theorem runInstruction_passes (P : Params) (s : State) :
    Passes P (fun _ => True) s (Executed P (fun _ => True) s) (runInstruction (execWith · · P) s P) :=
  (fetch_passes .refl).andThen fun r h => execWith_passes r.1 h fun _ _ => trivial

theorem enterInterrupt_passes (P : Params) (vector : Word) (s : State) :
    Passes P (fun _ => True) s (Completed P (fun _ => True) s) (enterInterrupt vector s P) := by
  have hack : SameButRegisters s (acknowledge s) := by
    unfold acknowledge
    split <;> exact ⟨rfl, rfl, rfl, rfl, rfl⟩
  exact (enterException_passes (left := 1) _ _ _ (Midway.refl.registers hack) fun _ _ => trivial).andThen
    fun _ h => .next (h.setCyc _)

/-- The bus log and memory of t are those of a state that a run call from s passes through. -/
def BusPassed (P : Params) (s t : State) : Prop :=
  ∃ u, Midway P (fun _ => True) s 0 u ∧ t.busLog = u.busLog ∧ t.mem = u.mem

theorem Completed.busPassed {P : Params} {s t : State} (h : Completed P (fun _ => True) s t) : BusPassed P s t := by
  obtain ⟨u, _, _, hu, rfl⟩ := h
  exact ⟨u, hu, rfl, rfl⟩

/-- FAULT is all that a raise writes (R177). -/
theorem Midway.busPassed_of_raise {P : Params} {s t : State}
    (h : ∃ kind u, Midway P (fun _ => True) s 0 u ∧ t = u.setFault ⟨kind, u.pc⟩) : BusPassed P s t := by
  obtain ⟨_, u, hu, rfl⟩ := h
  exact ⟨u, hu, rfl, rfl⟩

/-- However a run call ends, faulting or not, its bus log and memory are those of a state it passed through (R82). -/
theorem stepWith_busPassed {P : Params} {s t : State} (h : Claims.resultState (stepWith P s) = some t) :
    BusPassed P s t := by
  rcases runCall_cases (execWith · · P) s P with ⟨-, hs⟩ | ⟨-, -, hs⟩ | ⟨-, -, -, vector, -, hs⟩ | ⟨-, -, -, hs⟩ <;>
    rw [stepWith, hs] at h
  · cases h
    exact ⟨s, Midway.refl.toZero, rfl, rfl⟩
  · cases h
    exact ⟨s, Midway.refl.toZero, rfl, rfl⟩
  · exact ((enterInterrupt_passes P vector s).of_resultState h).elim (·.busPassed) Midway.busPassed_of_raise
  · exact ((runInstruction_passes P s).of_resultState h).elim (·.1.busPassed) Midway.busPassed_of_raise

/-! ## O50: the bus log (R47, R48) -/

/-- Settles O50: a run call passes through states that have made no more than six accesses. -/
theorem busLogOnlyGrows : Obligations.BusLogOnlyGrows := by
  unfold Obligations.BusLogOnlyGrows
  intro s t h
  rw [← stepWith_default] at h
  obtain ⟨u, hu, hlog, -⟩ := stepWith_busPassed h
  rw [hlog]
  exact hu.busLog_eq

/-! ## O49: ROM (R42) -/

/-- No writable address has a cell of ROM (R41, R42). -/
theorem cellOf_ne_of_inRom {P : Params} {a w : Word} (ha : InRom a P) (hw : Writable w P) :
    cellOf a P ≠ cellOf w P := by
  have hrom : ∃ k, cellOf a P = some k ∧ 0x8000 ≤ k := by
    rcases ha with ha | ha
    · exact ⟨romOneCell a, by rw [cellOf, ha]; rfl, by rw [romOneCell_eq]; omega⟩
    · exact ⟨romTwoCell a, by rw [cellOf, ha]; rfl, by rw [romTwoCell_eq]; omega⟩
  have hram : ∀ k, cellOf w P = some k → k < 0x8000 := by
    rcases hw with hw | hw | hw <;> simp [cellOf, regionCell, hw, ramCell_eq] <;> omega
  obtain ⟨k, hk, hle⟩ := hrom
  intro heq
  have := hram k (heq ▸ hk)
  omega

/-- With whatever map, a run call keeps the bytes of ROM. -/
theorem stepWith_keeps_rom {P : Params} {s t : State} {a : Word} (h : Claims.resultState (stepWith P s) = some t)
    (ha : InRom a P) : t.peek a P = s.peek a P := by
  obtain ⟨u, hu, -, hmem⟩ := stepWith_busPassed h
  rw [← hu.peek_eq fun w hw _ => cellOf_ne_of_inRom ha hw, State.peek, State.peek, hmem]

/-- Settles O49: every address a run call writes is writable, and so none has a cell of ROM. -/
theorem romNeverChanges : Obligations.RomNeverChanges := by
  unfold Obligations.RomNeverChanges
  refine ⟨fun P s t a h ha => stepWith_keeps_rom h ha, fun s t a h ha => ?_⟩
  rw [← stepWith_default] at h
  exact stepWith_keeps_rom h (inRom_default ha)

/-! ## O48: the invariant (R44, R45, R85, R170, R177) -/

/-- The base cost of an instruction with all its penalties is at most 7 (R85, R197). -/
theorem baseCycles_add_penalties_le (i : Instr) :
    baseCycles i + bitOf (pageCrossPenalty i) + 2 * bitOf (isBranch i) ≤ 7 := by
  have read : ∀ m, readCycles m + bitOf (crossingMode m) ≤ 7 := by intro m; cases m <;> decide
  have nops : ∀ m, nopStarCycles m + bitOf (crossingMode m) ≤ 7 := by intro m; cases m <;> decide
  cases i with
  | adc o | sbc o | and o | ora o | eor o | cmp o | cpx o | cpy o | lda o | ldx o | ldy o | bit o => exact read o.mode
  | nopStar op o => exact nops o.mode
  | asl o | lsr o | rol o | ror o | inc o | dec o => exact baseCycles_le (.inc o)
  | sta o | stx o | sty o => exact baseCycles_le (.sta o)
  | _ => simp [baseCycles, pageCrossPenalty, isBranch, bitOf]

theorem bitOf_and_le (b c : Bool) : bitOf (b && c) ≤ bitOf b := by cases b <;> cases c <;> decide

/-- Every value of the default `CYCLES` is at most 7 (R85). -/
theorem IsCost.toNat_le {c : Byte} (h : IsCost .default c) : c.toNat ≤ 7 := by
  obtain ⟨op, crossed, taken, branchCrossed, rfl⟩ := h
  have hcost := baseCycles_add_penalties_le (decodeOpcode op)
  have hcrossed := bitOf_and_le (pageCrossPenalty (decodeOpcode op)) crossed
  have htaken := bitOf_and_le (isBranch (decodeOpcode op)) taken
  have hbranch := bitOf_and_le (isBranch (decodeOpcode op) && taken) branchCrossed
  rw [default_cycles, defaultCycles, BitVec.toNat_ofNat]
  exact (Nat.mod_le _ _).trans (by omega)

theorem LogLegal.append {log : List BusAccess} (h : LogLegal log) {e : BusAccess}
    (he : (e.dir = .read → Mapped e.addr) ∧ (e.dir = .write → Writable e.addr)) : LogLegal (log ++ [e]) := by
  intro d hd
  rcases List.mem_append.1 hd with hd | hd
  · exact h d hd
  · exact List.mem_singleton.1 hd ▸ he

section Invariant

variable {W : Word → Prop} {s t u : State} {left : Nat}

theorem Midway.logLegal (h : Midway .default W s left u) (hs : LogLegal s.busLog) : LogLegal u.busLog := by
  induction h with
  | refl => exact hs
  | spare _ ih => exact ih
  | registers _ hr ih => rwa [hr.log]
  | read _ ha ih => exact afterRead_busLog .. ▸ ih.append ⟨fun _ => ha, nofun⟩
  | write _ ha _ _ ih => exact afterWrite_busLog .. ▸ ih.append ⟨nofun, fun _ => ha⟩

/-- A completed instruction keeps the invariant: CYC holds its cost, and FAULT is none as before. -/
theorem Executed.inv (h : Executed .default W s t) (hs : Inv s) (hf : s.fault = none) : Inv t := by
  obtain ⟨⟨u, pc, cyc, hu, rfl⟩, hcost⟩ := h
  obtain ⟨-, -, hfault⟩ := hu.keeps
  exact ⟨hu.wf_mem hs.memory, hcost.toNat_le, hu.logLegal hs.log, fun r hr => by
    cases (hfault.trans hf).symm.trans hr⟩

/-- So does a raise: its record names PC, and CYC is 0 as before. -/
theorem Midway.inv_setFault (h : Midway .default W s left u) (hs : Inv s) (hc : s.cyc = 0) (kind : FaultKind) :
    Inv (u.setFault ⟨kind, u.pc⟩) := by
  obtain ⟨-, hcyc, -⟩ := h.keeps
  exact ⟨h.wf_mem hs.memory, hcyc ▸ hs.countdown, h.logLegal hs.log, fun r hr => by
    cases hr
    exact ⟨rfl, hcyc.trans hc⟩⟩

/-- A step of the countdown keeps the invariant. -/
theorem Inv.countDown (hs : Inv s) (hf : s.fault = none) (hc : s.cyc ≠ 0) : Inv (s.setCyc (s.cyc - 1)) := by
  have := hs.countdown
  exact ⟨hs.memory, by rw [setCyc_cyc]; bv_omega, hs.log, fun r hr => by cases hf.symm.trans hr⟩

end Invariant

/-- Settles O48: a run call does nothing, counts down, or runs an instruction, whose every intermediate state keeps what
the invariant says of memory and the log. -/
theorem stepKeepsInvariant : Obligations.StepKeepsInvariant := by
  unfold Obligations.StepKeepsInvariant
  intro s t hs
  rcases step_cases s with ⟨-, h⟩ | ⟨hf, hc, h⟩ | ⟨hf, hc, h⟩
  · rw [h]
    exact ⟨fun ht => by cases ht; exact hs, nofun⟩
  · rw [h]
    exact ⟨fun ht => by cases ht; exact hs.countDown hf hc, nofun⟩
  · have hrun := runInstruction_passes .default s
    simp only [execWith_default] at hrun
    rw [h]
    refine ⟨fun ht => ?_, fun f hfault => ?_⟩
    · rw [ht] at hrun
      exact hrun.of_next.inv hs hf
    · rw [hfault] at hrun
      obtain ⟨kind, u, hu, hstate⟩ := hrun.of_fault
      exact hstate ▸ hu.inv_setFault hs hc kind

end Sys2Proof.Machine

/-! ## O55, O56, O57: the bytes an instruction leaves alone (R48) -/

namespace Sys2Proof.Machine

section Frame

variable {P : Params} {i : Instr} {o : Operand} {s t : State} {a b : Word}

/-- An instruction that completes changes no byte but those at addresses it may write. -/
theorem exec_keeps_peek (h : exec i s = .next t) (ha : ∀ w, MayWrite .default i s w → cellOf a ≠ cellOf w) :
    t.peek a = s.peek a := by
  have hpass := execWith_passes (W := MayWrite .default i s) i (Midway.refl.mono (Nat.sub_le 6 _)) fun _ => id
  rw [execWith_default, h] at hpass
  obtain ⟨⟨u, pc, cyc, hu, rfl⟩, -⟩ := hpass.of_next
  exact hu.peek_eq fun w _ hw => ha w hw

theorem ResolvesTo.isAddressForm (h : ResolvesTo P o s a) : isAddressForm o = true := by
  obtain ⟨crossed, t, h⟩ := h
  cases o with
  | imp => cases h
  | acc => cases h
  | imm v => cases h
  | ind w =>
    obtain ⟨_, -, h⟩ := andThen_eq_next.1 h
    cases h
  | rel d => cases h
  | _ => rfl

theorem ResolvesTo.unique (h : ResolvesTo P o s a) (h' : ResolvesTo P o s b) : a = b := by
  obtain ⟨_, _, h⟩ := h
  obtain ⟨_, _, h'⟩ := h'
  cases h.symm.trans h'
  rfl

/-- An instruction or form that stores nothing may write no address. -/
theorem MayWrite.storesMemory (h : MayWrite P i s a) : Claims.storesMemory i = true := by
  cases i with
  | asl o | lsr o | rol o | ror o => exact h.isAddressForm
  | sta o | stx o | sty o | inc o | dec o => rfl
  | pha | php | jsr target | brk => rfl
  | _ => cases h

end Frame

/-- Settles O55: an instruction that stores nothing may write no address. -/
theorem nonStoringFrame : Obligations.NonStoringFrame := by
  unfold Obligations.NonStoringFrame
  intro i s t h hi a
  exact exec_keeps_peek h fun w hw => absurd (hi.symm.trans hw.storesMemory) (by decide)

/-- Settles O56: the one address a store may write is the one its operand resolves to. -/
theorem storingFrame : Obligations.StoringFrame := by
  unfold Obligations.StoringFrame
  intro i s t s1 ea crossed hi h hea a ha
  have hmay : ∀ w, MayWrite .default i s w → ResolvesTo .default i.form s w := by
    rcases hi with hi | hi | hi | hi | hi | hi | hi | hi | hi <;> rw [hi] <;> exact fun _ => id
  exact exec_keeps_peek h fun w hw => (hmay w hw).unique ⟨crossed, s1, hea⟩ ▸ ha

/-- Settles O57: the addresses a push, call or break may write are the stack bytes it pushes to. -/
theorem pushingFrame : Obligations.PushingFrame := by
  unfold Obligations.PushingFrame
  intro i s t hi h a ha
  have hmay : ∀ w, MayWrite .default i s w → w ∈ Claims.pushAddresses i s := by
    rcases hi with rfl | rfl | rfl | ⟨target, rfl⟩ <;> exact fun _ => id
  exact exec_keeps_peek h fun w hw => ha w (hmay w hw)

end Sys2Proof.Machine

/-! # Proofs: the family of 30_encoding.md -/

namespace Sys2Proof

section Operands

/-! ## Operand bytes (R63, R65 to R69) -/

variable {i : Instr} {b1 b2 : Byte}

/-- An opcode byte and the operand bytes of a filled form are as many of the three bytes as the mode's length (R65). -/
theorem cons_operandBytes_fillOperand (op b1 b2 : Byte) (o : Operand) :
    op :: operandBytes (fillOperand b1 b2 o) = [op, b1, b2].take (modeLength o.mode) := by
  cases o <;> simp [operandBytes, fillOperand, Operand.mode, modeLength]

/-- Bytes after a form's operand bytes do not change what it is filled with (R63). -/
theorem fillOperand_operandBytes_append (o : Operand) (rest : List Byte) :
    fillOperand ((operandBytes o ++ rest).getD 0 0) ((operandBytes o ++ rest).getD 1 0) o = o := by
  cases o <;> simp [operandBytes, fillOperand]

/-- An instruction is its opcode byte and the operand bytes of its form (R63). -/
theorem instrLength_eq (i : Instr) : instrLength i = (operandBytes i.form).length + 1 := by
  unfold instrLength
  cases i.form <;> rfl

@[simp] theorem fillInstr_form (b1 b2 : Byte) (i : Instr) :
    (fillInstr b1 b2 i).form = fillOperand b1 b2 i.form := by
  cases i <;> rfl

/-- An instruction has no operand bytes outside its form. -/
theorem fillInstr_eq_self (h : fillOperand b1 b2 i.form = i.form) : fillInstr b1 b2 i = i := by
  cases i <;> simp_all [fillInstr, fillOperand, Instr.form]

/-- Filling a form replaces all the operand bytes it had. -/
@[simp] theorem fillOperand_fillOperand (b1 b2 c1 c2 : Byte) (o : Operand) :
    fillOperand b1 b2 (fillOperand c1 c2 o) = fillOperand b1 b2 o := by
  cases o <;> rfl

@[simp] theorem fillInstr_fillInstr (b1 b2 c1 c2 : Byte) (i : Instr) :
    fillInstr b1 b2 (fillInstr c1 c2 i) = fillInstr b1 b2 i := by
  cases i <;> simp [fillInstr]

end Operands

section OpcodeBytes

/-! ## The two opcode tables (R70 to R74) -/

variable {i : Instr} {op : Byte} {nops : UnofficialNops}

/-- The opcode byte depends on the mnemonic and the mode alone (R71). -/
@[simp] theorem opcodeOf_fillInstr (b1 b2 : Byte) (i : Instr) (nops : UnofficialNops) :
    opcodeOf (fillInstr b1 b2 i) nops = opcodeOf i nops := by
  cases i <;> simp [fillInstr, opcodeOf, opcodeFor]

/-- A mode with an opcode in a row of R71 is a mode of that row. -/
theorem contains_of_opcodeFor {o : Operand} {row : List (Mode × Byte)} (h : opcodeFor o row = some op) :
    (row.map Prod.fst).contains o.mode = true := by
  obtain ⟨before, after, rfl, -⟩ := List.lookup_eq_some_iff.1 h
  simp

@[simp] theorem opcodeOf_nopStar_eq_some {q : Byte} {o : Operand} :
    opcodeOf (.nopStar q o) nops = some op ↔ isUnofficialNop q o.mode nops = true ∧ q = op := by
  simp [opcodeOf]

@[simp] theorem opcodeOf_unimp_eq_some {q : Byte} :
    opcodeOf (.unimp q) nops = some op ↔ isUnimplemented q nops = true ∧ q = op := by
  simp [opcodeOf]

/-- The encoder has an opcode byte for well-formed instructions only: the converse of `opcodeOf_isSome`. -/
theorem wellFormed_of_opcodeOf (h : opcodeOf i nops = some op) : i.wellFormed nops = true := by
  cases i with
  | nopStar q o => exact (opcodeOf_nopStar_eq_some.1 h).1
  | unimp q => exact (opcodeOf_unimp_eq_some.1 h).1
  | adc | sbc | and | ora | eor | asl | lsr | rol | ror | cmp | cpx | cpy | inc | dec => exact contains_of_opcodeFor h
  | lda | ldx | ldy | sta | stx | sty | bit => exact contains_of_opcodeFor h
  | _ => rfl

/-- R70 and R71 agree, cell by cell of the opcode map. -/
theorem opcodeOf_officialOpcode_of_no_nops :
    ∀ op : Byte, ∀ i ∈ officialOpcode op, opcodeOf i [] = some op := by decide

/-- No cell of the opcode map is an unofficial NOP or an unimplemented byte. -/
theorem officialOpcode_ne (h : officialOpcode op = some i) : (∀ q o, i ≠ .nopStar q o) ∧ ∀ q, i ≠ .unimp q := by
  have h0 := opcodeOf_officialOpcode_of_no_nops op i h
  refine ⟨fun q o hi => ?_, fun q hi => ?_⟩
  · simp [hi, isUnofficialNop] at h0
  · obtain ⟨hq, rfl⟩ := opcodeOf_unimp_eq_some.1 (hi ▸ h0)
    simp [isUnimplemented, h] at hq

/-- R70 and R71 agree whatever the unofficial NOPs, since the opcode map has none in it. -/
theorem opcodeOf_of_officialOpcode (h : officialOpcode op = some i) : opcodeOf i nops = some op := by
  have h0 := opcodeOf_officialOpcode_of_no_nops op i h
  have ⟨hnop, hun⟩ := officialOpcode_ne h
  cases i with
  | nopStar q o => exact absurd rfl (hnop q o)
  | unimp q => exact absurd rfl (hun q)
  | _ => exact h0

/-- The decoder has three cases: an official byte, one of the unofficial NOPs, or an unimplemented byte (R74). -/
theorem decodeOpcode_cases (op : Byte) (nops : UnofficialNops) :
    officialOpcode op = some (decodeOpcode op nops) ∨
    (∃ m, isUnofficialNop op m nops = true ∧ decodeOpcode op nops = .nopStar op (blankOperand m)) ∨
    (isUnimplemented op nops = true ∧ decodeOpcode op nops = .unimp op) := by
  cases hoff : officialOpcode op with
  | some i => exact .inl (by simp [decodeOpcode, hoff])
  | none =>
    cases hnop : nops.lookup op with
    | some m =>
      have h : isUnofficialNop op m nops = true := by simp [isUnofficialNop, hoff, hnop]
      exact .inr (.inl ⟨m, h, decodeOpcode_of_isUnofficialNop h⟩)
    | none =>
      have h : isUnimplemented op nops = true := by simp [isUnimplemented, hoff, hnop]
      exact .inr (.inr ⟨h, decodeOpcode_of_isUnimplemented h⟩)

/-- The encoder gives back the opcode byte an instruction was selected by. -/
theorem opcodeOf_decodeOpcode (op : Byte) (nops : UnofficialNops) :
    opcodeOf (decodeOpcode op nops) nops = some op := by
  obtain hoff | ⟨m, hm, hnop⟩ | ⟨hu, hun⟩ := decodeOpcode_cases op nops
  · exact opcodeOf_of_officialOpcode hoff
  · simp [hnop, opcodeOf, hm]
  · simp [hun, opcodeOf, hu]

/-- What bytes decode to has an opcode byte, and so it is well formed (R74). -/
theorem decode_wellFormed (op b1 b2 : Byte) (nops : UnofficialNops) : (decode op b1 b2 nops).wellFormed nops = true :=
  (fillInstr_wellFormed ..).trans (wellFormed_of_opcodeOf (opcodeOf_decodeOpcode op nops))

end OpcodeBytes

section Classes

/-! ## The bytes of R72 and R73 -/

open Claims

variable {i : Instr} {op : Byte}

/-- The 27 bytes of R72 are the unofficial NOPs of the default `UNOFFICIAL_NOPS`. -/
theorem mem_unofficialNops_iff (op : Byte) :
    op ∈ unofficialNops.map Prod.fst ↔ ∃ m, isUnofficialNop op m defaultUnofficialNops = true := by
  have hbytes : ∀ op : Byte, op ∈ unofficialNops.map Prod.fst ↔
      officialOpcode op = none ∧ (defaultUnofficialNops.lookup op).isSome = true := by decide
  simp [hbytes, isUnofficialNop, Option.isSome_iff_exists]

/-- The 78 bytes of R73 are the unimplemented bytes of the default `UNOFFICIAL_NOPS`. -/
theorem mem_unimplementedBytes_iff :
    ∀ op : Byte, op ∈ unimplementedBytes ↔ isUnimplemented op defaultUnofficialNops = true := by decide

/-- The three classes of R74 are told apart by the default decoder. -/
theorem decodeOpcode_classes (op : Byte) :
    (op ∈ unofficialNops.map Prod.fst ∧ ∃ o, decodeOpcode op = .nopStar op o) ∨
    (op ∈ unimplementedBytes ∧ decodeOpcode op = .unimp op) ∨
    (op ∉ unofficialNops.map Prod.fst ∧ op ∉ unimplementedBytes ∧
      (∀ q o, decodeOpcode op ≠ .nopStar q o) ∧ ∀ q, decodeOpcode op ≠ .unimp q) := by
  rw [mem_unofficialNops_iff, mem_unimplementedBytes_iff]
  obtain hoff | ⟨m, hm, hnop⟩ | ⟨hu, hun⟩ := decodeOpcode_cases op defaultUnofficialNops
  · exact .inr (.inr ⟨by simp [isUnofficialNop, hoff], by simp [isUnimplemented, hoff], officialOpcode_ne hoff⟩)
  · exact .inl ⟨⟨m, hm⟩, _, hnop⟩
  · exact .inr (.inl ⟨hu, hun⟩)

/-- No byte is both an unofficial NOP and unimplemented (R74). -/
theorem not_mem_unimplementedBytes (h : op ∈ unofficialNops.map Prod.fst) : op ∉ unimplementedBytes := by
  obtain ⟨m, hm⟩ := (mem_unofficialNops_iff op).1 h
  rw [mem_unimplementedBytes_iff]
  simp_all [isUnofficialNop, isUnimplemented]

end Classes

/-- Settles O41: the opcode byte selects the instruction, and its operand bytes fill its form whatever follows them. -/
theorem decodeOfEncode : Obligations.DecodeOfEncode := by
  unfold Obligations.DecodeOfEncode
  intro i rest nops hw
  obtain ⟨op, hop⟩ := Option.isSome_iff_exists.1 (opcodeOf_isSome i hw)
  have hlen : instrLength (decodeOpcode op nops) = (operandBytes i.form).length + 1 := by
    rw [decodeOpcode_of_opcodeOf hop, fillInstr_length, instrLength_eq]
  have hfill := fillInstr_eq_self (fillOperand_operandBytes_append i.form rest)
  simp only [encode, hop, List.cons_append]
  rw [decodeBytes, if_neg (by simp [hlen]), hlen, Nat.add_sub_cancel, List.drop_left, decode,
    decodeOpcode_of_opcodeOf hop, fillInstr_fillInstr, hfill]

/-- Settles O42: the encoder gives the opcode byte back, and the filled form the operand bytes. -/
theorem encodeOfDecode : Obligations.EncodeOfDecode := by
  unfold Obligations.EncodeOfDecode
  intro op b1 b2 nops
  have hop : opcodeOf (decode op b1 b2 nops) nops = some op :=
    (opcodeOf_fillInstr ..).trans (opcodeOf_decodeOpcode op nops)
  calc encode (decode op b1 b2 nops) nops
    _ = op :: operandBytes (fillOperand b1 b2 (decodeOpcode op nops).form) := by
      simp only [encode, hop]
      rw [decode, fillInstr_form]
    _ = [op, b1, b2].take (instrLength (decode op b1 b2 nops)) := by
      rw [cons_operandBytes_fillOperand, decode, fillInstr_length, instrLength]

/-- Settles O40: what bytes decode to has an opcode and so is well formed, and the two byte lists of R72 and R73 are the
bytes that the decoder takes for unofficial NOPs and for unimplemented. -/
theorem opcodeClassesPartition : Obligations.OpcodeClassesPartition := by
  unfold Obligations.OpcodeClassesPartition
  refine ⟨decode_wellFormed, decodeOpcode_classes, fun _ => not_mem_unimplementedBytes, ?_, ?_, ?_, ?_, ?_⟩
  · decide
  · rfl
  · decide
  · rfl
  · decide

end Sys2Proof

/-! # Proofs: the family of 40_engine.md -/

/-! ## The fetch (R78 to R80) -/

namespace Sys2Proof.Machine

section Fetch

variable {P : Params} {s : State} {d : Instr} {b1 b2 c1 c2 : Byte}

/-- What an instruction is filled with matters through its form alone (R66 to R69). -/
theorem fillInstr_congr (h : fillOperand b1 b2 d.form = fillOperand c1 c2 d.form) :
    fillInstr b1 b2 d = fillInstr c1 c2 d := by
  rw [← fillInstr_fillInstr b1 b2 c1 c2]
  exact fillInstr_eq_self (by rw [fillInstr_form, fillOperand_fillOperand, h])

/-- An instruction of one byte has no operand bytes to fill (R63). -/
theorem fillInstr_one (h : instrLength d = 1) (b1 b2 : Byte) : fillInstr b1 b2 d = d := by
  refine fillInstr_eq_self ?_
  unfold instrLength at h
  cases hd : d.form <;> simp_all [Operand.mode, modeLength, fillOperand]

/-- An instruction of two bytes has no second operand byte (R63). -/
theorem fillInstr_two (h : instrLength d = 2) (b1 b2 c2 : Byte) : fillInstr b1 b2 d = fillInstr b1 c2 d := by
  refine fillInstr_congr ?_
  unfold instrLength at h
  cases hd : d.form <;> simp_all [Operand.mode, modeLength, fillOperand]

theorem instrLength_cases (d : Instr) : instrLength d = 1 ∨ instrLength d = 2 ∨ instrLength d = 3 := by
  unfold instrLength
  cases d.form.mode <;> decide

/-- The operand fetch with every byte of the instruction mapped. Both operand bytes stand in the filled instruction
whatever its length, since it has no place for those it does not have; no byte past its length is read (R80). -/
theorem fetchOperands_mapped (d : Instr) (s : State) (h1 : 2 ≤ instrLength d → Mapped (s.pc + 1) P)
    (h2 : instrLength d = 3 → Mapped (s.pc + 2) P) :
    fetchOperands d s P =
      .next (fillInstr (byteAt s (s.pc + 1) P) (byteAt (afterRead s (s.pc + 1) P) (s.pc + 2) P) d,
        if instrLength d = 1 then s else if instrLength d = 2 then afterRead s (s.pc + 1) P
        else afterRead (afterRead s (s.pc + 1) P) (s.pc + 2) P) := by
  rcases instrLength_cases d with h | h | h
  · rw [fetchOperands_one s h, fillInstr_one h, if_pos h]
  · rw [fetchOperands_two s h (h1 h.ge), fillInstr_two h, if_neg (by omega), if_pos h]
  · rw [fetchOperands_three s h (h1 (by omega)) (h2 h), if_neg (by omega), if_neg (by omega)]

/-- The operand fetch faults at an unmapped first operand byte (R80, R171). -/
theorem fetchOperands_unmapped_first (hd : 2 ≤ instrLength d) (h : ¬ Mapped (s.pc + 1) P) :
    fetchOperands d s P = raise (.unmappedAccess (s.pc + 1) .read) s := by
  rw [fetchOperands, if_pos hd, memRead_unmapped s (not_not.1 h), andThen_raise]

/-- It faults at an unmapped second operand byte with the first one read (R80, R171). -/
theorem fetchOperands_unmapped_second (hd : instrLength d = 3) (h1 : Mapped (s.pc + 1) P)
    (h2 : ¬ Mapped (s.pc + 2) P) :
    fetchOperands d s P = raise (.unmappedAccess (s.pc + 2) .read) (afterRead s (s.pc + 1) P) := by
  rw [fetchOperands, if_pos (by omega), memRead_mapped s h1, andThen_next]
  simp only [hd, if_true, afterRead_pc, memRead_unmapped _ (not_not.1 h2), andThen_raise]

/-- A run call that fetches at a mapped PC is the operand fetch and then the instruction (R78 to R81). -/
theorem runInstruction_mapped (run : Instr → State → Result State) (h : Mapped s.pc P) :
    runInstruction run s P =
      andThen (fetchOperands (decodeOpcode (byteAt s s.pc P) P.unofficialNops) (afterRead s s.pc P) P)
        fun r => run r.1 r.2 := by
  rw [runInstruction, fetch, memRead_mapped s h, andThen_next]

/-- It faults at an unmapped PC (R78, R171). -/
theorem runInstruction_unmapped (run : Instr → State → Result State) (h : ¬ Mapped s.pc P) :
    runInstruction run s P = raise (.unmappedAccess s.pc .read) s := by
  rw [runInstruction, fetch, memRead_unmapped s (not_not.1 h), andThen_raise, andThen_raise]

/-- A run call that would fetch, with no interrupt to take, is the instruction at PC in every instance (R77, R182). -/
theorem stepWith_fetching (hf : s.fault = none) (hc : s.cyc = 0)
    (hi : P.hasInterruptLines = false ∨ pendingVector s = none) :
    stepWith P s = runInstruction (execWith · · P) s P := by
  rcases runCall_cases (execWith · · P) s P with ⟨h, -⟩ | ⟨-, h, -⟩ | ⟨-, -, hl, v, hv, -⟩ | ⟨-, -, -, h⟩
  · exact absurd hf h
  · exact absurd hc h
  · simp [hl, hv] at hi
  · exact h

end Fetch

/-! ## O43, O44: the instruction at PC and the faults of its fetch -/

/-- Settles O43: the fetch decodes the bytes at PC, whichever of them the instruction has, and `step` and `exec` are the
default instance. -/
theorem stepRunsDecodedInstruction : Obligations.StepRunsDecodedInstruction := by
  unfold Obligations.StepRunsDecodedInstruction
  rintro P s s1 s2 s3 op b1 b2 i hf hc hi hm rfl rfl rfl rfl rfl rfl hdecode h1 h2
  have hlen : instrLength i = instrLength (decodeOpcode (byteAt s s.pc P) P.unofficialNops) := by
    rw [hdecode, decode, fillInstr_length]
  have hstep := stepWith_fetching hf hc hi
  rw [runInstruction_mapped _ hm, fetchOperands_mapped] at hstep
  · simp only [andThen_next, afterRead_pc, ← hlen] at hstep
    rw [← decode, ← hdecode] at hstep
    refine ⟨hdecode ▸ decode_wellFormed .., hstep, ?_⟩
    rintro rfl
    rwa [stepWith_default, execWith_default] at hstep
  · simpa only [afterRead_pc, hlen] using h1
  · simpa only [afterRead_pc, hlen] using h2

/-- The meaning of an unimplemented byte is its fault (R168). -/
theorem exec_unimp {op : Byte} (h : isUnimplemented op defaultUnofficialNops = true) (s : State) :
    exec (.unimp op) s = raise (.unimplementedOpcode op) s := by
  unfold exec execUnimp ifWellFormed
  exact if_pos h

/-- Settles O44: the reads of the fetch in their order, the first unmapped one of which faults; an unimplemented byte has
no operand bytes to fetch. -/
theorem fetchFaults : Obligations.FetchFaults := by
  unfold Obligations.FetchFaults
  rintro s s1 op hf hc rfl rfl
  rw [step_fetching hf hc]
  refine ⟨runInstruction_unmapped exec, runInstruction_mapped exec, fun hm hop => ?_, ?_, ?_⟩
  · have hun := (mem_unimplementedBytes_iff _).1 hop
    rw [runInstruction_mapped exec hm, default_unofficialNops, decodeOpcode_of_isUnimplemented hun,
      fetchOperands_one _ rfl, andThen_next, exec_unimp hun]
    rfl
  · exact fun d => fetchOperands_unmapped_first
  · exact fun d => fetchOperands_unmapped_second

/-! ## O45: timing is the countdown alone (R77, R86) -/

/-! A run call with CYC above 0 only decrements it. -/

theorem step_countdown {s : State} (hf : s.fault = none) (hc : s.cyc ≠ 0) : step s = .next (s.setCyc (s.cyc - 1)) := by
  rcases step_cases s with ⟨h, -⟩ | ⟨-, -, h⟩ | ⟨-, h, -⟩
  · exact absurd hf h
  · exact h
  · exact absurd h hc

/-- As many run calls as CYC holds end the countdown (R86). -/
theorem run_countdown {n : Nat} {s : State} (hf : s.fault = none) (hn : s.cyc.toNat = n) :
    Host.Core.run core n s = .next (s.setCyc 0) := by
  induction n generalizing s with
  | zero =>
    have hc : s.cyc = 0 := BitVec.eq_of_toNat_eq hn
    rw [← hc]
    rfl
  | succ n ih =>
    have hc : s.cyc ≠ 0 := fun h => by simp [h] at hn
    have hn' : (s.setCyc (s.cyc - 1)).cyc.toNat = n := by
      rw [setCyc_cyc]
      bv_omega
    calc Host.Core.run core (n + 1) s
      _ = Host.Core.run core n (s.setCyc (s.cyc - 1)) := by
        simp only [Host.Core.run, core, step_countdown hf hc]
      _ = .next (s.setCyc 0) := ih hf hn'

/-! `CYCLES` is read at the end of an instruction alone. Up to there two instances that differ in it run the same
operations: the bus, the stack and the resolver read no parameter but `MEMORY_MAP`, so what they answer is equal by
definition. At the end they leave states that differ in CYC. -/

/-- The instance P with another `CYCLES` (V8). -/
def Params.withCycles (P : Params) (costs : Byte → Bool → Bool → Bool → Byte) : Params := { P with cycles := costs }

/-- The outcomes are the same but for the CYC of their states. -/
def SameButCyc (r r' : Result State) : Prop := Claims.onState (·.setCyc 0) r = Claims.onState (·.setCyc 0) r'

section Costs

variable {P : Params} {costs : Byte → Bool → Bool → Bool → Byte} {s : State}

theorem SameButCyc.andThen {α : Type} {r : Result α} {k k' : α → Result State} (hk : ∀ v, SameButCyc (k v) (k' v)) :
    SameButCyc (andThen r k) (andThen r k') := by
  cases r with
  | next v => exact hk v
  | fault f => rfl
  | refused q => rfl

theorem SameButCyc.ifWellFormed {r r' : Result State} {i : Instr} (h : SameButCyc r r') :
    SameButCyc (ifWellFormed i r (P.withCycles costs)) (ifWellFormed i r' P) := by
  change SameButCyc (Machine.ifWellFormed i r P) _
  unfold Machine.ifWellFormed
  split
  · exact h
  · rfl

/-! The shapes of instruction. -/

theorem readInstr_withCycles (i : Instr) (o : Operand) (update : Byte → State → State) :
    SameButCyc (readInstr i o update s (P.withCycles costs)) (readInstr i o update s P) :=
  .ifWellFormed (.andThen fun _ => .andThen fun _ => rfl)

theorem modifyInstr_withCycles (i : Instr) (o : Operand) (f : Byte → Byte → Byte × Byte) :
    SameButCyc (modifyInstr i o f s (P.withCycles costs)) (modifyInstr i o f s P) :=
  .ifWellFormed (.andThen fun _ => .andThen fun _ => .andThen fun _ => rfl)

theorem storeInstr_withCycles (i : Instr) (o : Operand) (v : Byte) :
    SameButCyc (storeInstr i o v s (P.withCycles costs)) (storeInstr i o v s P) :=
  .ifWellFormed (.andThen fun _ => .andThen fun _ => rfl)

theorem branchInstr_withCycles (i : Instr) (d : Byte) (cond : Bool) :
    SameButCyc (branchInstr i d cond s (P.withCycles costs)) (branchInstr i d cond s P) := by
  cases cond <;> rfl

/-- Another `CYCLES` changes nothing of what an instruction does but CYC. -/
theorem execWith_withCycles (i : Instr) (s : State) :
    SameButCyc (execWith i s (P.withCycles costs)) (execWith i s P) := by
  cases i with
  | adc o | sbc o | and o | ora o | eor o | cmp o | cpx o | cpy o | lda o | ldx o | ldy o =>
    exact readInstr_withCycles _ o _
  | bit o =>
    simp only [execWith, execBit]
    exact readInstr_withCycles _ o _
  | asl o | lsr o | rol o | ror o | inc o | dec o => exact modifyInstr_withCycles _ o _
  | sta o | stx o | sty o => exact storeInstr_withCycles _ o _
  | bcc d | bcs d | beq d | bne d | bmi d | bpl d | bvc d | bvs d => exact branchInstr_withCycles _ d _
  | jmpInd _ | jsr _ | rts | pha | php | pla | plp | brk | rti => exact .andThen fun _ => rfl
  | nopStar op o => exact .ifWellFormed rfl
  | _ => rfl

/-- The fetch and the interrupt entry do not read `CYCLES`, so a run call does so through its instruction alone. -/
theorem runCall_withCycles (run : Instr → State → Result State) :
    runCall run s (P.withCycles costs) = runCall run s P := rfl

theorem SameButCyc.runCall {run run' : Instr → State → Result State} (h : ∀ i u, SameButCyc (run i u) (run' i u)) :
    SameButCyc (runCall run s P) (runCall run' s P) := by
  unfold Machine.runCall
  split
  · rfl
  · split
    · rfl
    · split
      · rfl
      · exact .andThen fun r => h r.1 r.2

theorem stepWith_withCycles : SameButCyc (stepWith (P.withCycles costs) s) (stepWith P s) := by
  rw [stepWith, runCall_withCycles]
  exact .runCall execWith_withCycles

end Costs

/-- Settles O45: by induction on CYC, and since an instruction reads `CYCLES` only to write CYC at its end. -/
theorem countdownTakesCycCalls : Obligations.CountdownTakesCycCalls := by
  unfold Obligations.CountdownTakesCycCalls
  exact ⟨fun s hf => run_countdown hf rfl, fun P costs s => stepWith_withCycles⟩

end Sys2Proof.Machine

/-! # Proofs: the family of 41_addressing_alu.md -/

/-! ## O9, O10, O11: addition and subtraction (R105, R106) -/

namespace Sys2Proof.Machine

/-- The mask $80 of R105 and R106 keeps the sign bit alone. -/
theorem and_signMask_ne_zero (x : Byte) : ((x &&& 0x80) != 0) = x.getLsbD 7 := by
  rw [show (0x80 : Byte) = BitVec.twoPow 8 7 from rfl, BitVec.and_twoPow]
  cases x.getLsbD 7 <;> rfl

theorem getLsbD_seven_eq_decide (x : Byte) : x.getLsbD 7 = decide (128 ≤ x.toNat) := BitVec.msb_eq_decide x

theorem getLsbD_seven_not (x : Byte) : (~~~x).getLsbD 7 = !x.getLsbD 7 := by simp

/-- A byte read in two's complement. -/
theorem toInt_eq_ite_byte (x : Byte) : x.toInt = if 128 ≤ x.toNat then (x.toNat : Int) - 256 else x.toNat := by
  simp [BitVec.toInt_eq_msb_cond, BitVec.msb_eq_decide]

theorem toInt_not_byte (x : Byte) : (~~~x).toInt = -1 - x.toInt := by
  have hx := x.isLt
  simp only [toInt_eq_ite_byte, BitVec.toNat_not]
  split <;> split <;> omega

theorem natCast_bitOf (b : Bool) : (bitOf b : Int) = if b then 1 else 0 := by cases b <;> rfl

theorem bitOf_le_one (b : Bool) : bitOf b ≤ 1 := by cases b <;> decide

section Arithmetic

variable (p a m : Byte)

/-- `Alu(Add)`, its result (R105). -/
theorem alu_add_toNat : (alu .add p a m).1.toNat = (a.toNat + m.toNat + bitOf (testFlag p .C)) % 256 :=
  BitVec.toNat_ofNat ..

/-- `Alu(Add)` flag by flag (R105). -/
theorem testFlag_alu_add (f : Flag) :
    testFlag (alu .add p a m).2 f =
      if f = .C then decide (255 < a.toNat + m.toNat + bitOf (testFlag p .C))
      else if f = .V then ((a ^^^ (alu .add p a m).1) &&& (m ^^^ (alu .add p a m).1)).getLsbD 7
      else if f = .Z then (alu .add p a m).1 == 0 else if f = .N then (alu .add p a m).1.getLsbD 7
      else testFlag p f := by
  simp only [alu, aluAdd, testFlag_setZN, testFlag_writeFlag, and_signMask_ne_zero]
  cases f <;> rfl

/-- V after an addition, by signs (R105). -/
theorem alu_add_overflow_iff_signs :
    testFlag (alu .add p a m).2 .V = true ↔
      a.getLsbD 7 = m.getLsbD 7 ∧ (alu .add p a m).1.getLsbD 7 ≠ a.getLsbD 7 := by
  simp only [testFlag_alu_add, reduceCtorEq, if_false, if_true, BitVec.getLsbD_and, BitVec.getLsbD_xor]
  cases a.getLsbD 7 <;> cases m.getLsbD 7 <;> simp

/-- V after an addition is signed overflow. -/
theorem alu_add_overflow_iff_toInt :
    testFlag (alu .add p a m).2 .V = true ↔
      (a.toInt + m.toInt + bitOf (testFlag p .C) < -128 ∨ 127 < a.toInt + m.toInt + bitOf (testFlag p .C)) := by
  have hr := alu_add_toNat p a m
  have hc := bitOf_le_one (testFlag p .C)
  have ha := a.isLt
  have hm := m.isLt
  simp only [alu_add_overflow_iff_signs, getLsbD_seven_eq_decide, toInt_eq_ite_byte, ne_eq, decide_eq_decide]
  split <;> split <;> omega

/-- The difference of R106 is 256 less than the sum of R105 at the complement of m. -/
theorem difference_eq_sum_not (c : Nat) :
    (a.toNat : Int) - m.toNat - (1 - c) = (a.toNat + (~~~m).toNat + c : Nat) - 256 := by
  have hm := m.isLt
  rw [BitVec.toNat_not]
  omega

/-- `Alu(Subtract, a, m) = Alu(Add, a, ~m)`, the sentence that R106 marks as derived. The masked bytes of V agree since
`a ^ m` and `~m ^ r` differ only where `a ^ r` is 0. -/
theorem alu_subtract_eq_add_not : alu .subtract p a m = alu .add p a (~~~m) := by
  have hresult (n : Nat) : BitVec.ofInt 8 ((n : Int) - 256) = BitVec.ofNat 8 n := by
    apply BitVec.eq_of_toNat_eq
    simp only [BitVec.toNat_ofInt, BitVec.toNat_ofNat]
    omega
  have hcarry (n : Nat) : decide ((n : Int) - 256 ≥ 0) = decide (n > 255) := decide_eq_decide.mpr (by omega)
  have hsigns (r : Byte) : (a ^^^ m) &&& (a ^^^ r) = (a ^^^ r) &&& (~~~m ^^^ r) := by
    ext i
    simp only [BitVec.getElem_and, BitVec.getElem_xor, BitVec.getElem_not]
    cases a[i] <;> cases m[i] <;> cases r[i] <;> rfl
  simp only [alu, aluSubtract, aluAdd, difference_eq_sum_not, hresult, hcarry, hsigns]

end Arithmetic

/-- Settles O9, from the result and the flag-by-flag rule of addition. -/
theorem aluAddRule : Obligations.AluAddRule := by
  unfold Obligations.AluAddRule
  intro p a m sum hsum
  obtain rfl : sum = a.toNat + m.toNat + bitOf (testFlag p .C) := hsum
  refine ⟨alu_add_toNat p a m, ?carry, alu_add_overflow_iff_signs p a m, ?zero, ?negative,
    alu_arithmetic_keeps_flags (.inl rfl) p a m⟩
  case carry => simp [testFlag_alu_add]
  case zero => simp [testFlag_alu_add, ← alu_add_toNat, ← BitVec.toNat_inj]
  case negative => simp [testFlag_alu_add]

/-- Settles O10: it is O9 at the complement of m, whose sum is the difference plus 256 and whose sign is the other one. -/
theorem aluSubtractRule : Obligations.AluSubtractRule := by
  unfold Obligations.AluSubtractRule
  intro p a m diff hdiff
  obtain ⟨sum, hsum⟩ : ∃ sum, sum = a.toNat + (~~~m).toNat + bitOf (testFlag p .C) := ⟨_, rfl⟩
  have hdiffSum : diff = sum - 256 := by
    rw [hdiff, hsum, ← difference_eq_sum_not, natCast_bitOf]
  obtain ⟨hresult, hcarry, hoverflow, hzero, hnegative, hkept⟩ := aluAddRule p a (~~~m) sum hsum
  rw [getLsbD_seven_not, Bool.eq_not] at hoverflow
  rw [alu_subtract_eq_add_not]
  refine ⟨?result, hcarry.trans ?carry, hoverflow, hzero.trans ?zero, hnegative, hkept⟩
  case result => rw [hresult]; omega
  case carry => omega
  case zero => omega

/-- Settles O11. The signed rule of subtraction is that of addition at the complement of m, whose signed value is
`-1 - m`. -/
theorem aluIdentities : Obligations.AluIdentities := by
  unfold Obligations.AluIdentities
  intro p a m
  refine ⟨alu_subtract_eq_add_not p a m, ?sum, ?difference⟩
  case sum => rw [alu_add_overflow_iff_toInt, natCast_bitOf]
  case difference =>
    have hsum : a.toInt + (~~~m).toInt + bitOf (testFlag p .C) =
        a.toInt - m.toInt - if testFlag p .C then 0 else 1 := by
      rw [toInt_not_byte, natCast_bitOf]
      split <;> omega
    rw [alu_subtract_eq_add_not, alu_add_overflow_iff_toInt, hsum]

end Sys2Proof.Machine

/-! # Proofs: the family of 42_arith_logic.md -/

namespace Sys2Proof.Machine

open Claims

/-! ## The shared shapes of the statements -/

/-- The opcode rows of a mnemonic, as one equation of lists that the decoder computes (R70). -/
theorem encodes_iff {mk : Operand → Instr} {rows : List (Byte × (Byte → Byte → Operand))} :
    Encodes mk rows ↔
      ∀ b1 b2, (rows.map fun row => decode row.1 b1 b2) = rows.map fun row => mk (row.2 b1 b2) := by
  simp only [List.map_inj_left]
  exact ⟨fun h b1 b2 row hrow => h row hrow b1 b2, fun h row hrow b1 b2 => h b1 b2 row hrow⟩

/-- An operand that cannot be read is an address form at an unmapped address (R44). -/
theorem not_readable_iff {o : Operand} {s : State} :
    ¬ Readable o s ↔ isAddressForm o = true ∧ classify (effectiveAddress o s) = .unmapped := by
  simp [Readable]

/-- A reading instruction faults at an unmapped operand, with the pointer reads done (R102, R171, R177). -/
theorem readInstr_unmapped {i : Instr} {o : Operand} {update : Byte → State → State} {s : State}
    (hw : i.wellFormed = true) (hr : ¬ Readable o s) :
    readInstr i o update s = raise (.unmappedAccess (effectiveAddress o s) .read) (afterPointer o s) := by
  obtain ⟨ha, hu⟩ := not_readable_iff.1 hr
  simp [readInstr, ifWellFormed, hw, resolve_address ha, readOperand, memRead_unmapped _ hu]

/-- The statement of a reading instruction, from its meaning as a `readInstr` whose update, which may depend on the state
at the start, is the stated one in the state after the operand is read (R102). -/
theorem reads_of_readInstr {mk : Operand → Instr} {forms : List Mode} {meaning : State → Byte → State → State}
    {update : Byte → State → State} (hforms : ∀ m ∈ forms, m ≠ .imp ∧ m ≠ .ind ∧ m ≠ .rel)
    (hwf : ∀ o, (mk o).wellFormed = forms.contains o.mode)
    (hexec : ∀ o s, exec (mk o) s = readInstr (mk o) o (meaning s) s)
    (hupdate : ∀ o s m, meaning s m (afterOperand o s) = update m (afterOperand o s)) : Reads mk update := by
  intro o s hw
  have hvalue := form_has_value hforms (hwf o ▸ hw)
  rw [hexec]
  refine ⟨fun hr => ?readable, fun hr => ?unmapped⟩
  case readable => rw [readInstr_next hw hvalue hr, hupdate, advance_eq_fallsThrough]
  case unmapped => exact readInstr_unmapped hw hr

/-! ## O13, O14, O15: the instructions that write A through the ALU (R109 to R113) -/

/-- `SetZN` in the form of the statements (R103). -/
theorem setZN_eq_flagsSet (p r : Byte) : setZN p r = flagsSet p (zn r) := rfl

/-- `Alu(Add)` as its result and the list of flags it writes (R105). -/
theorem alu_add_eq (p a m r : Byte) {sum : Nat} (hsum : sum = a.toNat + m.toNat + bitOf (testFlag p .C))
    (hr : r = BitVec.ofNat 8 sum) :
    alu .add p a m =
      (r, flagsSet p ([(.C, decide (255 < sum)), (.V, ((a ^^^ r) &&& (m ^^^ r)).getLsbD 7)] ++ zn r)) := by
  subst hr hsum
  simp only [alu, aluAdd, and_signMask_ne_zero, setZN_eq_flagsSet]
  rfl

/-- The borrow of R106, `1 - C`. -/
theorem one_sub_bitOf (c : Bool) : (1 - bitOf c : Int) = if c then 0 else 1 := by cases c <;> rfl

/-- `Alu(Subtract)` as its result and the list of flags it writes (R106). -/
theorem alu_subtract_eq (p a m r : Byte) {diff : Int}
    (hdiff : diff = (a.toNat : Int) - m.toNat - if testFlag p .C then 0 else 1) (hr : r = BitVec.ofInt 8 diff) :
    alu .subtract p a m =
      (r, flagsSet p ([(.C, decide (0 ≤ diff)), (.V, ((a ^^^ m) &&& (a ^^^ r)).getLsbD 7)] ++ zn r)) := by
  subst hr hdiff
  simp only [alu, aluSubtract, and_signMask_ne_zero, one_sub_bitOf, setZN_eq_flagsSet]
  rfl

/-! The logical kinds write Z and N alone (R107). -/

theorem alu_and_eq (p a m : Byte) : alu .and p a m = (a &&& m, flagsSet p (zn (a &&& m))) := by
  rw [alu, setZN_eq_flagsSet]

theorem alu_or_eq (p a m : Byte) : alu .or p a m = (a ||| m, flagsSet p (zn (a ||| m))) := by
  rw [alu, setZN_eq_flagsSet]

theorem alu_eor_eq (p a m : Byte) : alu .eor p a m = (a ^^^ m, flagsSet p (zn (a ^^^ m))) := by
  rw [alu, setZN_eq_flagsSet]

/-- An instruction that writes A through the ALU, with the result and the flags of its kind named (R104). -/
theorem reads_of_accumulate {mk : Operand → Instr} {kind : AluKind} {result : Byte → State → Byte}
    {flags : Byte → State → List (Flag × Bool)} (hwf : ∀ o, (mk o).wellFormed = aluForms.contains o.mode)
    (hexec : ∀ o s, exec (mk o) s = readInstr (mk o) o (accumulate kind) s)
    (halu : ∀ m s, alu kind s.p s.a m = (result m s, flagsSet s.p (flags m s))) :
    Reads mk fun m s => { s with a := result m s, p := flagsSet s.p (flags m s) } :=
  reads_of_readInstr (forms := aluForms) (by decide) hwf hexec fun o s m => by
    simp only [accumulate, halu]
    rfl

/-- Settles O13: the opcode map gives the rows, and `Alu(Add)` the result and the flags. -/
theorem adcRule : Obligations.AdcRule := by
  unfold Obligations.AdcRule
  exact ⟨encodes_iff.2 fun _ _ => rfl,
    reads_of_accumulate (fun _ => rfl) (fun _ _ => rfl) fun m s => alu_add_eq s.p s.a m _ rfl rfl⟩

/-- Settles O14: the opcode map gives the rows, and `Alu(Subtract)` the result and the flags. -/
theorem sbcRule : Obligations.SbcRule := by
  unfold Obligations.SbcRule
  exact ⟨encodes_iff.2 fun _ _ => rfl,
    reads_of_accumulate (fun _ => rfl) (fun _ _ => rfl) fun m s => alu_subtract_eq s.p s.a m _ rfl rfl⟩

/-- Settles O15: the opcode map gives the rows, and the logical kinds of the ALU the results and the flags. -/
theorem logicRules : Obligations.LogicRules := by
  unfold Obligations.LogicRules
  exact ⟨encodes_iff.2 fun _ _ => rfl, encodes_iff.2 fun _ _ => rfl, encodes_iff.2 fun _ _ => rfl,
    reads_of_accumulate (fun _ => rfl) (fun _ _ => rfl) fun m s => alu_and_eq s.p s.a m,
    reads_of_accumulate (fun _ => rfl) (fun _ _ => rfl) fun m s => alu_or_eq s.p s.a m,
    reads_of_accumulate (fun _ => rfl) (fun _ _ => rfl) fun m s => alu_eor_eq s.p s.a m⟩

end Sys2Proof.Machine

/-! # Proofs: the family of 43_shift_rotate.md -/

namespace Sys2Proof.Machine

open Claims

/-! ## Read-modify-write instructions (R102) -/

section Modify

variable {o : Operand} {s : State}

theorem operandValue_address (ha : isAddressForm o = true) :
    operandValue o s = byteAt (afterPointer o s) (effectiveAddress o s) := by
  cases o with
  | imp | acc | imm _ | ind _ | rel _ => contradiction
  | _ => rfl

theorem afterOperand_address (ha : isAddressForm o = true) :
    afterOperand o s = afterRead (afterPointer o s) (effectiveAddress o s) := if_pos ha

/-- A read-modify-write instruction in ROM does its read, writes the flags, and faults at the store (R102, R172,
R177). -/
theorem modifyInstr_rom {i : Instr} {f : Byte → Byte → Byte × Byte} (hw : i.wellFormed = true)
    (ha : isAddressForm o = true) (hr : InRom (effectiveAddress o s)) :
    modifyInstr i o f s =
      raise (.romWrite (effectiveAddress o s) (f s.p (operandValue o s)).1)
        ((afterOperand o s).setP (f s.p (operandValue o s)).2) := by
  obtain ⟨-, -, -, hp, -⟩ := afterPointer_regs o s
  simp [modifyInstr, ifWellFormed, hw, resolve_address ha, readOperand, memRead_mapped _ hr.mapped, storeBack,
    memWrite_rom _ _ hr, operandValue_address ha, afterOperand_address ha, hp]

/-- A read-modify-write instruction at an unmapped address faults at the read, with the pointer reads done (R102, R171,
R177). -/
theorem modifyInstr_unmapped {i : Instr} {f : Byte → Byte → Byte × Byte} (hw : i.wellFormed = true)
    (ha : isAddressForm o = true) (hu : classify (effectiveAddress o s) = .unmapped) :
    modifyInstr i o f s = raise (.unmappedAccess (effectiveAddress o s) .read) (afterPointer o s) := by
  simp [modifyInstr, ifWellFormed, hw, resolve_address ha, readOperand, memRead_unmapped _ hu]

end Modify

/-- Without a page-cross penalty a crossing costs nothing (R85, R101). -/
theorem advance_without_penalty {i : Instr} (hw : i.wellFormed = true) (hp : pageCrossPenalty i = false)
    (crossed : Bool) (s : State) : s.advance i crossed = fallsThrough i false s := by
  have hcost : cycles i crossed = cycles i false := by
    simp [cycles, defaultCycles_opcodeByte hw, hp]
  rw [← advance_eq_fallsThrough, State.advance, State.advance, hcost]

/-- The memory forms of a read-modify-write instruction, from its meaning as a `modifyInstr` whose function gives the
stated byte and flags (R102). -/
theorem modifiesMemory_of_modifyInstr {mk : Operand → Instr} {f : Byte → Byte → Byte × Byte}
    {value : Byte → Byte → Byte} {flags : Byte → Byte → List (Flag × Bool)}
    (hexec : ∀ o s, exec (mk o) s = modifyInstr (mk o) o f s) (hpenalty : ∀ o, pageCrossPenalty (mk o) = false)
    (hf : ∀ p v, f p v = (value p v, flagsSet p (flags p v))) : ModifiesMemory mk value flags := by
  intro o s hw ha
  rw [hexec]
  refine ⟨fun hs => ?writable, fun hr => ?rom, fun hu => ?unmapped⟩
  case writable =>
    rw [modifyInstr_next_address hw ha hs, hf, advance_without_penalty hw (hpenalty o)]
    rfl
  case rom =>
    rw [modifyInstr_rom hw ha hr, hf]
    rfl
  case unmapped => exact modifyInstr_unmapped hw ha hu

/-- Both kinds of form of a shift or rotate, from its meaning as a `modifyInstr` (R89, R102). -/
theorem modifies_of_modifyInstr {mk : Operand → Instr} {f : Byte → Byte → Byte × Byte}
    {value : Byte → Byte → Byte} {flags : Byte → Byte → List (Flag × Bool)}
    (hexec : ∀ o s, exec (mk o) s = modifyInstr (mk o) o f s) (hpenalty : ∀ o, pageCrossPenalty (mk o) = false)
    (hacc : (mk .acc).wellFormed = true) (hf : ∀ p v, f p v = (value p v, flagsSet p (flags p v))) :
    Modifies mk value flags := by
  refine ⟨fun s => ?_, modifiesMemory_of_modifyInstr hexec hpenalty hf⟩
  rw [hexec, modifyInstr_next_acc hacc, hf]
  rfl

/-! ## O16, O17: the shifts and rotates (R114 to R117) -/

/-- ASL as its result and the list of flags it writes (R114). -/
theorem shiftLeft_eq (p v : Byte) :
    shiftLeft p v = (BitVec.ofNat 8 (2 * v.toNat), flagsSet p ((.C, v.getLsbD 7) :: zn (v <<< 1))) := by
  have hdouble : BitVec.ofNat 8 (2 * v.toNat) = v <<< 1 := by
    apply BitVec.eq_of_toNat_eq
    simp [Nat.shiftLeft_eq, Nat.mul_comm]
  rw [hdouble]
  rfl

/-- LSR as its result and the list of flags it writes: bit 7 of the result is 0 (R115). -/
theorem shiftRight_eq (p v : Byte) :
    shiftRight p v =
      (BitVec.ofNat 8 (v.toNat / 2), flagsSet p [(.C, v.getLsbD 0), (.Z, decide (v >>> 1 = 0)), (.N, false)]) := by
  have hhalf : BitVec.ofNat 8 (v.toNat / 2) = v >>> 1 := by
    apply BitVec.eq_of_toNat_eq
    rw [BitVec.toNat_ofNat, BitVec.toNat_ushiftRight, Nat.shiftRight_eq_div_pow]
    omega
  have hsign : (v >>> 1).getLsbD 7 = false := by simp
  rw [hhalf, ← hsign]
  rfl

/-! The carry as the bit that enters the rotated byte (R116, R117). -/

theorem ofNat_bitOf (c : Bool) : BitVec.ofNat 8 (bitOf c) = if c then 0x01 else 0x00 := by cases c <;> rfl

theorem ofNat_bitOf_shiftLeft_seven (c : Bool) : BitVec.ofNat 8 (bitOf c) <<< 7 = if c then 0x80 else 0x00 := by
  cases c <;> rfl

/-- ROL as its result and the list of flags it writes (R116). -/
theorem rotateLeft_eq (p v : Byte) :
    rotateLeft p v =
      ((v <<< 1) ||| (if testFlag p .C then 0x01 else 0x00),
        flagsSet p ((.C, v.getLsbD 7) :: zn ((v <<< 1) ||| (if testFlag p .C then 0x01 else 0x00)))) := by
  rw [← ofNat_bitOf]
  rfl

/-- ROR as its result and the list of flags it writes: bit 7 of the result is the old carry (R117). -/
theorem rotateRight_eq (p v : Byte) :
    rotateRight p v =
      ((v >>> 1) ||| (if testFlag p .C then 0x80 else 0x00),
        flagsSet p [(.C, v.getLsbD 0), (.Z, decide ((v >>> 1) ||| (if testFlag p .C then 0x80 else 0x00) = 0x00)),
          (.N, testFlag p .C)]) := by
  have hsign : ((v >>> 1) ||| (if testFlag p .C then 0x80 else 0x00)).getLsbD 7 = testFlag p .C := by
    cases testFlag p .C <;> simp
  simp only [rotateRight, ofNat_bitOf_shiftLeft_seven, setZN_eq_flagsSet, zn, hsign]
  rfl

/-- Settles O16: the opcode map gives the rows, and the two shifts the byte and the flags. -/
theorem shiftRules : Obligations.ShiftRules := by
  unfold Obligations.ShiftRules
  exact ⟨encodes_iff.2 fun _ _ => rfl, encodes_iff.2 fun _ _ => rfl,
    modifies_of_modifyInstr (fun _ _ => rfl) (fun _ => rfl) rfl shiftLeft_eq,
    modifies_of_modifyInstr (fun _ _ => rfl) (fun _ => rfl) rfl shiftRight_eq⟩

/-- Settles O17: the opcode map gives the rows, and the two rotates the byte and the flags. -/
theorem rotateRules : Obligations.RotateRules := by
  unfold Obligations.RotateRules
  exact ⟨encodes_iff.2 fun _ _ => rfl, encodes_iff.2 fun _ _ => rfl,
    modifies_of_modifyInstr (fun _ _ => rfl) (fun _ => rfl) rfl rotateLeft_eq,
    modifies_of_modifyInstr (fun _ _ => rfl) (fun _ => rfl) rfl rotateRight_eq⟩

/-! ## O12: nine rotations through the carry (R116) -/

/-- A and C as the nine bits that ROL rotates, C on top (R116). -/
def withCarry (ac : Byte × Bool) : BitVec 9 := BitVec.cons ac.2 ac.1

theorem withCarry_injective {ac bd : Byte × Bool} (h : withCarry ac = withCarry bd) : ac = bd := by
  have hc := congrArg BitVec.msb h
  have ha := congrArg (BitVec.setWidth 8) h
  simp only [withCarry, BitVec.msb_cons, BitVec.setWidth_cons] at hc ha
  exact Prod.ext ha hc

/-- One rotation of A through C is one place of the nine bits (R116). -/
theorem withCarry_rolTimes_one (ac : Byte × Bool) : withCarry (rolTimes 1 ac) = (withCarry ac).rotateLeft 1 := by
  obtain ⟨a, c⟩ := ac
  apply BitVec.eq_of_getLsbD_eq
  intro i hi
  simp only [withCarry, rolTimes, BitVec.getLsbD_rotateLeft, BitVec.getLsbD_cons]
  obtain rfl | rfl | ⟨hbottom, htop⟩ : i = 0 ∨ i = 8 ∨ (i ≠ 0 ∧ i < 8) := by omega
  · cases c <;> simp
  · simp
  · have hbelow : i - 1 < 8 := by omega
    cases c <;> simp [hbottom, htop, htop.ne, hi, hi.ne, BitVec.getLsbD_eq_getElem hbelow]

theorem bitVec_rotateLeft_zero {w : Nat} (x : BitVec w) : x.rotateLeft 0 = x := by
  simp [BitVec.rotateLeft_def, BitVec.ushiftRight_eq_zero (Nat.le_refl w)]

theorem bitVec_rotateLeft_add {w : Nat} (x : BitVec w) (m n : Nat) :
    x.rotateLeft (m + n) = (x.rotateLeft m).rotateLeft n := by
  apply BitVec.eq_of_getMsbD_eq
  intro i hi
  have hmod : (n + i) % w < w := Nat.mod_lt _ (by omega)
  simp [BitVec.getMsbD_rotateLeft, hi, hmod, Nat.add_assoc]

/-- n rotations of A through C are n places of the nine bits (R116). -/
theorem withCarry_rolTimes (n : Nat) (ac : Byte × Bool) : withCarry (rolTimes n ac) = (withCarry ac).rotateLeft n := by
  induction n generalizing ac with
  | zero => exact (bitVec_rotateLeft_zero _).symm
  | succ n ih =>
    calc withCarry (rolTimes (n + 1) ac)
      _ = withCarry (rolTimes n (rolTimes 1 ac)) := rfl
      _ = ((withCarry ac).rotateLeft 1).rotateLeft n := by rw [ih, withCarry_rolTimes_one]
      _ = (withCarry ac).rotateLeft (n + 1) := by rw [← bitVec_rotateLeft_add, Nat.add_comm]

/-- Settles O12: nine places are a full turn of the nine bits, and ROL A is one place of it. -/
theorem nineRotationsRestore : Obligations.NineRotationsRestore := by
  unfold Obligations.NineRotationsRestore
  obtain ⟨-, -, ⟨hrol, -⟩, -⟩ := rotateRules
  refine ⟨fun a c => withCarry_injective ?turn, fun s => ⟨_, hrol s, ?single⟩⟩
  case turn =>
    rw [withCarry_rolTimes, ← BitVec.rotateLeft_mod_eq_rotateLeft]
    exact bitVec_rotateLeft_zero _
  case single => simp [fallsThrough, flagsSet, zn, testFlag_writeFlag, rolTimes]

end Sys2Proof.Machine

/-! # Proofs: the family of 44_compare_incdec.md -/

namespace Sys2Proof.Machine

open Claims

/-! ## O18: the compares (R118 to R120) -/

/-- `Compare(r, m)` as the list of flags it writes (R118). -/
theorem compareFlags_eq (p r m : Byte) :
    compareFlags p r m =
      flagsSet p [(.C, decide (m.toNat ≤ r.toNat)), (.Z, decide (r = m)), (.N, (r - m).getLsbD 7)] := rfl

/-! Reading an operand leaves the three registers that a compare can take alone. -/

theorem afterOperand_a (o : Operand) (s : State) : (afterOperand o s).a = s.a := (afterOperand_regs o s).1

theorem afterOperand_x (o : Operand) (s : State) : (afterOperand o s).x = s.x := (afterOperand_regs o s).2.1

theorem afterOperand_y (o : Operand) (s : State) : (afterOperand o s).y = s.y := (afterOperand_regs o s).2.2.1

/-- A compare, with the register it takes named: reading the operand leaves that register alone (R118). -/
theorem reads_of_compareWith {mk : Operand → Instr} {forms : List Mode} {reg : State → Byte}
    (hforms : ∀ m ∈ forms, m ≠ .imp ∧ m ≠ .ind ∧ m ≠ .rel) (hwf : ∀ o, (mk o).wellFormed = forms.contains o.mode)
    (hexec : ∀ o s, exec (mk o) s = readInstr (mk o) o (compareWith (reg s)) s)
    (hreg : ∀ o s, reg (afterOperand o s) = reg s) :
    Reads mk fun m s => { s with
      p := flagsSet s.p [(.C, decide (m.toNat ≤ (reg s).toNat)), (.Z, decide (reg s = m)),
        (.N, (reg s - m).getLsbD 7)] } :=
  reads_of_readInstr hforms hwf hexec fun o s m => by
    rw [compareWith, compareFlags_eq, ← hreg o s]
    rfl

/-- Settles O18: the opcode map gives the rows, and `Compare` the flags of each register. -/
theorem compareRules : Obligations.CompareRules := by
  unfold Obligations.CompareRules
  exact ⟨encodes_iff.2 fun _ _ => rfl, encodes_iff.2 fun _ _ => rfl, encodes_iff.2 fun _ _ => rfl,
    reads_of_compareWith (forms := aluForms) (by decide) (fun _ => rfl) (fun _ _ => rfl) afterOperand_a,
    reads_of_compareWith (forms := compareIndexForms) (by decide) (fun _ => rfl) (fun _ _ => rfl) afterOperand_x,
    reads_of_compareWith (forms := compareIndexForms) (by decide) (fun _ => rfl) (fun _ _ => rfl) afterOperand_y⟩

/-! ## O19, O20: the increments and decrements (R121 to R126) -/

/-- INC as its result and the list of flags it writes (R121). -/
theorem incrementByte_eq (p v : Byte) : incrementByte p v = (v + 1, flagsSet p (zn (v + 1))) := by
  rw [incrementByte, setZN_eq_flagsSet]

/-- DEC as its result and the list of flags it writes (R122). -/
theorem decrementByte_eq (p v : Byte) : decrementByte p v = (v - 1, flagsSet p (zn (v - 1))) := by
  rw [decrementByte, setZN_eq_flagsSet]

/-- Settles O19: the opcode map gives the rows, and `incrementByte` and `decrementByte` the byte and the flags. -/
theorem incDecMemoryRules : Obligations.IncDecMemoryRules := by
  unfold Obligations.IncDecMemoryRules
  exact ⟨encodes_iff.2 fun _ _ => rfl, encodes_iff.2 fun _ _ => rfl,
    modifiesMemory_of_modifyInstr (fun _ _ => rfl) (fun _ => rfl) incrementByte_eq,
    modifiesMemory_of_modifyInstr (fun _ _ => rfl) (fun _ => rfl) decrementByte_eq⟩

/-- A one-byte instruction that replaces a register by a function of it and writes P, with the new byte and the flags of
the function named (R123 to R126). -/
theorem implied_of_modifyRegister {op : Byte} {i : Instr} {f : Byte → Byte → Byte × Byte} {value : Byte → Byte}
    {flags : Byte → List (Flag × Bool)} (reg : State → Byte) (setReg : State → Byte → State)
    (hdecode : ∀ b1 b2, decode op b1 b2 = i)
    (hexec : ∀ s, exec i s = .next (((setReg s (f s.p (reg s)).1).setP (f s.p (reg s)).2).advance i false))
    (hf : ∀ p v, f p v = (value v, flagsSet p (flags v))) :
    Implied op i fun s => (setReg s (value (reg s))).setP (flagsSet s.p (flags (reg s))) := by
  refine ⟨hdecode, fun s => ?_⟩
  rw [hexec, hf, advance_eq_fallsThrough]

/-- Settles O20: INX and INY apply INC's function to X and Y, DEX and DEY apply DEC's. -/
theorem incDecIndexRules : Obligations.IncDecIndexRules := by
  unfold Obligations.IncDecIndexRules
  exact ⟨implied_of_modifyRegister State.x State.setX (fun _ _ => rfl) (fun _ => rfl) incrementByte_eq,
    implied_of_modifyRegister State.y State.setY (fun _ _ => rfl) (fun _ => rfl) incrementByte_eq,
    implied_of_modifyRegister State.x State.setX (fun _ _ => rfl) (fun _ => rfl) decrementByte_eq,
    implied_of_modifyRegister State.y State.setY (fun _ _ => rfl) (fun _ => rfl) decrementByte_eq⟩

end Sys2Proof.Machine

/-! # Proofs: the family of 45_branch.md -/

namespace Sys2Proof.Machine

open Claims

/-! ## O21: the branches (R127 to R135) -/

/-- The target as the signed sum modulo 65536 that the statement writes (R100, R127). -/
theorem branchTarget_eq_ofInt (pc : Word) (d : Byte) :
    branchTarget pc d = BitVec.ofInt 16 ((pc.toNat : Int) + 2 + d.toInt) := by
  have hpc : BitVec.ofInt 16 (pc.toNat : Int) = pc := by simp
  rw [BitVec.ofInt_add, BitVec.ofInt_add, hpc]
  rfl

/-- The cost of a taken branch, by the pages of `PC + 2` and the target (R100, R197). -/
theorem branchCycles_taken {i : Instr} (hb : isBranch i = true) (pc : Word) (d : Byte) :
    branchCycles i true (branchCrosses pc d) =
      if hiByte (pc + 2) = hiByte (branchTarget pc d) then 3 else 4 := by
  rw [branchCycles_default hb]
  simp only [branchCrosses, pagesDiffer, bitOf, if_true, Bool.true_and, bne_iff_ne, ne_eq, ite_not]
  split <;> rfl

/-- What a branch does when its condition holds and when it does not (R127). -/
theorem branchInstr_next {i : Instr} (hb : isBranch i = true) (d : Byte) (cond : Bool) (s : State) :
    branchInstr i d cond s =
      .next (if cond then
          goesTo (branchTarget s.pc d) (if hiByte (s.pc + 2) = hiByte (branchTarget s.pc d) then 3 else 4) s
        else goesTo (s.pc + 2) 2 s) := by
  cases cond with
  | true => simp only [branchInstr, branchCycles_taken hb, if_true]; rfl
  | false => simp only [branchInstr, branchCycles_default hb]; rfl

/-- A branch, from its opcode byte and its meaning as a `branchInstr` on the stated condition (R127). -/
theorem branches_of_branchInstr {op : Byte} {mk : Byte → Instr} {cond : State → Bool}
    (hdecode : ∀ b1 b2, decode op b1 b2 = mk b1) (hbranch : ∀ d, isBranch (mk d) = true)
    (hexec : ∀ d s, exec (mk d) s = branchInstr (mk d) d (cond s) s) : Branches op mk cond := by
  refine ⟨hdecode, fun d s target htarget => ?_⟩
  rw [htarget, ← branchTarget_eq_ofInt, hexec, branchInstr_next (hbranch d)]

/-- Settles O21: the opcode map gives each byte its branch, and each branch is `branchInstr` on its own flag. -/
theorem branchRules : Obligations.BranchRules := by
  unfold Obligations.BranchRules
  refine ⟨?_, ?_, ?_, ?_, ?_, ?_, ?_, ?_⟩ <;>
    exact branches_of_branchInstr (fun _ _ => rfl) (fun _ => rfl) (fun _ _ => rfl)

end Sys2Proof.Machine

/-! # Proofs: the family of 46_jump_subroutine.md -/

namespace Sys2Proof.Machine

open Claims

/-! ## The end of a jump (R81, R85) -/

/-- A jump, call or return ends with PC at its target and CYC at its base cost (R81, R85, R197). -/
theorem jump_eq_goesTo {i : Instr} (hw : i.wellFormed = true) (hb : isBranch i = false) (s : State) (target : Word) :
    s.jump i target = goesTo target (baseCycles i) s := by
  have hcost : cycles i false = baseCycles i := by rw [cycles_default hw hb, Bool.and_false]; rfl
  rw [State.jump, hcost]
  rfl

/-! ## O22: JMP (R136, R137) -/

/-- The pointer's high byte is read in the pointer's own page (R99). -/
theorem indirectHighAddress_w16 (lo hi : Byte) : indirectHighAddress (w16 lo hi) = w16 (lo + 1) hi := by
  rw [indirectHighAddress, loByte_w16, hiByte_w16]

/-- An unmapped pointer faults at the first read (R99, R171). -/
theorem indirectTarget_unmapped_low {ptr : Word} {P : Params} (s : State) (h : ¬ Mapped ptr P) :
    indirectTarget ptr s P = raise (.unmappedAccess ptr .read) s := by
  rw [indirectTarget, memRead_unmapped s (not_not.1 h), andThen_raise]

/-- An unmapped second byte faults with the first read done (R99, R171, R177). -/
theorem indirectTarget_unmapped_high {ptr : Word} {P : Params} (s : State) (h : Mapped ptr P)
    (h' : ¬ Mapped (indirectHighAddress ptr) P) :
    indirectTarget ptr s P = raise (.unmappedAccess (indirectHighAddress ptr) .read) (afterRead s ptr P) := by
  rw [indirectTarget, memRead_mapped s h, andThen_next]
  simp only [memRead_unmapped _ (not_not.1 h'), andThen_raise]

theorem exec_jmpAbs (target : Word) (s : State) : exec (.jmpAbs target) s = .next (goesTo target 3 s) :=
  congrArg _ (jump_eq_goesTo rfl rfl s target)

/-- JMP indirect goes to the word its pointer reads give; a fault of theirs is its only fault (R137). -/
theorem exec_jmpInd (ptr : Word) (s : State) :
    exec (.jmpInd ptr) s = andThen (indirectTarget ptr s) fun (target, s) => .next (goesTo target 5 s) := by
  simp only [exec, execJmpInd, jump_eq_goesTo (i := .jmpInd ptr) rfl rfl, baseCycles]

/-- Settles O22: JMP indirect has one case for each way its two pointer reads can end. -/
theorem jumpRules : Obligations.JumpRules := by
  unfold Obligations.JumpRules
  refine ⟨fun _ _ => rfl, fun _ _ => rfl, exec_jmpAbs, fun pl ph s => ?_⟩
  rw [exec_jmpInd, ← indirectHighAddress_w16]
  refine ⟨fun hlo hhi => ?_, fun hlo => ?_, fun hlo hhi => ?_⟩
  · rw [indirectTarget_mapped s hlo hhi, andThen_next]
  · rw [indirectTarget_unmapped_low s hlo]
    rfl
  · rw [indirectTarget_unmapped_high s hlo hhi]
    rfl

/-! ## O23: JSR (R138) -/

/-- Push16 without room for a byte faults before any access (R52, R173). -/
theorem push16_overflow_high {s : State} (w : Word) (h : s.sp = 0x00) :
    push16 w s = raise (.stackOverflow 0x00) s := by
  rw [push16, push_overflow _ h, andThen_raise, h]

/-- Push16 with room for one byte faults with the high byte pushed (R52, R173, R177). -/
theorem push16_overflow_low {s : State} (w : Word) (h : s.sp = 0x01) :
    push16 w s = raise (.stackOverflow 0x00) (pushed (hiByte w) s) := by
  have h0 : (pushed (hiByte w) s).sp = 0x00 := by rw [pushed_sp, h]; rfl
  rw [push16, push_next _ (by rw [h]; decide), andThen_next, push_overflow _ h0, h0]

/-- JSR goes to its target after the push of its last byte's address (R138). -/
theorem exec_jsr (target : Word) (s : State) :
    exec (.jsr target) s = andThen (push16 (s.pc + 2) s) fun s => .next (goesTo target 6 s) := by
  simp only [exec, execJsr, jump_eq_goesTo (i := .jsr target) rfl rfl, baseCycles]

/-- JSR with room for two bytes on the stack completes (R138). -/
theorem exec_jsr_next (target : Word) {s : State} (h : 2 ≤ s.sp.toNat) :
    exec (.jsr target) s =
      .next (goesTo target 6 (pushed (loByte (s.pc + 2)) (pushed (hiByte (s.pc + 2)) s))) := by
  rw [exec_jsr, push16_next _ h, andThen_next]

/-- Settles O23: JSR has one case for each way its push can end. -/
theorem jsrRule : Obligations.JsrRule := by
  unfold Obligations.JsrRule
  refine ⟨fun _ _ => rfl, fun target s => ⟨exec_jsr_next target, fun h => ?_, fun h => ?_⟩⟩
  · rw [exec_jsr, push16_overflow_low _ h]
    rfl
  · rw [exec_jsr, push16_overflow_high _ h]
    rfl

/-! ## O24: RTS (R139) -/

/-- Pull16 with nothing to pull faults before any access (R53, R174). -/
theorem pull16_underflow_low {s : State} (h : s.sp = 0xFF) : pull16 s = raise (.stackUnderflow 0xFF) s := by
  rw [pull16, pull_underflow h, andThen_raise, h]

/-- Pull16 with one byte to pull faults with the low byte pulled (R53, R174, R177). -/
theorem pull16_underflow_high {s : State} (h : s.sp = 0xFE) :
    pull16 s = raise (.stackUnderflow 0xFF) (pulled s) := by
  have hFF : (pulled s).sp = 0xFF := by rw [pulled_sp, h]; rfl
  rw [pull16, pull_next (by rw [h]; decide), andThen_next]
  simp only [pull_underflow hFF, hFF, andThen_raise]

/-- RTS goes to the address after the word it pulls (R139). -/
theorem exec_rts (s : State) : exec .rts s = andThen (pull16 s) fun (ret, s) => .next (goesTo (ret + 1) 6 s) := by
  simp only [exec, execRts, jump_eq_goesTo (i := .rts) rfl rfl, baseCycles]

/-- RTS with two bytes to pull completes (R139). -/
theorem exec_rts_next {s : State} (h : s.sp.toNat ≤ 0xFD) :
    exec .rts s = .next (goesTo (w16 (pulledByte s) (pulledByte (pulled s)) + 1) 6 (pulled (pulled s))) := by
  rw [exec_rts, pull16_next h, andThen_next]

/-- Settles O24: RTS has one case for each way its pull can end. -/
theorem rtsRule : Obligations.RtsRule := by
  unfold Obligations.RtsRule
  refine ⟨fun _ _ => rfl, fun s => ⟨exec_rts_next, fun h => ?_, fun h => ?_⟩⟩
  · rw [exec_rts, pull16_underflow_high h]
    rfl
  · rw [exec_rts, pull16_underflow_low h]
    rfl

/-! ## O25: RTS after JSR -/

/-- The byte a pull gives depends on neither PC nor CYC. -/
theorem pulledByte_goesTo (target : Word) (cost : Nat) (s : State) :
    pulledByte (goesTo target cost s) = pulledByte s := rfl

/-- A pull is a logged read of a RAM byte with S incremented: the stack has no PPU register (R49, R51). -/
theorem pulled_eq (s : State) :
    pulled s = (s.logAccess .read (stackAddress (s.sp + 1)) (pulledByte s)).setSp (s.sp + 1) := by
  rw [pulled, stackByte_eq, afterRead, classify_stack]
  rfl

/-- A pull leaves PC and CYC as it found them. -/
theorem pulled_goesTo (target : Word) (cost : Nat) (s : State) :
    pulled (goesTo target cost s) = goesTo target cost (pulled s) := by
  rw [pulled_eq, pulled_eq]
  rfl

/-- Settles O25: RTS pulls the word that JSR pushed, the address of JSR's last byte. -/
theorem jsrThenRtsReturns : Obligations.JsrThenRtsReturns := by
  unfold Obligations.JsrThenRtsReturns
  intro target s hm hsp
  have hroom : (goesTo target 6 (pushed (loByte (s.pc + 2)) (pushed (hiByte (s.pc + 2)) s))).sp.toNat ≤ 0xFD := by
    simp only [goesTo, pushed_sp]
    bv_omega
  refine ⟨_, _, exec_jsr_next target hsp, exec_rts_next hroom, ?pc, ?sp, ?a, ?x, ?y, ?status⟩
  case pc =>
    rw [pulled_goesTo, pulledByte_goesTo, pulledByte_goesTo, pulledByte_pushed _ (pushed_keeps_wf _ hm),
      pulledByte_pulled_pushed _ _ hm, w16_loByte_hiByte]
    exact BitVec.add_assoc s.pc 2 1
  case sp | a | x | y | status => simp [goesTo]

end Sys2Proof.Machine

/-! # Proofs: the family of 47_load_store.md -/

namespace Sys2Proof.Machine

open Claims

/-! ## O26: the loads (R140 to R142) -/

/-- Settles O26: the opcode map gives the rows, and each load's update is the register and `SetZN` of the operand
value. -/
theorem loadRules : Obligations.LoadRules := by
  unfold Obligations.LoadRules
  exact ⟨encodes_iff.2 fun _ _ => rfl, encodes_iff.2 fun _ _ => rfl, encodes_iff.2 fun _ _ => rfl,
    reads_of_readInstr (forms := aluForms) (meaning := fun _ => loadA) (by decide) (fun _ => rfl) (fun _ _ => rfl)
      fun _ _ _ => rfl,
    reads_of_readInstr (forms := ldxForms) (meaning := fun _ => loadX) (by decide) (fun _ => rfl) (fun _ _ => rfl)
      fun _ _ _ => rfl,
    reads_of_readInstr (forms := ldyForms) (meaning := fun _ => loadY) (by decide) (fun _ => rfl) (fun _ _ => rfl)
      fun _ _ _ => rfl⟩

/-! ## O27: the stores (R143 to R145) -/

/-- The forms of every storing instruction are address forms (R71, R143 to R145). -/
theorem form_isAddressForm {forms : List Mode} (hforms : ∀ m ∈ forms, m ∉ [Mode.imp, .acc, .imm, .ind, .rel])
    {o : Operand} (h : forms.contains o.mode = true) : isAddressForm o = true := by
  have hmode := hforms o.mode (List.contains_iff_mem.1 h)
  cases o with
  | imp | acc | imm _ | ind _ | rel _ => simp [Operand.mode] at hmode
  | _ => rfl

/-- A storing instruction that does not complete: with the pointer reads done, it answers what its one write of the
effective address answers (R102, R177). -/
theorem storeInstr_fault {i : Instr} {o : Operand} {v : Byte} {s : State} {kind : FaultKind} (hw : i.wellFormed = true)
    (ha : isAddressForm o = true)
    (hwrite : memWrite (effectiveAddress o s) v (afterPointer o s) = raise kind (afterPointer o s)) :
    storeInstr i o v s = raise kind (afterPointer o s) := by
  simp [storeInstr, ifWellFormed, hw, resolve_address ha, storeBack, hwrite]

/-- The statement of a storing instruction, from its meaning as a `storeInstr` of the register's value (R102). -/
theorem stores_of_storeInstr {mk : Operand → Instr} {forms : List Mode} {value : State → Byte}
    (hforms : ∀ m ∈ forms, m ∉ [Mode.imp, .acc, .imm, .ind, .rel])
    (hwf : ∀ o, (mk o).wellFormed = forms.contains o.mode)
    (hexec : ∀ o s, exec (mk o) s = storeInstr (mk o) o (value s) s) : Stores mk value := by
  intro o s hw
  have ha := form_isAddressForm hforms (hwf o ▸ hw)
  rw [hexec]
  refine ⟨fun hs => ?writable, fun hr => ?rom, fun hu => ?unmapped⟩
  case writable => rw [storeInstr_next hw ha hs, advance_eq_fallsThrough]
  case rom => exact storeInstr_fault hw ha (memWrite_rom _ _ hr)
  case unmapped => exact storeInstr_fault hw ha (memWrite_unmapped _ _ hu)

/-- Settles O27: the opcode map gives the rows, and each store is `storeInstr` of its own register. -/
theorem storeRules : Obligations.StoreRules := by
  unfold Obligations.StoreRules
  exact ⟨encodes_iff.2 fun _ _ => rfl, encodes_iff.2 fun _ _ => rfl, encodes_iff.2 fun _ _ => rfl,
    stores_of_storeInstr (forms := staForms) (by decide) (fun _ => rfl) fun _ _ => rfl,
    stores_of_storeInstr (forms := stxForms) (by decide) (fun _ => rfl) fun _ _ => rfl,
    stores_of_storeInstr (forms := styForms) (by decide) (fun _ => rfl) fun _ _ => rfl⟩

end Sys2Proof.Machine

/-! # Proofs: the family of 48_stack_transfer.md -/

namespace Sys2Proof.Machine

open Claims

/-! ## O28: the pushes (R146, R147) -/

theorem exec_pha (s : State) : exec .pha s = andThen (push s.a s) fun t => .next (fallsThrough .pha false t) := rfl

theorem exec_php (s : State) :
    exec .php s = andThen (push (s.p ||| 0x30) s) fun t => .next (fallsThrough .php false t) := rfl

/-- A push with nothing left faults with the record of S = $00 (R50, R173). -/
theorem push_overflow_zero {s : State} (v : Byte) (h : s.sp = 0x00) : push v s = raise (.stackOverflow 0x00) s := by
  rw [push_overflow v h, h]

/-- PHP with room for its byte completes (R147). -/
theorem exec_php_next {s : State} (h : s.sp ≠ 0x00) :
    exec .php s = .next (fallsThrough .php false (pushed (s.p ||| 0x30) s)) := by
  rw [exec_php, push_next _ h, andThen_next]

/-- Settles O28: each instruction has one case for each way its push can end. -/
theorem pushInstructionRules : Obligations.PushInstructionRules := by
  unfold Obligations.PushInstructionRules
  refine ⟨fun _ _ => rfl, fun _ _ => rfl, fun s =>
    ⟨fun h => ?pha, fun h => ?phaFault, exec_php_next, fun h => ?phpFault⟩⟩
  case pha => rw [exec_pha, push_next _ h, andThen_next]
  case phaFault =>
    rw [exec_pha, push_overflow_zero _ h]
    rfl
  case phpFault =>
    rw [exec_php, push_overflow_zero _ h]
    rfl

/-! ## O29: the pulls (R148, R149) -/

theorem exec_pla (s : State) :
    exec .pla s = andThen (pull s) fun (v, t) =>
      .next (fallsThrough .pla false { t with a := v, p := flagsSet t.p (zn v) }) := rfl

theorem exec_plp (s : State) :
    exec .plp s = andThen (pull s) fun (v, t) => .next (fallsThrough .plp false { t with p := v }) := rfl

/-- A pull with nothing left faults with the record of S = $FF (R51, R174). -/
theorem pull_underflow_top {s : State} (h : s.sp = 0xFF) : pull s = raise (.stackUnderflow 0xFF) s := by
  rw [pull_underflow h, h]

/-- PLP with a byte to pull completes (R149). -/
theorem exec_plp_next {s : State} (h : s.sp ≠ 0xFF) :
    exec .plp s = .next (fallsThrough .plp false { pulled s with p := pulledByte s }) := by
  rw [exec_plp, pull_next h, andThen_next]

/-- Settles O29: each instruction has one case for each way its pull can end. -/
theorem pullInstructionRules : Obligations.PullInstructionRules := by
  unfold Obligations.PullInstructionRules
  refine ⟨fun _ _ => rfl, fun _ _ => rfl, fun s =>
    ⟨fun h => ?pla, fun h => ?plaFault, exec_plp_next, fun h => ?plpFault⟩⟩
  case pla => rw [exec_pla, pull_next h, andThen_next, ← pulled_p s]
  case plaFault =>
    rw [exec_pla, pull_underflow_top h]
    rfl
  case plpFault =>
    rw [exec_plp, pull_underflow_top h]
    rfl

/-! ## O30: PLP after PHP -/

/-- The byte a pull gives stands at the next stack byte: the stack is RAM (R49, R51). -/
theorem peek_pulledByte (s : State) : s.peek (stackAddress (s.sp + 1)) = some (pulledByte s) := by
  unfold pulledByte byteAt State.peek
  rw [stackByte_eq, cellOf_stackAddress]
  rfl

/-- The byte a pull gives depends on memory and S alone. -/
theorem pulledByte_congr {s t : State} (hmem : t.mem = s.mem) (hsp : t.sp = s.sp) : pulledByte t = pulledByte s :=
  pulledByte_of_peek (by rw [← peek_pulledByte, State.peek, State.peek, hmem, hsp])

/-- Settles O30: PLP pulls the copy of P that PHP pushed, which has B and U set. -/
theorem phpThenPlpRestores : Obligations.PhpThenPlpRestores := by
  unfold Obligations.PhpThenPlpRestores
  intro s hm hsp
  have hroom : (fallsThrough .php false (pushed (s.p ||| 0x30) s)).sp ≠ 0xFF := by
    simp only [fallsThrough, pushed_sp]
    bv_omega
  refine ⟨_, _, exec_php_next hsp, exec_plp_next hroom, ?sp, fun f => ?flags⟩
  case sp => simp [fallsThrough]
  case flags =>
    have hbyte : pulledByte (fallsThrough .php false (pushed (s.p ||| 0x30) s)) = pushedStatus s.p :=
      (pulledByte_congr rfl rfl).trans (pulledByte_pushed _ hm)
    simp only [fallsThrough] at hbyte ⊢
    rw [hbyte, testFlag_pushedStatus]

/-! ## O31: the transfers (R150 to R155) -/

/-- A one-byte instruction that only updates registers, from its opcode byte and its meaning (R81). -/
theorem implied_of_advance {op : Byte} {i : Instr} {update : State → State} (hdecode : ∀ b1 b2, decode op b1 b2 = i)
    (hexec : ∀ s, exec i s = .next ((update s).advance i false)) : Implied op i update :=
  ⟨hdecode, fun s => by rw [hexec, advance_eq_fallsThrough]⟩

/-- Settles O31: the opcode map gives each byte its transfer, and each transfer is one update of registers. -/
theorem transferRules : Obligations.TransferRules := by
  unfold Obligations.TransferRules
  refine ⟨?tax, ?tay, ?txa, ?tya, ?tsx, ?txs⟩
  all_goals exact implied_of_advance (fun _ _ => rfl) fun _ => rfl

end Sys2Proof.Machine

/-! # Proofs: the family of 49_misc.md -/

namespace Sys2Proof.Machine

open Claims

/-! ## O32: BIT (R156) -/

/-- The flags of BIT as the list it writes (R156). -/
theorem bitTestFlags_eq (p a m : Byte) :
    bitTestFlags p a m = flagsSet p [(.Z, decide (a &&& m = 0)), (.N, m.getLsbD 7), (.V, m.getLsbD 6)] := rfl

/-- Settles O32: the opcode map gives the rows, and `bitTestFlags` the flags. -/
theorem bitRule : Obligations.BitRule := by
  unfold Obligations.BitRule
  refine ⟨encodes_iff.2 fun _ _ => rfl,
    reads_of_readInstr (forms := bitForms) (meaning := fun _ m s => s.setP (bitTestFlags s.p s.a m)) (by decide)
      (fun _ => rfl) (fun _ _ => rfl) fun _ _ _ => ?_⟩
  rw [bitTestFlags_eq]
  rfl

/-! ## O33: BRK (R157) -/

/-- A push changes no byte of ROM (R49, R55). -/
theorem peek_pushed_rom {s : State} {a : Word} (v : Byte) (h : 0x8000 ≤ a.toNat) :
    (pushed v s).peek a = s.peek a := by
  refine peek_pushed_ne v ?_
  rw [cellOf_rom h, cellOf_stackAddress, ne_eq, Option.some.injEq]
  have := s.sp.isLt
  omega

/-- ROM has a byte at every address from $8000 on (R40, R42). -/
theorem exists_peek_rom (s : State) {a : Word} (h : 0x8000 ≤ a.toNat) : ∃ v, s.peek a = some v :=
  ⟨_, by rw [State.peek, cellOf_rom h]; rfl⟩

/-- A 16-bit read of two addresses with bytes enters both in the log and changes nothing else (R38, R44). -/
theorem memRead16_logs {s : State} {a : Word} {lo hi : Byte} (hlo : s.peek a = some lo)
    (hhi : s.peek (a + 1) = some hi) :
    memRead16 a s =
      .next (w16 lo hi, { s with busLog := s.busLog ++ [⟨.read, a, lo⟩, ⟨.read, a + 1, hi⟩] }) := by
  have hhi' : (s.logAccess .read a lo).peek (a + 1) = some hi := hhi
  rw [memRead16_of_peek hlo hhi, afterRead_of_peek hlo, afterRead_of_peek hhi']
  simp only [State.logAccess, List.append_assoc, List.singleton_append]

section Entry

variable {ret vector : Word} {status : Byte} {s s1 s2 s3 : State}

/-- Entering an exception through a vector in ROM with room for its three bytes (R157, R183). -/
theorem enterException_rom (hv : 0x8000 ≤ vector.toNat) (hv' : 0x8000 ≤ (vector + 1).toNat) (h : 3 ≤ s.sp.toNat)
    (h1 : s1 = pushed (hiByte ret) s) (h2 : s2 = pushed (loByte ret) s1)
    (h3 : s3 = { pushed status s2 with p := flagsSet s.p [(.I, true)] }) :
    ∃ lo hi : Byte, s.peek vector = some lo ∧ s.peek (vector + 1) = some hi ∧
      enterException ret status vector s =
        .next { s3 with
          pc := w16 lo hi, busLog := s3.busLog ++ [⟨.read, vector, lo⟩, ⟨.read, vector + 1, hi⟩] } := by
  obtain ⟨lo, hlo⟩ := exists_peek_rom s hv
  obtain ⟨hi, hhi⟩ := exists_peek_rom s hv'
  have hrom : ∀ a : Word, 0x8000 ≤ a.toNat → s3.peek a = s.peek a := fun a ha =>
    calc s3.peek a
      _ = (pushed status s2).peek a := by rw [h3]; rfl
      _ = s.peek a := by rw [peek_pushed_rom _ ha, h2, peek_pushed_rom _ ha, h1, peek_pushed_rom _ ha]
  have hread := memRead16_logs ((hrom _ hv).trans hlo) ((hrom _ hv').trans hhi)
  have hsp : s2.sp ≠ 0 := by
    rw [h2, pushed_sp, h1, pushed_sp]
    bv_omega
  have hflag : (pushed status s2).setP (writeFlag (pushed status s2).p .I true) = s3 := by
    rw [h3, pushed_p, h2, pushed_p, h1, pushed_p]
    rfl
  refine ⟨lo, hi, hlo, hhi, ?_⟩
  rw [enterException, push16_next ret (by omega), ← h1, ← h2, andThen_next, push_next _ hsp, andThen_next, hflag, hread,
    andThen_next]
  rfl

/-- It faults at the third push with the return address pushed (R157, R173, R177). -/
theorem enterException_overflow_third (h : s.sp = 0x02) :
    enterException ret status vector s =
      raise (.stackOverflow 0x00) (pushed (loByte ret) (pushed (hiByte ret) s)) := by
  have h0 : (pushed (loByte ret) (pushed (hiByte ret) s)).sp = 0x00 := by
    rw [pushed_sp, pushed_sp, h]
    rfl
  rw [enterException, push16_next ret (by rw [h]; decide), andThen_next, push_overflow_zero _ h0, andThen_raise]

/-- It faults at the second push with one byte pushed (R157, R173, R177). -/
theorem enterException_overflow_second (h : s.sp = 0x01) :
    enterException ret status vector s = raise (.stackOverflow 0x00) (pushed (hiByte ret) s) := by
  rw [enterException, push16_overflow_low _ h, andThen_raise]

/-- It faults at the first push with nothing done (R157, R173). -/
theorem enterException_overflow_first (h : s.sp = 0x00) :
    enterException ret status vector s = raise (.stackOverflow 0x00) s := by
  rw [enterException, push16_overflow_high _ h, andThen_raise]

end Entry

/-- BRK enters the exception at $FFFE and takes 7 cycles (R157, R197). -/
theorem exec_brk (s : State) :
    exec .brk s =
      andThen (enterException (s.pc + 2) (s.p ||| 0x30) 0xFFFE s) fun t => .next (goesTo t.pc 7 t) := rfl

/-- Settles O33: BRK has one case for each way its entry can end. -/
theorem brkRule : Obligations.BrkRule := by
  unfold Obligations.BrkRule
  refine ⟨fun _ _ => rfl, fun s s1 s2 s3 h1 h2 h3 =>
    ⟨fun h => ?next, fun h => ?third, fun h => ?second, fun h => ?first⟩⟩
  case next =>
    obtain ⟨lo, hi, hlo, hhi, hentry⟩ := enterException_rom (vector := 0xFFFE) (by decide) (by decide) h h1 h2 h3
    refine ⟨lo, hi, hlo, hhi, ?_⟩
    rw [exec_brk, hentry]
    rfl
  case third =>
    rw [exec_brk, enterException_overflow_third h, h2, h1]
    rfl
  case second =>
    rw [exec_brk, enterException_overflow_second h, h1]
    rfl
  case first =>
    rw [exec_brk, enterException_overflow_first h]
    rfl

/-! ## O34: RTI (R158) -/

/-- Sequencing is associative (R82). -/
theorem andThen_assoc {α β γ : Type} (r : Result α) (k : α → Result β) (k' : β → Result γ) :
    andThen (andThen r k) k' = andThen r fun v => andThen (k v) k' := by
  cases r <;> rfl

/-- RTI pulls P with bit 5 forced to 1, then PC (R158, R197). -/
theorem exec_rti (s : State) :
    exec .rti s =
      andThen (pull s) fun (v, t) =>
      andThen (pull16 { t with p := v ||| 0x20 }) fun (target, t) => .next (goesTo target 6 t) := by
  simp only [exec, execRti, returnFromException, andThen_assoc, andThen_next]
  rfl

/-- RTI with a byte to pull (R158). -/
theorem exec_rti_pull {s s1 : State} (h : s.sp ≠ 0xFF) (h1 : s1 = { pulled s with p := pulledByte s ||| 0x20 }) :
    exec .rti s = andThen (pull16 s1) fun (target, t) => .next (goesTo target 6 t) := by
  rw [exec_rti, pull_next h, andThen_next, h1]

/-- RTI with three bytes to pull completes (R158). -/
theorem exec_rti_next {s s1 : State} (h : s.sp.toNat ≤ 0xFC)
    (h1 : s1 = { pulled s with p := pulledByte s ||| 0x20 }) :
    exec .rti s = .next (goesTo (w16 (pulledByte s1) (pulledByte (pulled s1))) 6 (pulled (pulled s1))) := by
  have hsp : s1.sp.toNat ≤ 0xFD := by
    rw [h1, pulled_sp]
    bv_omega
  rw [exec_rti_pull (by bv_omega) h1, pull16_next hsp, andThen_next]

/-- Settles O34: RTI has one case for each way its pulls can end. -/
theorem rtiRule : Obligations.RtiRule := by
  unfold Obligations.RtiRule
  refine ⟨fun _ _ => rfl, fun s s1 h1 =>
    ⟨fun h => exec_rti_next h h1, fun h => ?third, fun h => ?second, fun h => ?first⟩⟩
  case third =>
    have hsp : s1.sp = 0xFE := by
      rw [h1, pulled_sp, h]
      rfl
    rw [exec_rti_pull (by rw [h]; decide) h1, pull16_underflow_high hsp]
    rfl
  case second =>
    have hsp : s1.sp = 0xFF := by
      rw [h1, pulled_sp, h]
      rfl
    rw [exec_rti_pull (by rw [h]; decide) h1, pull16_underflow_low hsp]
    rfl
  case first =>
    rw [exec_rti, pull_underflow_top h]
    rfl

/-! ## O35: RTI after BRK -/

/-- Under a pushed byte the stack is as before, two bytes down too (R49 to R51). -/
theorem pulledByte_pulled_pulled_pushed (v : Byte) (s : State) :
    pulledByte (pulled (pulled (pushed v s))) = pulledByte (pulled s) := by
  have hne : cellOf (stackAddress (s.sp + 1 + 1)) ≠ cellOf (stackAddress s.sp) := by
    rw [cellOf_stackAddress, cellOf_stackAddress, ne_eq, Option.some.injEq]
    bv_omega
  refine pulledByte_of_peek ?_
  rw [← peek_pulledByte, peek_pulled, peek_pulled, peek_pulled, pulled_sp, pulled_sp, pulled_sp, pushed_sp,
    BitVec.sub_add_cancel, peek_pushed_ne v hne]

/-- The three bytes that an entry pushes are pulled again as the status and the return address (R54, R157, R158). -/
theorem pulledBytes_of_entry {s u : State} {ret : Word} {status : Byte} (hm : Memory.wf s.mem)
    (hu : u = pushed status (pushed (loByte ret) (pushed (hiByte ret) s))) :
    pulledByte u = status ∧ w16 (pulledByte (pulled u)) (pulledByte (pulled (pulled u))) = ret := by
  have hm1 := pushed_keeps_wf (hiByte ret) hm
  rw [hu, pulledByte_pushed _ (pushed_keeps_wf _ hm1), pulledByte_pulled_pushed _ _ hm1,
    pulledByte_pulled_pulled_pushed, pulledByte_pulled_pushed _ _ hm, w16_loByte_hiByte]
  exact ⟨rfl, rfl⟩

/-- The pushed copy of P already has bit 5, so that forcing it changes nothing (R157, R158). -/
theorem restoredStatus_pushedStatus (p : Byte) : pushedStatus p ||| 0x20 = pushedStatus p :=
  BitVec.or_assoc p 0x30 0x20

/-- What RTI needs of the state that BRK leaves: the stack holds the return address and the copy of P, and A, X and Y
are as before (R157). -/
theorem exec_brk_stack {s u : State} (h : 3 ≤ s.sp.toNat)
    (hu : u = pushed (pushedStatus s.p) (pushed (loByte (s.pc + 2)) (pushed (hiByte (s.pc + 2)) s))) :
    ∃ t, exec .brk s = .next t ∧ t.mem = u.mem ∧ t.sp = u.sp ∧ t.a = s.a ∧ t.x = s.x ∧ t.y = s.y := by
  obtain ⟨-, hbrk⟩ := brkRule
  obtain ⟨hnext, -⟩ := hbrk s _ _ _ rfl rfl rfl
  obtain ⟨lo, hi, -, -, ht⟩ := hnext h
  subst hu
  refine ⟨_, ht, rfl, rfl, ?a, ?x, ?y⟩
  case a | x | y => simp [goesTo]

/-- Settles O35: RTI pulls the copy of P and the return address that BRK pushed. -/
theorem brkThenRtiReturns : Obligations.BrkThenRtiReturns := by
  unfold Obligations.BrkThenRtiReturns
  intro s hm hsp
  obtain ⟨t, ht, hmem, hstack, ha, hx, hy⟩ := exec_brk_stack hsp rfl
  obtain ⟨hstatus, hret⟩ := pulledBytes_of_entry (ret := s.pc + 2) (status := pushedStatus s.p) hm rfl
  have hroom : t.sp.toNat ≤ 0xFC := by
    rw [hstack]
    simp only [pushed_sp]
    bv_omega
  refine ⟨t, _, ht, exec_rti_next hroom rfl, ?pc, ?sp, ?a, ?x, ?y, fun f => ?flags⟩
  case pc =>
    refine Eq.trans (congrArg₂ w16 (pulledByte_congr ?_ ?_) (pulledByte_congr ?_ ?_)) hret
    all_goals simp [hmem, hstack]
  case sp =>
    simp only [goesTo, pulled_sp, hstack, pushed_sp]
    bv_omega
  case a | x | y => simp [goesTo, ha, hx, hy]
  case flags =>
    simp only [goesTo, pulled_p, pulledByte_congr hmem hstack, hstatus, restoredStatus_pushedStatus,
      testFlag_pushedStatus]

/-! ## O36: the flag instructions (R159 to R165) -/

/-- Settles O36: the opcode map gives each byte its instruction, and each instruction writes one flag. -/
theorem flagInstructionRules : Obligations.FlagInstructionRules := by
  unfold Obligations.FlagInstructionRules
  refine ⟨?_, ?_, ?_, ?_, ?_, ?_, ?_⟩ <;> exact implied_of_advance (fun _ _ => rfl) fun _ => rfl

/-! ## O37: the NOPs (R166, R167) -/

/-- The opcode map gives each byte of R72 its NOP with the operand of its mode (R72). -/
theorem decode_unofficialNops {row : Byte × (Byte → Byte → Operand)} (h : row ∈ unofficialNops) (b1 b2 : Byte) :
    decode row.1 b1 b2 = .nopStar row.1 (row.2 b1 b2) := by
  have hrows : (unofficialNops.map fun row => decode row.1 b1 b2) =
      unofficialNops.map fun row => .nopStar row.1 (row.2 b1 b2) := rfl
  exact List.map_inj_left.1 hrows row h

/-- No unofficial NOP of the default set has the form (zp),Y, whose pointer it would have to read (R72). -/
theorem ne_indy_of_isUnofficialNop {op : Byte} {m : Mode} (h : isUnofficialNop op m defaultUnofficialNops = true) :
    m ≠ .indy := by
  have hmodes : ∀ row ∈ defaultUnofficialNops, row.2 ≠ Mode.indy := by decide
  simp only [isUnofficialNop, Bool.and_eq_true, beq_iff_eq] at h
  obtain ⟨before, after, hrow, -⟩ := List.lookup_eq_some_iff.1 h.2
  exact hmodes (op, m) (by simp [hrow])

/-- A form without a pointer crosses a page for a NOP as it does for a read (R101, R167). -/
theorem nopStarCrosses_eq {o : Operand} (h : o.mode ≠ .indy) (s : State) : nopStarCrosses o s = addressCrosses o s := by
  cases o with
  | indy b => exact absurd rfl h
  | _ => rfl

/-- A well-formed unofficial NOP completes with PC and CYC written and nothing else (R167). -/
theorem exec_nopStar {op : Byte} {o : Operand} (hw : (Instr.nopStar op o).wellFormed = true) (s : State) :
    exec (.nopStar op o) s = .next (fallsThrough (.nopStar op o) (addressCrosses o s) s) := by
  rw [← nopStarCrosses_eq (ne_indy_of_isUnofficialNop hw), ← advance_eq_fallsThrough]
  exact if_pos hw

/-- Settles O37: the opcode map gives each byte its NOP, which accesses nothing. -/
theorem nopRules : Obligations.NopRules := by
  unfold Obligations.NopRules
  refine ⟨implied_of_advance (fun _ _ => rfl) fun _ => rfl, fun row hrow b1 b2 => ?_⟩
  have hdecode := decode_unofficialNops hrow b1 b2
  exact ⟨hdecode, exec_nopStar (hdecode ▸ decode_wellFormed row.1 b1 b2 defaultUnofficialNops)⟩

/-! ## O38: the unimplemented bytes (R168) -/

/-- An unimplemented byte decodes to `unimp` whatever follows it (R168). -/
theorem decode_unimplementedBytes {op : Byte} (h : op ∈ unimplementedBytes) (b1 b2 : Byte) :
    decode op b1 b2 = .unimp op := by
  rw [decode, decodeOpcode_of_isUnimplemented ((mem_unimplementedBytes_iff op).1 h)]
  rfl

/-- Settles O38: the bytes of R73 are those the decoder takes for unimplemented, and their meaning is the fault. -/
theorem unimplementedBytesFault : Obligations.UnimplementedBytesFault := by
  unfold Obligations.UnimplementedBytesFault
  exact fun op hop => ⟨decode_unimplementedBytes hop, exec_unimp ((mem_unimplementedBytes_iff op).1 hop)⟩

end Sys2Proof.Machine

/-! # Proofs: the family of 60_exceptions.md -/

namespace Sys2Proof.Machine

open Claims

/-! ## O46: a faulted CORE (R169) -/

/-- A run whose first run call answers a state goes on from there (R77). -/
theorem run_of_step {n : Nat} {s u : State} (h : step s = .next u) :
    Host.Core.run core (n + 1) s = Host.Core.run core n u := by
  simp only [Host.Core.run, core, h]

/-- A run call on a faulted CORE answers the state it found (R169). -/
theorem step_faulted {s : State} (h : s.fault ≠ none) : step s = .next s := by
  rcases step_cases s with ⟨-, hs⟩ | ⟨hf, -⟩ | ⟨hf, -⟩
  · exact hs
  · exact absurd hf h
  · exact absurd hf h

/-- Settles O46: by induction on the number of run calls. -/
theorem faultedCoreStaysStopped : Obligations.FaultedCoreStaysStopped := by
  unfold Obligations.FaultedCoreStaysStopped
  intro s n h
  induction n with
  | zero => rfl
  | succ n ih =>
    rw [run_of_step (step_faulted h)]
    exact ih

/-! ## O47: the outcomes of a run call (R170, R176, R177) -/

/-- An operation that answers, with what meets R, or faults, but does not refuse. -/
def NotRefused {α : Type} (R : α → Prop) : Result α → Prop
  | .next v => R v
  | .fault _ => True
  | .refused _ => False

section NotRefused

variable {α β : Type} {R : α → Prop} {Q : β → Prop}

theorem NotRefused.andThen {r : Result α} {k : α → Result β} (h : NotRefused R r) (hk : ∀ v, R v → NotRefused Q (k v)) :
    NotRefused Q (andThen r k) := by
  cases r with
  | next v => exact hk v h
  | fault f => trivial
  | refused q => exact h

theorem NotRefused.ne_refused {r : Result α} (h : NotRefused R r) (q : Refusal) : r ≠ .refused q := by
  rintro rfl
  exact h

end NotRefused

/-- The operation answers or faults. -/
abbrev NeverRefuses {α : Type} : Result α → Prop := NotRefused fun _ => True

section NeverRefuses

variable {P : Params}

/-! The bus, the stack and the pointer reads never refuse. -/

theorem memRead_neverRefuses (a : Word) (s : State) : NeverRefuses (memRead a s P) := by
  unfold memRead
  cases classify a P <;> trivial

theorem memWrite_neverRefuses (a : Word) (v : Byte) (s : State) : NeverRefuses (memWrite a v s P) := by
  unfold memWrite
  cases classify a P <;> trivial

theorem memRead16_neverRefuses (a : Word) (s : State) : NeverRefuses (memRead16 a s P) :=
  (memRead_neverRefuses a s).andThen fun _ _ => (memRead_neverRefuses _ _).andThen fun _ _ => trivial

theorem push_neverRefuses (v : Byte) (s : State) : NeverRefuses (push v s P) := by
  unfold push
  split
  · trivial
  · exact (memWrite_neverRefuses _ v s).andThen fun _ _ => trivial

theorem pull_neverRefuses (s : State) : NeverRefuses (pull s P) := by
  unfold pull
  split
  · trivial
  · exact memRead_neverRefuses _ _

theorem push16_neverRefuses (w : Word) (s : State) : NeverRefuses (push16 w s P) :=
  (push_neverRefuses _ s).andThen fun _ _ => push_neverRefuses _ _

theorem pull16_neverRefuses (s : State) : NeverRefuses (pull16 s P) :=
  (pull_neverRefuses s).andThen fun _ _ => (pull_neverRefuses _).andThen fun _ _ => trivial

theorem enterException_neverRefuses (ret : Word) (status : Byte) (vector : Word) (s : State) :
    NeverRefuses (enterException ret status vector s P) :=
  (push16_neverRefuses ret s).andThen fun _ _ => (push_neverRefuses status _).andThen fun _ _ =>
  (memRead16_neverRefuses vector _).andThen fun _ _ => trivial

theorem returnFromException_neverRefuses (s : State) : NeverRefuses (returnFromException s P) :=
  (pull_neverRefuses s).andThen fun _ _ => (pull16_neverRefuses _).andThen fun _ _ => trivial

theorem indirectTarget_neverRefuses (ptr : Word) (s : State) : NeverRefuses (indirectTarget ptr s P) :=
  (memRead_neverRefuses ptr s).andThen fun _ _ => (memRead_neverRefuses _ _).andThen fun _ _ => trivial

/-! The shapes of instruction do not refuse a form that has a row. -/

/-- Every address is writable, in ROM, or unmapped (R40). -/
theorem writable_or_inRom_or_unmapped (a : Word) : Writable a P ∨ InRom a P ∨ classify a P = .unmapped := by
  unfold Writable InRom
  cases classify a P <;> simp

variable {i : Instr} {o : Operand} {forms : List Mode}

theorem readInstr_neverRefuses (update : Byte → State → State) (s : State) (hw : i.wellFormed = true)
    (hforms : ∀ m ∈ forms, m ≠ .imp ∧ m ≠ .ind ∧ m ≠ .rel) (ho : forms.contains o.mode = true) :
    NeverRefuses (readInstr i o update s) := by
  by_cases hr : Readable o s
  · rw [readInstr_next hw (form_has_value hforms ho) hr]
    trivial
  · rw [readInstr_unmapped hw hr]
    trivial

theorem storeInstr_neverRefuses (v : Byte) (s : State) (hw : i.wellFormed = true)
    (hforms : ∀ m ∈ forms, m ∉ [Mode.imp, .acc, .imm, .ind, .rel]) (ho : forms.contains o.mode = true) :
    NeverRefuses (storeInstr i o v s) := by
  have ha := form_isAddressForm hforms ho
  rcases writable_or_inRom_or_unmapped (effectiveAddress o s) with h | h | h
  · rw [storeInstr_next hw ha h]
    trivial
  · rw [storeInstr_fault hw ha (memWrite_rom _ _ h)]
    trivial
  · rw [storeInstr_fault hw ha (memWrite_unmapped _ _ h)]
    trivial

theorem modifyInstr_neverRefuses (f : Byte → Byte → Byte × Byte) (s : State) (hw : i.wellFormed = true)
    (ho : isAddressForm o = true ∨ o = .acc) : NeverRefuses (modifyInstr i o f s) := by
  rcases ho with ha | rfl
  · rcases writable_or_inRom_or_unmapped (effectiveAddress o s) with h | h | h
    · rw [modifyInstr_next_address hw ha h]
      trivial
    · rw [modifyInstr_rom hw ha h]
      trivial
    · rw [modifyInstr_unmapped hw ha h]
      trivial
  · rw [modifyInstr_next_acc hw]
    trivial

/-- The forms of the shifts and rotates, and those of INC and DEC, are address forms or the accumulator (R71). -/
theorem form_modifies (hforms : ∀ m ∈ forms, m ∉ [Mode.imp, .imm, .ind, .rel]) (ho : forms.contains o.mode = true) :
    isAddressForm o = true ∨ o = .acc := by
  have hmode := hforms o.mode (List.contains_iff_mem.1 ho)
  cases o with
  | imp | imm _ | ind _ | rel _ => simp [Operand.mode] at hmode
  | acc => exact .inr rfl
  | _ => exact .inl rfl

theorem branchInstr_neverRefuses (i : Instr) (d : Byte) (cond : Bool) (s : State) :
    NeverRefuses (branchInstr i d cond s P) := by
  cases cond <;> trivial

theorem ifWellFormed_neverRefuses {r : Result State} (hw : i.wellFormed = true) (h : NeverRefuses r) :
    NeverRefuses (ifWellFormed i r) := by
  rwa [ifWellFormed, default_unofficialNops, if_pos hw]

/-- No well-formed instruction is refused (R81). -/
theorem exec_neverRefuses {i : Instr} (hw : i.wellFormed = true) (s : State) : NeverRefuses (exec i s) := by
  cases i with
  | adc o | sbc o | and o | ora o | eor o | cmp o | lda o =>
    exact readInstr_neverRefuses (forms := aluForms) _ s hw (by decide) hw
  | cpx o | cpy o => exact readInstr_neverRefuses (forms := compareIndexForms) _ s hw (by decide) hw
  | ldx o => exact readInstr_neverRefuses (forms := ldxForms) _ s hw (by decide) hw
  | ldy o => exact readInstr_neverRefuses (forms := ldyForms) _ s hw (by decide) hw
  | bit o =>
    simp only [exec, execBit]
    exact readInstr_neverRefuses (forms := bitForms) _ s hw (by decide) hw
  | sta o => exact storeInstr_neverRefuses (forms := staForms) _ s hw (by decide) hw
  | stx o => exact storeInstr_neverRefuses (forms := stxForms) _ s hw (by decide) hw
  | sty o => exact storeInstr_neverRefuses (forms := styForms) _ s hw (by decide) hw
  | asl o | lsr o | rol o | ror o =>
    exact modifyInstr_neverRefuses _ s hw (form_modifies (forms := shiftForms) (by decide) hw)
  | inc o | dec o => exact modifyInstr_neverRefuses _ s hw (form_modifies (forms := incDecForms) (by decide) hw)
  | bcc d | bcs d | beq d | bne d | bmi d | bpl d | bvc d | bvs d => exact branchInstr_neverRefuses _ d _ s
  | jmpInd ptr => exact (indirectTarget_neverRefuses ptr s).andThen fun _ _ => trivial
  | jsr target => exact (push16_neverRefuses _ s).andThen fun _ _ => trivial
  | rts => exact (pull16_neverRefuses s).andThen fun _ _ => trivial
  | pha | php => exact (push_neverRefuses _ s).andThen fun _ _ => trivial
  | pla | plp => exact (pull_neverRefuses s).andThen fun _ _ => trivial
  | brk => exact (enterException_neverRefuses _ _ _ s).andThen fun _ _ => trivial
  | rti => exact (returnFromException_neverRefuses s).andThen fun _ _ => trivial
  | nopStar op o | unimp op => exact ifWellFormed_neverRefuses hw trivial
  | _ => trivial

/-! The fetch answers a well-formed instruction or faults (R78 to R80). -/

theorem fetchOperands_neverRefuses {d : Instr} (hd : d.wellFormed = true) (s : State) :
    NotRefused (fun r => r.1.wellFormed = true) (fetchOperands d s) := by
  have hfill : ∀ b1 b2, (fillInstr b1 b2 d).wellFormed = true := fun b1 b2 => (fillInstr_wellFormed b1 b2 d _).trans hd
  unfold fetchOperands
  split
  · refine (memRead_neverRefuses _ s).andThen fun _ _ => ?_
    dsimp only
    split
    · exact (memRead_neverRefuses _ _).andThen fun _ _ => hfill _ _
    · exact hfill _ _
  · exact hd

theorem runInstruction_neverRefuses (s : State) : NeverRefuses (runInstruction exec s) := by
  have hopcode : ∀ op, (decodeOpcode op).wellFormed = true := fun op =>
    wellFormed_of_opcodeOf (opcodeOf_decodeOpcode op _)
  refine NotRefused.andThen ?_ fun r hr => exec_neverRefuses hr r.2
  exact (memRead_neverRefuses s.pc s).andThen fun r _ => fetchOperands_neverRefuses (hopcode r.1) r.2

end NeverRefuses

/-- An operation that ends in a fault was stopped by a raise (R169, R170). -/
theorem Ends.exists_raise {F : State → Prop} {α : Type} {R : α → Prop} {f : Fault} (h : Ends F R (.fault f)) :
    ∃ kind u, F u ∧ f = faultOf kind (u.setFault ⟨kind, u.pc⟩) := by
  cases h with
  | raise kind h => exact ⟨kind, _, h, rfl⟩

/-- Settles O47: the instruction at PC is well formed and so not refused, and a raise names PC, which no state that the
run call passes through has changed. -/
theorem stepAnswersOrFaults : Obligations.StepAnswersOrFaults := by
  unfold Obligations.StepAnswersOrFaults
  intro s
  rcases step_cases s with ⟨-, h⟩ | ⟨-, -, h⟩ | ⟨hf, hc, h⟩ <;> rw [h]
  · exact ⟨nofun, nofun⟩
  · exact ⟨nofun, nofun⟩
  · refine ⟨(runInstruction_neverRefuses s).ne_refused, fun f hfault => ?_⟩
    have hrun := runInstruction_passes .default s
    simp only [execWith_default, hfault] at hrun
    obtain ⟨kind, u, hu, rfl⟩ := hrun.exists_raise
    obtain ⟨hpc, hcyc, -⟩ := hu.keeps
    rw [faultState_faultOf, ← hpc]
    exact ⟨hf, hc, rfl, hcyc.trans hc, kind, rfl, rfl⟩

/-! ## O52: the optional inputs without interrupt lines (R179) -/

/-- s with other values of the optional inputs. -/
def State.withInputs (s : State) (irq nmiEdge : Bool) : State := { s with irq := irq, nmiEdge := nmiEdge }

@[simp] theorem withInputs_fault (s : State) (irq nmiEdge : Bool) : (s.withInputs irq nmiEdge).fault = s.fault := rfl
@[simp] theorem withInputs_cyc (s : State) (irq nmiEdge : Bool) : (s.withInputs irq nmiEdge).cyc = s.cyc := rfl

/-- t is s with the given values of the optional inputs. -/
def DrivenTo (irq nmiEdge : Bool) (s t : State) : Prop := t = s.withInputs irq nmiEdge

section Inputs

variable {b c : Bool} {P : Params}

/-- Outcomes that are the same but for the values of the optional inputs in their states. -/
abbrev InputsMatch (b c : Bool) : Result State → Result State → Prop := OutcomesMatch (DrivenTo b c) (DrivenTo b c)

/-- Outcomes with equal values, and states that differ in the optional inputs alone. -/
abbrev InputsMatchValue (b c : Bool) {α : Type} : Result (α × State) → Result (α × State) → Prop :=
  OutcomesMatch (DrivenTo b c) (SameValue (DrivenTo b c))

theorem InputsMatch.andThen {β : Type} {Q : β → β → Prop} {r r' : Result State} {k k' : State → Result β}
    (h : InputsMatch b c r r') (hk : ∀ s, OutcomesMatch (DrivenTo b c) Q (k s) (k' (s.withInputs b c))) :
    OutcomesMatch (DrivenTo b c) Q (andThen r k) (andThen r' k') :=
  OutcomesMatch.andThen h fun s _ hs => hs ▸ hk s

theorem InputsMatchValue.andThen {α β : Type} {Q : β → β → Prop} {r r' : Result (α × State)}
    {k k' : α × State → Result β} (h : InputsMatchValue b c r r')
    (hk : ∀ v s, OutcomesMatch (DrivenTo b c) Q (k (v, s)) (k' (v, s.withInputs b c))) :
    OutcomesMatch (DrivenTo b c) Q (andThen r k) (andThen r' k') :=
  OutcomesMatch.andThen_value h fun v s _ hs => hs ▸ hk v s

/-! The bus and the stack. -/

theorem memRead_inputs (a : Word) (s : State) :
    InputsMatchValue b c (memRead a s P) (memRead a (s.withInputs b c) P) := by
  unfold memRead
  cases classify a P with
  | unmapped => exact .fault _ rfl
  | _ => exact .next ⟨rfl, rfl⟩

theorem memWrite_inputs (a : Word) (v : Byte) (s : State) :
    InputsMatch b c (memWrite a v s P) (memWrite a v (s.withInputs b c) P) := by
  unfold memWrite
  cases classify a P with
  | ram | ramMirror | ppu => exact .next rfl
  | romOne | romTwo | unmapped => exact .fault _ rfl

theorem memRead16_inputs (a : Word) (s : State) :
    InputsMatchValue b c (memRead16 a s P) (memRead16 a (s.withInputs b c) P) :=
  (memRead_inputs a s).andThen fun _ s => (memRead_inputs (a + 1) s).andThen fun _ _ => .next ⟨rfl, rfl⟩

theorem push_inputs (v : Byte) (s : State) : InputsMatch b c (push v s P) (push v (s.withInputs b c) P) := by
  by_cases h : s.sp = 0x00
  · rw [push, push, if_pos h, if_pos (by exact h)]
    exact .fault _ rfl
  · rw [push, push, if_neg h, if_neg (by exact h)]
    exact (memWrite_inputs _ v s).andThen fun _ => .next rfl

theorem pull_inputs (s : State) : InputsMatchValue b c (pull s P) (pull (s.withInputs b c) P) := by
  by_cases h : s.sp = 0xFF
  · rw [pull, pull, if_pos h, if_pos (by exact h)]
    exact .fault _ rfl
  · rw [pull, pull, if_neg h, if_neg (by exact h)]
    exact memRead_inputs _ (s.setSp (s.sp + 1))

theorem push16_inputs (w : Word) (s : State) : InputsMatch b c (push16 w s P) (push16 w (s.withInputs b c) P) :=
  (push_inputs _ s).andThen fun s => push_inputs _ s

theorem pull16_inputs (s : State) : InputsMatchValue b c (pull16 s P) (pull16 (s.withInputs b c) P) :=
  (pull_inputs s).andThen fun _ s => (pull_inputs s).andThen fun _ _ => .next ⟨rfl, rfl⟩

theorem enterException_inputs (ret : Word) (status : Byte) (vector : Word) (s : State) :
    InputsMatch b c (enterException ret status vector s P)
      (enterException ret status vector (s.withInputs b c) P) :=
  (push16_inputs ret s).andThen fun s => (push_inputs status s).andThen fun s =>
  (memRead16_inputs vector (s.setP (writeFlag s.p .I true))).andThen fun _ _ => .next rfl

theorem returnFromException_inputs (s : State) :
    InputsMatch b c (returnFromException s P) (returnFromException (s.withInputs b c) P) :=
  (pull_inputs s).andThen fun v s =>
  (pull16_inputs (s.setP (restoredStatus v))).andThen fun _ _ => .next rfl

/-! The resolver and the shapes of instruction. -/

theorem zeroPagePointer_inputs (z : Byte) (s : State) :
    InputsMatchValue b c (zeroPagePointer z s P) (zeroPagePointer z (s.withInputs b c) P) :=
  (memRead_inputs _ s).andThen fun _ s => (memRead_inputs _ s).andThen fun _ _ => .next ⟨rfl, rfl⟩

theorem indirectTarget_inputs (ptr : Word) (s : State) :
    InputsMatchValue b c (indirectTarget ptr s P) (indirectTarget ptr (s.withInputs b c) P) :=
  (memRead_inputs _ s).andThen fun _ s => (memRead_inputs _ s).andThen fun _ _ => .next ⟨rfl, rfl⟩

theorem resolve_inputs (o : Operand) (s : State) :
    InputsMatchValue b c (resolve o s P) (resolve o (s.withInputs b c) P) := by
  cases o with
  | indx z => exact (zeroPagePointer_inputs _ s).andThen fun _ _ => .next ⟨rfl, rfl⟩
  | indy z => exact (zeroPagePointer_inputs z s).andThen fun _ _ => .next ⟨rfl, rfl⟩
  | ind w => exact (indirectTarget_inputs w s).andThen fun _ _ => .next ⟨rfl, rfl⟩
  | _ => exact .next ⟨rfl, rfl⟩

theorem readOperand_inputs (r : Resolved) (s : State) :
    InputsMatchValue b c (readOperand r s P) (readOperand r (s.withInputs b c) P) := by
  cases r with
  | immediate v | accumulator => exact .next ⟨rfl, rfl⟩
  | address ea crossed => exact memRead_inputs ea s
  | _ => exact .refused _

theorem storeBack_inputs (r : Resolved) (v : Byte) (s : State) :
    InputsMatch b c (storeBack r v s P) (storeBack r v (s.withInputs b c) P) := by
  cases r with
  | accumulator => exact .next rfl
  | address ea crossed => exact memWrite_inputs ea v s
  | _ => exact .refused _

/-- A reading instruction whose update neither reads nor writes the optional inputs. -/
theorem readInstr_inputs (i : Instr) (o : Operand) {update : Byte → State → State} (s : State)
    (hu : ∀ m s, update m (s.withInputs b c) = (update m s).withInputs b c) :
    InputsMatch b c (readInstr i o update s P) (readInstr i o update (s.withInputs b c) P) := by
  refine OutcomesMatch.ifWellFormed ?_ i P
  refine (resolve_inputs o s).andThen fun r s => (readOperand_inputs r s).andThen fun m s => .next ?_
  rw [hu]
  rfl

theorem modifyInstr_inputs (i : Instr) (o : Operand) (f : Byte → Byte → Byte × Byte) (s : State) :
    InputsMatch b c (modifyInstr i o f s P) (modifyInstr i o f (s.withInputs b c) P) := by
  refine OutcomesMatch.ifWellFormed ?_ i P
  exact (resolve_inputs o s).andThen fun r s => (readOperand_inputs r s).andThen fun v s =>
    (storeBack_inputs r (f s.p v).1 (s.setP (f s.p v).2)).andThen fun _ => .next rfl

theorem storeInstr_inputs (i : Instr) (o : Operand) (v : Byte) (s : State) :
    InputsMatch b c (storeInstr i o v s P) (storeInstr i o v (s.withInputs b c) P) := by
  refine OutcomesMatch.ifWellFormed ?_ i P
  exact (resolve_inputs o s).andThen fun r s => (storeBack_inputs r v s).andThen fun _ => .next rfl

theorem branchInstr_inputs (i : Instr) (d : Byte) (cond : Bool) (s : State) :
    InputsMatch b c (branchInstr i d cond s P) (branchInstr i d cond (s.withInputs b c) P) := by
  cases cond <;> exact .next rfl

/-- No instruction reads or writes the optional inputs. -/
theorem exec_inputs (i : Instr) (s : State) : InputsMatch b c (exec i s) (exec i (s.withInputs b c)) := by
  cases i with
  | adc o | sbc o | and o | ora o | eor o | cmp o | cpx o | cpy o | lda o | ldx o | ldy o =>
    exact readInstr_inputs _ o s fun _ _ => rfl
  | bit o =>
    simp only [exec, execBit]
    exact readInstr_inputs _ o s fun _ _ => rfl
  | asl o | lsr o | rol o | ror o | inc o | dec o => exact modifyInstr_inputs _ o _ s
  | sta o | stx o | sty o => exact storeInstr_inputs _ o _ s
  | bcc d | bcs d | beq d | bne d | bmi d | bpl d | bvc d | bvs d => exact branchInstr_inputs _ d _ s
  | jmpInd ptr => exact (indirectTarget_inputs ptr s).andThen fun _ _ => .next rfl
  | jsr target => exact (push16_inputs _ s).andThen fun _ => .next rfl
  | rts => exact (pull16_inputs s).andThen fun _ _ => .next rfl
  | pha | php => exact (push_inputs _ s).andThen fun _ => .next rfl
  | pla | plp => exact (pull_inputs s).andThen fun _ _ => .next rfl
  | brk => exact (enterException_inputs _ _ _ s).andThen fun _ => .next rfl
  | rti => exact (returnFromException_inputs s).andThen fun _ => .next rfl
  | nopStar op o =>
    refine OutcomesMatch.ifWellFormed ?_ _ _
    exact .next rfl
  | unimp op =>
    refine OutcomesMatch.ifWellFormed ?_ _ _
    exact .fault _ rfl
  | _ => exact .next rfl

/-! The fetch and the run call. -/

theorem fetchOperands_inputs (d : Instr) (s : State) :
    InputsMatchValue b c (fetchOperands d s P) (fetchOperands d (s.withInputs b c) P) := by
  unfold fetchOperands
  split
  · refine (memRead_inputs (s.pc + 1) s).andThen fun b1 s => ?_
    dsimp only
    split
    · exact (memRead_inputs (s.pc + 2) s).andThen fun _ _ => .next ⟨rfl, rfl⟩
    · exact .next ⟨rfl, rfl⟩
  · exact .next ⟨rfl, rfl⟩

theorem runInstruction_inputs (s : State) :
    InputsMatch b c (runInstruction exec s) (runInstruction exec (s.withInputs b c)) :=
  InputsMatchValue.andThen ((memRead_inputs s.pc s).andThen fun _ s => fetchOperands_inputs _ s) exec_inputs

/-- Without interrupt lines a run call neither reads nor writes the optional inputs (R179). -/
theorem step_inputs (s : State) : InputsMatch b c (step s) (step (s.withInputs b c)) := by
  unfold step runCall
  simp only [withInputs_fault, withInputs_cyc, default_hasInterruptLines, Bool.false_eq_true, if_false]
  split
  · exact .next rfl
  · split
    · exact .next rfl
    · exact runInstruction_inputs s

end Inputs

/-- Outcomes that match are equal once the inputs are driven. -/
theorem InputsMatch.eq_onState {b c : Bool} {r r' : Result State} (h : InputsMatch b c r r') :
    r' = onState (·.withInputs b c) r := by
  cases h with
  | next h => exact congrArg _ h
  | fault kind h => cases kind <;> simp only [faultOf, onState] <;> rw [h]
  | refused q => rfl

/-- Settles O52: every operation, from the bus up to the run call, takes states that differ in the optional inputs alone
to outcomes that do. -/
theorem interruptInputsIgnored : Obligations.InterruptInputsIgnored := by
  unfold Obligations.InterruptInputsIgnored
  exact fun s b c => (step_inputs s).eq_onState

/-! ## O58: the sampling of the optional inputs (R182) -/

/-- A run call of an instance with interrupt lines that would fetch enters the pending vector (R182). -/
theorem stepWith_pending {P : Params} {s : State} {vector : Word} (hl : P.hasInterruptLines = true)
    (hf : s.fault = none) (hc : s.cyc = 0) (hv : pendingVector s = some vector) :
    stepWith P s = enterInterrupt vector s P := by
  simp only [stepWith, runCall, hf, hc, hl, hv, Option.isSome_none, Bool.false_eq_true, ne_eq, not_true_eq_false,
    if_false, if_true]

/-- No instruction's meaning depends on whether the instance has interrupt lines (R182). -/
theorem execWith_withoutLines (P : Params) (i : Instr) (s : State) :
    execWith i s { P with hasInterruptLines := false } = execWith i s P := by
  cases i <;> rfl

/-- Where no interrupt can be taken, a run call is that of the instance without interrupt lines (R182). -/
theorem stepWith_withoutLines {P : Params} {s : State} (h : s.fault ≠ none ∨ s.cyc ≠ 0 ∨ pendingVector s = none) :
    stepWith P s = stepWith { P with hasInterruptLines := false } s := by
  simp only [stepWith, execWith_withoutLines, runCall]
  split
  · rfl
  · next hf =>
    split
    · rfl
    · next hc =>
      have hp : pendingVector s = none := by simp_all
      rw [hp, ite_self]
      rfl

/-- Settles O58: the pending vector is NMI's, then that of an IRQ while I is 0, and else none. -/
theorem interruptSampling : Obligations.InterruptSampling := by
  unfold Obligations.InterruptSampling
  intro P s hl
  refine ⟨fun hf hc hn => ?nmi, fun hf hc hn hi hI => ?irq, fun hn hi => ?idle, fun h => ?busy⟩
  case nmi => exact stepWith_pending hl hf hc (by rw [pendingVector, if_pos hn]; rfl)
  case irq => exact stepWith_pending hl hf hc (by simp only [pendingVector, hn, hi, hI]; rfl)
  case idle => exact stepWith_withoutLines (.inr (.inr (by rcases hi with hi | hi <;> simp [pendingVector, hn, hi])))
  case busy => exact stepWith_withoutLines (h.imp_right .inl)

/-! ## O59: the interrupt entry (R183) -/

/-- An exception entry reads no parameter of the instance but its memory map. -/
theorem enterException_eq_default {P : Params} (hP : P.memoryMap = defaultMemoryMap) (ret : Word) (status : Byte)
    (vector : Word) (s : State) : enterException ret status vector s P = enterException ret status vector s := by
  obtain ⟨map, nops, cycles, lines⟩ := P
  cases hP
  rfl

/-- A taken NMI edge is cleared, and one that is not latched is as if it were (R182, log 9). -/
theorem acknowledge_eq (s : State) : acknowledge s = { s with nmiEdge := false } := by
  obtain ⟨a, x, y, p, sp, pc, cyc, fault, busLog, mem, irq, nmiEdge, ppuDraws⟩ := s
  cases nmiEdge <;> rfl

/-- The interrupt entry is an exception entry with the return address PC and 7 cycles (R183). -/
theorem enterInterrupt_eq {P : Params} {s s0 : State} (hP : P.memoryMap = defaultMemoryMap)
    (h0 : s0 = { s with nmiEdge := false }) (vector : Word) :
    enterInterrupt vector s P =
      andThen (enterException s.pc ((s.p &&& 0xEF) ||| 0x20) vector s0) fun t => .next (goesTo t.pc 7 t) := by
  rw [enterInterrupt, enterException_eq_default hP, acknowledge_eq, ← h0]
  rfl

/-- Settles O59: the interrupt entry has one case for each way its exception entry can end. -/
theorem interruptEntry : Obligations.InterruptEntry := by
  unfold Obligations.InterruptEntry
  intro P s s0 s1 s2 s3 vector hP hv h0 h1 h2 h3
  obtain ⟨hrom, hrom'⟩ : 0x8000 ≤ vector.toNat ∧ 0x8000 ≤ (vector + 1).toNat := by rcases hv with rfl | rfl <;> decide
  have hsp : s0.sp = s.sp := by rw [h0]
  have hp : s0.p = s.p := by rw [h0]
  have hpeek : ∀ a, s0.peek a = s.peek a := fun a => by rw [h0]; rfl
  rw [enterInterrupt_eq hP h0]
  refine ⟨fun h => ?next, fun h => ?third, fun h => ?second, fun h => ?first⟩
  case next =>
    obtain ⟨lo, hi, hlo, hhi, hentry⟩ :=
      enterException_rom (status := (s.p &&& 0xEF) ||| 0x20) (s3 := s3) hrom hrom' (hsp ▸ h) h1 h2 (by rw [hp, h3])
    refine ⟨lo, hi, hpeek _ ▸ hlo, hpeek _ ▸ hhi, ?_⟩
    rw [hentry]
    rfl
  case third =>
    rw [enterException_overflow_third (hsp.trans h), h2, h1]
    rfl
  case second =>
    rw [enterException_overflow_second (hsp.trans h), h1]
    rfl
  case first =>
    rw [enterException_overflow_first (hsp.trans h)]
    rfl

end Sys2Proof.Machine

/-! # Proofs: the family of 70_reset_and_hazards.md -/

namespace Sys2Proof.Machine

open Claims

/-! ## O2: the launch (R189, R192) -/

/-- A state after Reset or harness writes that has FAULT none and CYC 0 meets the invariant: its log is empty. -/
theorem inv_of_launched {s : State} (h : Launched s) (hf : s.fault = none) (hc : s.cyc = 0) : Inv s := by
  obtain ⟨l, ws, rfl⟩ := h
  obtain ⟨-, hlog, -, -, hmem⟩ := harnessWrites_keeps l.reset ws .default
  exact {
    memory := hmem (launch_memory_wf l)
    countdown := by rw [hc]; decide
    log := by rw [hlog]; exact nofun
    faulted := fun r hr => by cases hf.symm.trans hr }

/-- Settles O2: Reset is a launch with no harness writes, and a clean launch has FAULT none and CYC 0. -/
theorem launchMeetsInvariant : Obligations.LaunchMeetsInvariant := by
  unfold Obligations.LaunchMeetsInvariant
  exact ⟨fun l => inv_of_launched ⟨l, [], rfl⟩ rfl rfl, fun s h => inv_of_launched h.launched h.noFault h.ready⟩

/-! ## O39: the costs (R197, R198) -/

/-! The figures of R197 and R198 are those of the default `CYCLES`, byte by byte. -/

theorem baseCycles_decodeOpcode :
    ∀ op : Byte, op ∉ unimplementedBytes → baseCycles (decodeOpcode op) = baseCost op := by decide

theorem pageCrossPenalty_decodeOpcode :
    ∀ op : Byte, pageCrossPenalty (decodeOpcode op) = decide (op ∈ penaltyBytes) := by decide

theorem isBranch_decodeOpcode : ∀ op : Byte, isBranch (decodeOpcode op) = decide (op ∈ branchBytes) := by decide

/-- The cost of the instruction that three bytes decode to, where it is no branch, by its opcode byte (R85, R197). -/
theorem cycles_decode {op : Byte} (hb : op ∉ branchBytes) (hu : op ∉ unimplementedBytes) (b1 b2 : Byte)
    (crossed : Bool) :
    cycles (decode op b1 b2) crossed = baseCost op + bitOf (decide (op ∈ penaltyBytes) && crossed) := by
  have hbranch : isBranch (decode op b1 b2) = false := by
    rw [decode, isBranch_fillInstr, isBranch_decodeOpcode, decide_eq_false hb]
  rw [cycles_default (decode_wellFormed op b1 b2 _) hbranch, decode, baseCycles_fillInstr, pageCrossPenalty_fillInstr,
    baseCycles_decodeOpcode op hu, pageCrossPenalty_decodeOpcode]

/-- Settles O39: the two tables agree byte by byte, and an unimplemented byte faults before CYC is written. -/
theorem costsAreTheTables : Obligations.CostsAreTheTables := by
  unfold Obligations.CostsAreTheTables
  refine ⟨fun op b1 b2 hb hu => ⟨?base, ?penalty⟩, fun op hop b1 b2 => ?branch, fun op hop s => ?unimplemented⟩
  case base => rw [cycles_decode hb hu, Bool.and_false]; rfl
  case penalty => rw [cycles_decode hb hu, Bool.and_true]; simp only [bitOf, decide_eq_true_eq]
  case branch =>
    have hbranch : isBranch (decode op b1 b2) = true := by
      rw [decode, isBranch_fillInstr, isBranch_decodeOpcode, decide_eq_true hop]
    exact ⟨fun c => branchCycles_default hbranch false c, branchCycles_default hbranch true false,
      branchCycles_default hbranch true true⟩
  case unimplemented => exact ⟨_, exec_unimp ((mem_unimplementedBytes_iff op).1 hop) s, rfl⟩

/-! ## O60: the end of a run (R199) -/

section Runs

variable {P : Params} {s t u : State} {j k : Nat}

/-- No end comes before another: the end of a run is the first state with the marker (R199). -/
theorem EndsAt.le (h : EndsAt s j t P) (h' : EndsAt s k u P) : k ≤ j :=
  Nat.le_of_not_lt fun hlt => h'.first j t hlt h.reached h.marked

/-- A run has at most one end, after one number of run calls (R199). -/
theorem EndsAt.unique (h : EndsAt s j t P) (h' : EndsAt s k u P) : j = k ∧ t = u := by
  obtain rfl := Nat.le_antisymm (h'.le h) (h.le h')
  cases h.reached.symm.trans h'.reached
  exact ⟨rfl, rfl⟩

/-- A run that fails has no end: none before the fault by premise, and no state at all after it (R169, R199). -/
theorem RunFails.not_endOfRun (h : RunFails s P) : ¬ EndOfRun s t P := by
  obtain ⟨-, k, f, hfault, hfirst⟩ := h
  rintro ⟨j, hend⟩
  rcases Nat.lt_or_ge j k with hlt | hge
  · exact hfirst j t hlt hend.reached hend.marked
  · cases (runCalls_fault_stays hfault hge).symm.trans hend.reached

/-- The run call at the end marker executes the self-loop, whose cost is 3 (R136, R199). -/
theorem step_atEnd (h : AtEnd s) : ∃ log, step s = .next { s with busLog := log, cyc := 3 } := by
  obtain ⟨hf, hc, hop, hlo, hhi⟩ := h
  have hdecode : Instr.jmpAbs s.pc = decode 0x4C (loByte s.pc) (hiByte s.pc) := by
    conv_lhs => rw [← w16_loByte_hiByte s.pc]
    rfl
  let s1 := s.logAccess .read s.pc 0x4C
  let s2 := s1.logAccess .read (s.pc + 1) (loByte s.pc)
  obtain ⟨-, -, hrun⟩ := stepRunsDecodedInstruction .default s s1 s2 _ _ _ _ _ hf hc (.inl rfl) (classify_of_peek hop).1
    (byteAt_of_peek hop).symm (afterRead_of_peek hop).symm
    (byteAt_of_peek (s := s1) hlo).symm (afterRead_of_peek (s := s1) hlo).symm
    (byteAt_of_peek (s := s2) hhi).symm (afterRead_of_peek (s := s2) hhi).symm
    hdecode (fun _ => (classify_of_peek hlo).1) (fun _ => (classify_of_peek hhi).1)
  exact ⟨_, (hrun rfl).trans (exec_jmpAbs s.pc _)⟩

end Runs

/-- Settles O60: the self-loop takes one run call and three of the countdown. -/
theorem endMarkerLoops : Obligations.EndMarkerLoops := by
  unfold Obligations.EndMarkerLoops
  refine ⟨fun P s t u j k => EndsAt.unique, fun P s h t => h.not_endOfRun, fun s h => ?_⟩
  obtain ⟨log, hstep⟩ := step_atEnd h
  obtain ⟨hf, hc, hop, hlo, hhi⟩ := h
  refine ⟨{ s with busLog := log }, ?run, ⟨hf, hc, hop, hlo, hhi⟩, rfl⟩
  case run =>
    calc Host.Core.run core 4 s
      _ = Host.Core.run core 3 { s with busLog := log, cyc := 3 } := run_of_step hstep
      _ = .next { s with busLog := log, cyc := 0 } := run_countdown (n := 3) hf rfl
      _ = .next { s with busLog := log } := by rw [← hc]

end Sys2Proof.Machine
